-- ==== Sys2Proof/Word.lean ====
section
/-! DEFINITION. The values of the machine: the signed 64-bit range `Val` of 00_scope.md R7 and the
addresses of 20_memory.md R41. The encoding is decimal and nothing is ever sliced, widened or wrapped
(R12, R120), so a value is an exact integer held to its range, not a bit vector (log 1). -/

namespace Sys2Proof

/-- `MINV` (R7). -/
def minV : Int := -9223372036854775808

/-- `MAXV` (R7). -/
def maxV : Int := 9223372036854775807

/-- The largest address, `MAXV` as a natural number (R41). -/
def maxAddr : Nat := 9223372036854775807

/-- A value of `Val` (R7). -/
abbrev InVal (v : Int) : Prop := minV ≤ v ∧ v ≤ maxV

end Sys2Proof
end

