-- ==== Sys2Proof/Config.lean ====
section
/-! DEFINITION. The parameters of one run (00_scope.md R8 to R10; 92_eei_decisions.md, table of
parameters), and the values the model takes for them at `State.reset` (log 6). They are constant during
a run and set by the host's LOAD (70_reset_and_hazards.md R250). -/

namespace Sys2Proof.Machine

/-- An instance's label, opaque to the machine (R10, log 14). -/
abbrev Label := Nat

/-- The two wirings of the orchestrator (R9, 48_pipeline_orchestrator.md R190). -/
inductive Topology where
  | linear
  | feedback
deriving DecidableEq, Repr

/-- What stands in the channels at reset. -/
inductive Feed where
  /-- A pipeline: phases and seed are in the queues (48_pipeline_orchestrator.md R196, R202). -/
  | seeded
  /-- A single machine outside a pipeline: the host is the producer of `c_0`; what it supplied before
  the first step, and whether it has said that there is no more (70_reset_and_hazards.md R253). -/
  | hostFed (queue : List Int) (closed : Bool)
deriving DecidableEq, Repr

/-- The parameters LOAD fixes (10_state.md R34, R36). -/
structure Params where
  /-- `T`, the threshold of the memory controller (R8). -/
  threshold : Nat
  topology  : Topology
  /-- One phase setting per `Inst`; its length is `N` (R9). -/
  phase     : List Int
  seed      : Int
  /-- The program (R9, 10_state.md R30). -/
  image     : List Int
  names     : List Label
  feed      : Feed
deriving DecidableEq, Repr

/-- `N`, the number of machines of the run (R9). -/
def Params.size (p : Params) : Nat := p.phase.length

/-- `T`'s default (R8). -/
def Config.defaultThreshold : Nat := 1000000

/-- The parameters at `State.reset`: the smallest LOAD the spec allows, one machine in the Linear
topology with phase 0, the source's seed 0 and the empty image. DESIGN CHOICE (log 6): the spec leaves
image, phases, topology and names to the host. -/
def Config.resetParams : Params where
  threshold := Config.defaultThreshold
  topology  := .linear
  phase     := [0]
  seed      := 0
  image     := []
  names     := [0]
  feed      := .seeded

end Sys2Proof.Machine
end

