-- ==== Sys2Proof/Syntax.lean ====
section
/-! DEFINITION. The instructions as 30_encoding.md R83's `Decode` answers them: the operation and the
addressing mode of each parameter, in the table's order (R80). The raw parameters are cells of memory
that the step reads after decoding (40_operand_resolution.md R100, R102), so they are no part of an
`Instr`. -/

namespace Sys2Proof

/-- The three addressing modes (R74). -/
inductive Mode where
  | position
  | immediate
  | relative
deriving DecidableEq, Repr

/-- The ten instructions of the opcode table (R80), parameters named as there. -/
inductive Instr where
  | add (a b dest : Mode)
  | multiply (a b dest : Mode)
  | input (dest : Mode)
  | output (a : Mode)
  | jumpIfTrue (cond target : Mode)
  | jumpIfFalse (cond target : Mode)
  | lessThan (a b dest : Mode)
  | equals (a b dest : Mode)
  | adjustRelativeBase (a : Mode)
  | halt
deriving DecidableEq, Repr

end Sys2Proof
end

