-- ==== Sys2Proof/WellFormed.lean ====
section
/-! DEFINITION. Which instruction terms the encoding admits: a write parameter is never Immediate
(30_encoding.md R77). A read parameter may have any mode, so nothing else is checked. -/

namespace Sys2Proof

/-- The modes a write parameter may have (R77). -/
def Mode.writable : Mode → Bool
  | .position => true
  | .immediate => false
  | .relative => true

/-- `i` is an instruction some word decodes to: its write parameter, if it has one, is in Position or
Relative mode (R77; the roles are R80's). -/
def Instr.wellFormed : Instr → Bool
  | .add _ _ dest => dest.writable
  | .multiply _ _ dest => dest.writable
  | .input dest => dest.writable
  | .output _ => true
  | .jumpIfTrue _ _ => true
  | .jumpIfFalse _ _ => true
  | .lessThan _ _ dest => dest.writable
  | .equals _ _ dest => dest.writable
  | .adjustRelativeBase _ => true
  | .halt => true

end Sys2Proof
end

