-- ==== Sys2Proof/Decode.lean ====
section
/-! DEFINITION. The decoder of 30_encoding.md R83, total on every integer, and the encoder of R86 after
it. The fields of a word are decimal digits (R71). -/

namespace Sys2Proof

/-- Why a fetched word is no instruction (R83). -/
inductive DecodeError where
  /-- A negative word, or an opcode outside 1 to 9 and 99 (R72, R81). -/
  | unknownOpcode (word : Int)
  /-- A consumed mode digit of 3 to 9 (R75). -/
  | illegalMode (index : Nat)
  /-- A write parameter in Immediate mode (R77). -/
  | illegalWriteTarget (index : Nat)
deriving DecidableEq, Repr

/-- The mode digit of parameter `i`: `(word div 10^(i+2)) mod 10` (R73). -/
def modeDigit (word i : Nat) : Nat := word / 10 ^ (i + 2) % 10

/-- The mode of a read parameter (R74, R75). -/
def readMode (word i : Nat) : Except DecodeError Mode :=
  match modeDigit word i with
  | 0 => .ok .position
  | 1 => .ok .immediate
  | 2 => .ok .relative
  | _ => .error (.illegalMode i)

/-- The mode of a write parameter (R75, R77). -/
def writeMode (word i : Nat) : Except DecodeError Mode :=
  match modeDigit word i with
  | 0 => .ok .position
  | 1 => .error (.illegalWriteTarget i)
  | 2 => .ok .relative
  | _ => .error (.illegalMode i)

/-- Format `F1R`: one read parameter (R78). -/
def decodeF1R (mk : Mode → Instr) (word : Nat) : Except DecodeError Instr :=
  (readMode word 0).bind fun a => .ok (mk a)

/-- Format `F1W`: one write parameter (R78). -/
def decodeF1W (mk : Mode → Instr) (word : Nat) : Except DecodeError Instr :=
  (writeMode word 0).bind fun d => .ok (mk d)

/-- Format `F2R`: two read parameters (R78). The first that fails is reported (R83). -/
def decodeF2R (mk : Mode → Mode → Instr) (word : Nat) : Except DecodeError Instr :=
  (readMode word 0).bind fun a => (readMode word 1).bind fun b => .ok (mk a b)

/-- Format `F3`: two read parameters and a write parameter (R78). -/
def decodeF3 (mk : Mode → Mode → Mode → Instr) (word : Nat) : Except DecodeError Instr :=
  (readMode word 0).bind fun a => (readMode word 1).bind fun b =>
    (writeMode word 2).bind fun d => .ok (mk a b d)

/-- The opcode map (R80), `halt` before the modes are looked at (R82). -/
def decodeNat (word : Nat) : Except DecodeError Instr :=
  match word % 100 with
  | 1 => decodeF3 .add word
  | 2 => decodeF3 .multiply word
  | 3 => decodeF1W .input word
  | 4 => decodeF1R .output word
  | 5 => decodeF2R .jumpIfTrue word
  | 6 => decodeF2R .jumpIfFalse word
  | 7 => decodeF3 .lessThan word
  | 8 => decodeF3 .equals word
  | 9 => decodeF1R .adjustRelativeBase word
  | 99 => .ok .halt
  | _ => .error (.unknownOpcode word)

/-- `Decode(word)` (R83): a negative word is refused before `mod` and `div` are applied (R72). -/
def decodeWord (word : Int) : Except DecodeError Instr :=
  if word < 0 then .error (.unknownOpcode word) else decodeNat word.toNat

/-- The opcode of an instruction (R80). -/
def Instr.opcode : Instr → Nat
  | .add _ _ _ => 1
  | .multiply _ _ _ => 2
  | .input _ => 3
  | .output _ => 4
  | .jumpIfTrue _ _ => 5
  | .jumpIfFalse _ _ => 6
  | .lessThan _ _ _ => 7
  | .equals _ _ _ => 8
  | .adjustRelativeBase _ => 9
  | .halt => 99

/-- The modes of an instruction's parameters, in index order (R80). -/
def Instr.modes : Instr → List Mode
  | .add a b dest => [a, b, dest]
  | .multiply a b dest => [a, b, dest]
  | .input dest => [dest]
  | .output a => [a]
  | .jumpIfTrue cond target => [cond, target]
  | .jumpIfFalse cond target => [cond, target]
  | .lessThan a b dest => [a, b, dest]
  | .equals a b dest => [a, b, dest]
  | .adjustRelativeBase a => [a]
  | .halt => []

/-- The width in cells: one plus the number of parameters (R70, R84). -/
def Instr.width (i : Instr) : Nat := i.modes.length + 1

/-- The digit of a mode (R74). -/
def Mode.digit : Mode → Nat
  | .position => 0
  | .immediate => 1
  | .relative => 2

/-- The mode digits of a word as a number, the first parameter's the least significant (R73). -/
def encodeModes : List Mode → Nat
  | [] => 0
  | m :: ms => m.digit + 10 * encodeModes ms

/-- The canonical word of an instruction, `opcode + 100*m(0) + 1000*m(1) + 10000*m(2)`, unconsumed digits
zero (R86). It is the whole of what the encoding fixes: the parameter cells that follow are free. -/
def encode (i : Instr) : Int := (i.opcode + 100 * encodeModes i.modes : Nat)

/-- The cells of an instruction in memory: its word, then its raw parameters (R70). -/
def encodeCells (i : Instr) (raws : List Int) : List Int := encode i :: raws

/-- The value of a cell whose 64 bits, read as a natural number, are `bits`: two's complement (log 17).
Only the host's bit-numbered interface uses it; no program can see a cell's bits (R51). -/
def cellOfBits (bits : Nat) : Int := (BitVec.ofNat 64 bits).toInt

/-- Cell `i` of an instruction whose cells, 64 bits each, the first lowest, are the bits of `w`; of `w`
only `nbits` bits count, the rest are 0 (log 17). -/
def cellOfTableWord (nbits w i : Nat) : Int := cellOfBits (w % 2 ^ nbits / 2 ^ (64 * i))

/-- What the decoder reads from an instruction whose bits are `w` (log 17). -/
def decodeTableWord (nbits w : Nat) : Option Instr :=
  match decodeWord (cellOfTableWord nbits w 0) with
  | .ok i => some i
  | .error _ => none

end Sys2Proof
end

