-- ==== Sys2Proof/Machine/State.lean ====
section
/-! DEFINITION. The state of the block (10_state.md R36) as plain data: every machine of the run, every
channel, the relay, the orchestrator, the parameters of the run, and the host's side of the ports
(R37). Reset values are 10_state.md R38's. -/

namespace Sys2Proof.Machine

/-- The causes of 60_exceptions.md R220. Codes are `Cause.code`. -/
inductive Cause where
  | unknownOpcode
  | illegalWriteTarget
  | inputAfterEndOfStream
  | negativeAddress
  | illegalMode
  | arithmeticOverflow
  | pcOverflow
  /-- Raised by the orchestrator's completion step only (48_pipeline_orchestrator.md R210). -/
  | missingOutput
  /-- The host's loader only: it never reaches the block (R227). -/
  | parseError
deriving DecidableEq, Repr

/-- The status of one machine (10_state.md R26). -/
inductive Status where
  | running
  | halted
  | faulted
deriving DecidableEq, Repr

/-- The fault record (10_state.md R27, 60_exceptions.md R230): `info` is the cause's own datum. -/
structure FaultRecord where
  cause : Cause
  pc    : Nat
  word  : Int
  info  : Int
deriving DecidableEq, Repr

/-- The memory controller of one machine (10_state.md R30, R31). The two tiers are stored as one
canonical list of the cells that are not 0, addresses rising, with the length of the primary region and
the key set of the overflow region beside it (log 8); `Memory.primary` and `Memory.ovf` are computed. -/
structure Memory where
  cells   : List (Nat × Int)
  /-- `plen` (R31). -/
  plen    : Nat
  /-- The keys of `ovf`, rising (R31). -/
  ovfKeys : List Nat
deriving DecidableEq, Repr

/-- The emptied controller (20_memory.md R48). -/
def Memory.empty : Memory := { cells := [], plen := 0, ovfKeys := [] }

/-- One machine of the run: a "VM instance" (10_state.md R20 to R32). -/
structure Inst where
  mem    : Memory
  /-- Program counter (R21). -/
  pc     : Nat
  /-- Relative base (R25). -/
  rb     : Int
  status : Status
  fault  : Option FaultRecord
  name   : Label
  /-- The channel the input endpoint is bound to (R32). -/
  inp    : Nat
  /-- The channel the output endpoint is bound to (R32). -/
  out    : Nat
deriving DecidableEq, Repr

/-- A machine as reset builds it, before its image is loaded (70_reset_and_hazards.md R250). -/
def Inst.fresh (name : Label) (inp out : Nat) : Inst where
  mem := .empty
  pc := 0
  rb := 0
  status := .running
  fault := none
  name := name
  inp := inp
  out := out

/-- A channel (10_state.md R33). -/
structure Channel where
  /-- Oldest first, no bound (47_channel_interface.md R178). -/
  queue   : List Int
  closed  : Bool
  dropped : Bool
deriving DecidableEq, Repr

/-- A channel with nothing in it (R38). -/
def Channel.fresh : Channel := { queue := [], closed := false, dropped := false }

/-- The relay of the Feedback topology (10_state.md R35). -/
structure Relay where
  last  : Option Int
  count : Nat
  /-- `relay_done`. -/
  done  : Bool
deriving DecidableEq, Repr

/-- The relay at reset (R38). -/
def Relay.fresh : Relay := { last := none, count := 0, done := false }

/-- The orchestrator-level record of 48_pipeline_orchestrator.md R210: a cause and a name, no `pc` and no
`word`. -/
structure RunFault where
  cause : Cause
  name  : Label
deriving DecidableEq, Repr

/-- The orchestrator's own fields (10_state.md R34), with the record of R210 (log 21). -/
structure Orchestrator where
  done    : Bool
  aborted : Bool
  result  : Option Int
  fault   : Option RunFault
deriving DecidableEq, Repr

/-- The orchestrator at reset (R38). -/
def Orchestrator.fresh : Orchestrator :=
  { done := false, aborted := false, result := none, fault := none }

/-- Who takes a step (00_scope.md R15); the host is the world outside the block (log 11). -/
inductive Agent where
  | inst (k : Nat)
  | relay
  | orchestrator
  | host
deriving DecidableEq, Repr

/-- A transaction of the host on a port of 10_state.md R37 (log 11). -/
inductive HostTx where
  /-- LOAD: the only reset (70_reset_and_hazards.md R250). -/
  | load (p : Params)
  /-- `Send(v)` on HOST_IN. -/
  | send (v : Int)
  /-- `CloseOut()` on HOST_IN: the host has no more input to give. -/
  | closeIn
  /-- `Recv()` on HOST_OUT. -/
  | recvOut
  /-- `DropIn()` on HOST_OUT: the host stops listening (47_channel_interface.md R177). -/
  | dropOut
deriving DecidableEq, Repr

/-- The state of the block (10_state.md R36), the host's side of its ports, and the model's own
`schedule`, `turn` and `cur`. -/
structure State where
  /-- The parameters of the run (R34); constant until the next LOAD. -/
  params    : Params
  /-- The `N` machines, in pipeline order (R34). -/
  instances : List Inst
  /-- `c_0 .. c_N`, or `c_0 .. c_(N-1)` and then `t` (48_pipeline_orchestrator.md R192, R199). -/
  channels  : List Channel
  relay     : Relay
  orch      : Orchestrator
  /-- The host's transactions not yet performed (log 11). -/
  hostTx    : List HostTx
  /-- What the host has taken from HOST_OUT, oldest first (log 10). -/
  hostOut   : List Int
  /-- MODEL FIELD: the choices of the schedule still to come (log 2). -/
  schedule  : List Agent
  /-- MODEL FIELD: where the round robin stands once `schedule` is used up (log 2). -/
  turn      : Nat
  /-- MODEL FIELD: the index of the machine whose instruction `exec` runs (log 18). -/
  cur       : Nat
deriving DecidableEq, Repr

/-- Why `step` gives no next state. Neither is a fault of a machine: those are next states with a fault
record (60_exceptions.md R230). -/
inductive Fault where
  /-- Raised by `step` when the run is not over and no agent has a step: every running machine is held,
  the relay is held and the host has nothing to do (70_reset_and_hazards.md R262; "stuck", U20). Safe: the
  machine does not go on (log 4). -/
  | stuck
  /-- Raised by `step` when `done` is true and the host has nothing to do: no agent of the run steps
  again (48_pipeline_orchestrator.md R208). Safe: the run is over (log 5). -/
  | runOver
deriving DecidableEq, Repr

/-- What the model has no meaning for. Every one but the first is a transaction of the host that the
spec rejects or gives no meaning. -/
inductive Refusal where
  /-- Raised by `exec` for an instruction without a meaning yet; safe. No arm raises it. -/
  | notModelled (mnemonic : String)
  /-- Raised by `step`: `Send` on HOST_IN after the host has closed it (47_channel_interface.md R179, D31:
  "refuses (rejects the transaction)"). Safe. -/
  | hostSendAfterClose
  /-- Raised by `step`: a value on HOST_IN outside `Val` (42_input_output.md R134: "The host must send only
  values of `Val`"). Safe. -/
  | hostValueOutsideVal
  /-- Raised by `step`: `Recv` on HOST_OUT after the host has released it (47_channel_interface.md R177: "the
  consumer will never receive again"). Safe. -/
  | hostRecvAfterDrop
  /-- Raised by `step`: a transaction on a port this topology does not have (10_state.md R37). Safe. -/
  | hostPortAbsent
  /-- Raised by `step`: a LOAD whose parameters the spec does not allow (00_scope.md R9, 60_exceptions.md
  R227). Safe. -/
  | loadIllFormed
deriving DecidableEq, Repr

/-- The machine right after reset: LOAD of `Config.resetParams` (10_state.md R38,
70_reset_and_hazards.md R250; the parameters are log 6's). The Linear channel `c_0` holds phase and seed
and is closed (48_pipeline_orchestrator.md R196). -/
def State.reset : State where
  params    := Config.resetParams
  instances := [Inst.fresh 0 0 1]
  channels  := [{ queue := [0, 0], closed := true, dropped := false }, Channel.fresh]
  relay     := .fresh
  orch      := .fresh
  hostTx    := []
  hostOut   := []
  schedule  := []
  turn      := 0
  cur       := 0

end Sys2Proof.Machine
end

