-- ==== Sys2Proof/Machine/Ops.lean ====
section
/-! DEFINITION. The named operations every instruction is built from: the memory controller
(20_memory.md), the channel operations (47_channel_interface.md), the outcome of a step and its
commit (40_operand_resolution.md R110), and taking a fault (60_exceptions.md R230, R231), which is the
only exception entry of this machine; there is no return from one (R234). -/

namespace Sys2Proof.Machine

/-! ## Memory -/

/-- The value listed at `a`; a cell that is not listed reads 0 (10_state.md R30: "0 if never written"). -/
def look : List (Nat × Int) → Nat → Int
  | [], _ => 0
  | (b, w) :: r, a => if a = b then w else look r a

/-- Put a value that is not 0 at `a`, keeping the addresses rising. -/
def insertCell : List (Nat × Int) → Nat → Int → List (Nat × Int)
  | [], a, v => [(a, v)]
  | (b, w) :: r, a, v =>
    if a < b then (a, v) :: (b, w) :: r
    else if a = b then (a, v) :: r
    else (b, w) :: insertCell r a v

/-- The cells after a write of `v` at `a`; writing 0, what an unlisted cell reads as, removes the entry
(log 8). -/
def putCell (l : List (Nat × Int)) (a : Nat) (v : Int) : List (Nat × Int) :=
  if v = 0 then l.filter (fun c => c.1 ≠ a) else insertCell l a v

/-- Insert a key, keeping the keys rising. -/
def insertKey : List Nat → Nat → List Nat
  | [], a => [a]
  | b :: r, a => if a < b then a :: b :: r else if a = b then b :: r else b :: insertKey r a

/-- `view(a)`, the value of the cell at `a` (20_memory.md R47). -/
def Memory.view (m : Memory) (a : Nat) : Int := look m.cells a

/-- What reading the cell at `a` does to the controller: below `T` the primary region grows to exactly
`a + 1` if it was shorter; at or above `T` nothing (20_memory.md R43, R44, R46). -/
def Memory.touch (T : Nat) (m : Memory) (a : Nat) : Memory :=
  if a < T then { m with plen := max m.plen (a + 1) } else m

/-- `MemRead(a, 1)` (20_memory.md R44): the value, and the controller after the read. -/
def Memory.read (T : Nat) (m : Memory) (a : Nat) : Int × Memory := (m.view a, m.touch T a)

/-- `MemWrite(a, 1, v)` (20_memory.md R45): grows the primary region below `T`, inserts a key at or above
`T`, also when `v = 0`. -/
def Memory.write (T : Nat) (m : Memory) (a : Nat) (v : Int) : Memory :=
  if a < T then { m with cells := putCell m.cells a v, plen := max m.plen (a + 1) }
  else { m with cells := putCell m.cells a v, ovfKeys := insertKey m.ovfKeys a }

/-- Reading the `n` cells from `a` upward, as the raw parameters are read (40_operand_resolution.md
R102). -/
def Memory.touchRange (T : Nat) (m : Memory) (a : Nat) : Nat → Memory
  | 0 => m
  | n + 1 => (m.touch T a).touchRange T (a + 1) n

/-- Store values at `a` upward, one `MemWrite` each. -/
def Memory.writeList (T : Nat) (m : Memory) (a : Nat) : List Int → Memory
  | [] => m
  | v :: vs => (m.write T a v).writeList T (a + 1) vs

/-- The controller after the image is loaded: emptied, then stored cell by cell (20_memory.md R48). -/
def Memory.load (T : Nat) (image : List Int) : Memory := Memory.empty.writeList T 0 image

/-- `primary[0 .. plen-1]` (10_state.md R31). -/
def Memory.primary (m : Memory) : List Int := (List.range m.plen).map m.view

/-- `ovf` as key and value pairs (10_state.md R31). -/
def Memory.ovf (m : Memory) : List (Nat × Int) := m.ovfKeys.map fun a => (a, m.view a)

/-- The canonical form of the cells: addresses rising, none above `MAXV`, no value 0, every value in
`Val` (log 8). -/
def Memory.wf (m : Memory) : Bool :=
  decide (m.cells.Pairwise fun c d => c.1 < d.1) &&
  m.cells.all fun c => decide (c.1 ≤ maxAddr ∧ c.2 ≠ 0 ∧ InVal c.2)

/-- The two tiers under a threshold `T` (10_state.md R31, R39 (c)): `plen <= T`, the keys of `ovf` rise
from `T` to at most `MAXV`, and a listed cell is in the tier its address dispatches to
(20_memory.md R43). -/
def Memory.tiersOk (T : Nat) (m : Memory) : Bool :=
  decide (m.plen ≤ T) &&
  decide (m.ovfKeys.Pairwise (· < ·)) &&
  (m.ovfKeys.all fun a => decide (T ≤ a ∧ a ≤ maxAddr)) &&
  m.cells.all fun c => decide (if c.1 < T then c.1 < m.plen else c.1 ∈ m.ovfKeys)

/-! ## Channels -/

/-- The three answers of `Recv()` (47_channel_interface.md R176). -/
inductive RecvAnswer where
  | value (v : Int)
  | eos
  | empty
deriving DecidableEq, Repr

/-- `Send(v)`: silently discarded when the consumer has dropped (47_channel_interface.md R174). -/
def Channel.send (c : Channel) (v : Int) : Channel :=
  if c.dropped then c else { c with queue := c.queue ++ [v] }

/-- `CloseOut()` (47_channel_interface.md R175). -/
def Channel.closeOut (c : Channel) : Channel := { c with closed := true }

/-- `DropIn()`; the queue is left as it is (47_channel_interface.md R177, log 9). -/
def Channel.dropIn (c : Channel) : Channel := { c with dropped := true }

/-- What `Recv()` answers (47_channel_interface.md R176). -/
def Channel.recv (c : Channel) : RecvAnswer :=
  match c.queue with
  | v :: _ => .value v
  | [] => if c.closed then .eos else .empty

/-- The channel after a `Recv()` that answered a value (47_channel_interface.md R176). -/
def Channel.consume (c : Channel) : Channel := { c with queue := c.queue.tail }

/-! ## The current machine -/

/-- `T` (00_scope.md R8). -/
def State.threshold (s : State) : Nat := s.params.threshold

/-- `N` (00_scope.md R9). -/
def State.size (s : State) : Nat := s.params.size

/-- Machine `k`. -/
def State.instAt (s : State) (k : Nat) : Inst := s.instances.getD k (Inst.fresh 0 0 1)

/-- The machine whose instruction runs. -/
def State.inst (s : State) : Inst := s.instAt s.cur

/-- Channel `i`. -/
def State.chan (s : State) (i : Nat) : Channel := s.channels.getD i Channel.fresh

/-- Replace the current machine. -/
def State.setInst (s : State) (x : Inst) : State := { s with instances := s.instances.set s.cur x }

/-- Apply a channel operation to channel `i`. -/
def State.onChan (s : State) (i : Nat) (f : Channel → Channel) : State :=
  { s with channels := s.channels.modify i f }

/-- Make machine `k` the current one. -/
def State.focus (s : State) (k : Nat) : State := { s with cur := k }

/-! ## The outcome of the phases of a step -/

/-- A cause with its `info` (60_exceptions.md R220). -/
structure Raise where
  cause : Cause
  info  : Int
deriving DecidableEq, Repr

/-- How a phase of the step ends (40_operand_resolution.md R100): with a result, by `raise`, or by `hold`.
The memory is carried along because reads may lengthen the primary region, also in a step that then
faults (20_memory.md R63). -/
inductive Res (α : Type) where
  | ok (a : α) (m : Memory)
  | raise (r : Raise) (m : Memory)
  | hold
deriving Repr

/-- The next phase, with the result and the memory of this one. -/
def Res.bind {α β : Type} (r : Res α) (f : α → Memory → Res β) : Res β :=
  match r with
  | .ok a m => f a m
  | .raise e m => .raise e m
  | .hold => .hold

/-- What an instruction commits (40_operand_resolution.md R100): at most one `MemWrite`, one `rb` update,
one consumed input value, one `Send`, and the next `pc`. -/
structure Effect where
  nextPc  : Nat
  store   : Option (Nat × Int) := none
  rb      : Option Int := none
  consume : Bool := false
  send    : Option Int := none
deriving DecidableEq, Repr

/-- Perform the one `MemWrite`, if there is one. -/
def Memory.store (T : Nat) (m : Memory) : Option (Nat × Int) → Memory
  | none => m
  | some (a, v) => m.write T a v

/-- The current machine after the effect. -/
def Inst.commit (T : Nat) (x : Inst) (e : Effect) (m : Memory) : Inst :=
  { x with mem := m.store T e.store, rb := e.rb.getD x.rb, pc := e.nextPc }

/-- The channels after the effect: the value consumed leaves the input channel, the value sent goes to
the output channel. -/
def State.commitChannels (s : State) (e : Effect) : State :=
  let s := if e.consume then s.onChan s.inst.inp Channel.consume else s
  match e.send with
  | none => s
  | some v => s.onChan s.inst.out (Channel.send · v)

/-- Commit and program counter update (40_operand_resolution.md R110). -/
def State.commit (s : State) (e : Effect) (m : Memory) : State :=
  (s.commitChannels e).setInst (s.inst.commit s.threshold e m)

/-- The release of both endpoints, by `halt` and by a fault: `CloseOut()` on the output channel and
`DropIn()` on the input channel (45_relative_base_and_halt.md R163, 60_exceptions.md R231). -/
def State.release (s : State) : State :=
  (s.onChan s.inst.out Channel.closeOut).onChan s.inst.inp Channel.dropIn

/-- `raise <Cause>(info)` (60_exceptions.md R230, R231): the record with the `pc` and word of the faulting
instruction, status Faulted, both endpoints released; `m` is the memory, equal to the old one at every
address. -/
def State.raise (s : State) (r : Raise) (m : Memory) : State :=
  let x := s.inst
  s.release.setInst
    { x with
      mem := m
      status := .faulted
      fault := some { cause := r.cause, pc := x.pc, word := x.mem.view x.pc, info := r.info } }

/-- The effect of `halt` (45_relative_base_and_halt.md R163): `pc`, `rb` and memory are unchanged. -/
def State.haltInst (s : State) : State := s.release.setInst { s.inst with status := .halted }

/-- The end of the step (40_operand_resolution.md R100): commit, fault, or hold. A hold changes nothing at
all (00_scope.md R14, log 3). -/
def State.finish (s : State) (r : Res Effect) : Host.Outcome State Fault Refusal :=
  match r with
  | .ok e m => .next (s.commit e m)
  | .raise r m => .next (s.raise r m)
  | .hold => .next s

/-! ## Fetch -/

/-- The fault a word that does not decode raises (30_encoding.md R83, 60_exceptions.md R220). -/
def decodeRaise : DecodeError → Raise
  | .unknownOpcode w => { cause := .unknownOpcode, info := w }
  | .illegalMode i => { cause := .illegalMode, info := i }
  | .illegalWriteTarget i => { cause := .illegalWriteTarget, info := i }

/-- The word at the current machine's `pc` (40_operand_resolution.md R100). -/
def State.fetchedWord (s : State) : Int := s.inst.mem.view s.inst.pc

/-- The state after the fetch: the read of the word may lengthen the primary region
(20_memory.md R44, R58). -/
def State.fetch (s : State) : State :=
  s.setInst { s.inst with mem := s.inst.mem.touch s.threshold s.inst.pc }

/-- The codes of the causes (60_exceptions.md R220). -/
def Cause.code : Cause → Nat
  | .unknownOpcode => 1
  | .illegalWriteTarget => 2
  | .inputAfterEndOfStream => 3
  | .negativeAddress => 4
  | .illegalMode => 5
  | .arithmeticOverflow => 6
  | .pcOverflow => 7
  | .missingOutput => 8
  | .parseError => 9

end Sys2Proof.Machine
end

