-- ==== Sys2Proof/Machine/Flags.lean ====
section
/-! DEFINITION. The machine has no flags (10_state.md R24). This file holds what it computes instead of
them: the range check of the arithmetic law (41_arithmetic.md R120), the 0 or 1 of the comparisons
(44_compare.md R150, R151) and the zero test of the jumps (43_jumps.md R142, R143). -/

namespace Sys2Proof.Machine

/-- `checked(v)`: `v` when it lies in `Val`, otherwise `raise ArithmeticOverflow(v)` (00_scope.md R13,
41_arithmetic.md R120). -/
def checked (v : Int) : Except Raise Int :=
  if InVal v then .ok v else .error { cause := .arithmeticOverflow, info := v }

/-- The result of a comparison: exactly 1 or 0 (44_compare.md R152 (c)). -/
def compareResult (b : Bool) : Int := if b then 1 else 0

/-- `a < b` on signed integers (44_compare.md R150, R152 (a)). -/
def lessThanResult (a b : Int) : Int := compareResult (decide (a < b))

/-- `a = b` (44_compare.md R151). -/
def equalsResult (a b : Int) : Int := compareResult (decide (a = b))

/-- The condition of `jump-if-true`: any value but 0 (43_jumps.md R142). -/
def condTrue (c : Int) : Bool := decide (c ≠ 0)

/-- The condition of `jump-if-false`: 0 only (43_jumps.md R143). -/
def condFalse (c : Int) : Bool := decide (c = 0)

end Sys2Proof.Machine
end

