-- ==== Sys2Proof/Machine/Operands.lean ====
section
/-! DEFINITION. The resolution of parameters (40_operand_resolution.md R101 to R106): every addressing
mode, for reading and for writing, and the shared skeleton of each format (30_encoding.md R78). -/

namespace Sys2Proof.Machine

/-- Lift a check into the phases of the step. -/
def Res.ofExcept {α : Type} (r : Except Raise α) (m : Memory) : Res α :=
  match r with
  | .ok a => .ok a m
  | .error e => .raise e m

/-- `raw[i]`, the cell at `pc + 1 + i` before any mode is applied (R102). -/
def Inst.raw (x : Inst) (i : Nat) : Int := x.mem.view (x.pc + 1 + i)

/-- An effective address must not be negative (R104; 20_memory.md R41). -/
def toAddress (a : Int) : Except Raise Nat :=
  if a < 0 then .error { cause := .negativeAddress, info := a } else .ok a.toNat

/-- `EffAddr(i)` (R104): Position, the raw parameter; Relative, the sum `raw + rb`, range checked first.
An Immediate parameter has no effective address. The decoder refuses one that is written (R106), so only
an ill-formed term meets that line (log 19). -/
def Inst.effAddr (x : Inst) (i : Nat) : Mode → Except Raise Nat
  | .position => toAddress (x.raw i)
  | .relative => (checked (x.raw i + x.rb)).bind toAddress
  | .immediate => .error { cause := .illegalWriteTarget, info := i }

/-- `ReadOperand(i)` (R105): Immediate, the raw parameter itself; else the cell at the effective
address. -/
def Inst.readOperand (T : Nat) (x : Inst) (i : Nat) (mode : Mode) (m : Memory) : Res Int :=
  match mode with
  | .immediate => .ok (x.raw i) m
  | mode =>
    match x.effAddr i mode with
    | .ok a => .ok (m.view a) (m.touch T a)
    | .error e => .raise e m

/-- `WriteAddress(i)` (R106): the effective address; the cell is not read. -/
def Inst.writeAddress (x : Inst) (i : Nat) (mode : Mode) (m : Memory) : Res Nat :=
  Res.ofExcept (x.effAddr i mode) m

/-- The parameters and the successor must be addressable, else `PcOverflow(pc)` (R101, 10_state.md R23);
then the raw parameters are read (R102). -/
def Inst.fetchParams (T : Nat) (x : Inst) (n : Nat) : Res Unit :=
  if x.pc + n + 1 ≤ maxAddr then .ok () (x.mem.touchRange T (x.pc + 1) n)
  else .raise { cause := .pcOverflow, info := x.pc } x.mem

/-- Format `F1R`: one read parameter. -/
def Inst.resolveF1R (T : Nat) (x : Inst) (a : Mode) : Res Int :=
  (x.fetchParams T 1).bind fun _ m => x.readOperand T 0 a m

/-- Format `F1W`: one write parameter. -/
def Inst.resolveF1W (T : Nat) (x : Inst) (d : Mode) : Res Nat :=
  (x.fetchParams T 1).bind fun _ m => x.writeAddress 0 d m

/-- Format `F2R`: two read parameters, in index order (R103). -/
def Inst.resolveF2R (T : Nat) (x : Inst) (a b : Mode) : Res (Int × Int) :=
  (x.fetchParams T 2).bind fun _ m =>
    (x.readOperand T 0 a m).bind fun va m =>
      (x.readOperand T 1 b m).bind fun vb m => .ok (va, vb) m

/-- Format `F3`: two read parameters and a destination, in index order (R103). -/
def Inst.resolveF3 (T : Nat) (x : Inst) (a b d : Mode) : Res (Int × Int × Nat) :=
  (x.fetchParams T 3).bind fun _ m =>
    (x.readOperand T 0 a m).bind fun va m =>
      (x.readOperand T 1 b m).bind fun vb m =>
        (x.writeAddress 2 d m).bind fun addr m => .ok (va, vb, addr) m

/-- The execute phase of an `F3` instruction whose result is `compute a b`: one store, `pc + 4`
(R110, 41_arithmetic.md R121). -/
def State.runF3 (s : State) (compute : Int → Int → Except Raise Int) (a b d : Mode) :
    Host.Outcome State Fault Refusal :=
  s.finish <| (s.inst.resolveF3 s.threshold a b d).bind fun r m =>
    (Res.ofExcept (compute r.1 r.2.1) m).bind fun v m =>
      .ok { nextPc := s.inst.pc + 4, store := some (r.2.2, v) } m

/-- The execute phase of a conditional jump taken when `taken cond`: both parameters are resolved either
way (R103); a taken jump to a negative target raises `NegativeAddress` (43_jumps.md R141). -/
def State.runJump (s : State) (taken : Int → Bool) (c t : Mode) : Host.Outcome State Fault Refusal :=
  s.finish <| (s.inst.resolveF2R s.threshold c t).bind fun r m =>
    if taken r.1 then (Res.ofExcept (toAddress r.2) m).bind fun target m => .ok { nextPc := target } m
    else .ok { nextPc := s.inst.pc + 3 } m

end Sys2Proof.Machine
end

