-- ==== Sys2Proof/Machine/Arithmetic.lean ====
section
/-! DEFINITION. `add` and `multiply` (41_arithmetic.md). -/

namespace Sys2Proof.Machine

/-- `add`, opcode 1 (41_arithmetic.md R121). -/
def execAdd (a b dest : Mode) (s : State) : Host.Outcome State Fault Refusal :=
  s.runF3 (fun x y => checked (x + y)) a b dest

/-- `multiply`, opcode 2 (41_arithmetic.md R122). -/
def execMultiply (a b dest : Mode) (s : State) : Host.Outcome State Fault Refusal :=
  s.runF3 (fun x y => checked (x * y)) a b dest

end Sys2Proof.Machine
end

