-- ==== Sys2Proof/Machine/BaseAndHalt.lean ====
section
/-! DEFINITION. `adjust-relative-base` and `halt` (45_relative_base_and_halt.md). -/

namespace Sys2Proof.Machine

/-- `adjust-relative-base`, opcode 9 (45_relative_base_and_halt.md R160); the operand is resolved with the
old `rb`. -/
def execAdjustRelativeBase (a : Mode) (s : State) : Host.Outcome State Fault Refusal :=
  s.finish <| (s.inst.resolveF1R s.threshold a).bind fun v m =>
    (Res.ofExcept (checked (s.inst.rb + v)) m).bind fun r m =>
      .ok { nextPc := s.inst.pc + 2, rb := some r } m

/-- `halt`, opcode 99 (45_relative_base_and_halt.md R163): no parameter, no fault. -/
def execHalt (s : State) : Host.Outcome State Fault Refusal := .next s.haltInst

end Sys2Proof.Machine
end

