-- ==== Sys2Proof/Machine/Compare.lean ====
section
/-! DEFINITION. `less-than` and `equals` (44_compare.md). -/

namespace Sys2Proof.Machine

/-- `less-than`, opcode 7 (44_compare.md R150). -/
def execLessThan (a b dest : Mode) (s : State) : Host.Outcome State Fault Refusal :=
  s.runF3 (fun x y => .ok (lessThanResult x y)) a b dest

/-- `equals`, opcode 8 (44_compare.md R151). -/
def execEquals (a b dest : Mode) (s : State) : Host.Outcome State Fault Refusal :=
  s.runF3 (fun x y => .ok (equalsResult x y)) a b dest

end Sys2Proof.Machine
end

