-- ==== Sys2Proof/Machine/InputOutput.lean ====
section
/-! DEFINITION. `input` and `output` (42_input_output.md). -/

namespace Sys2Proof.Machine

/-- The phases of `input` up to its commit (42_input_output.md R130): the destination is resolved first,
then the channel is looked at. -/
def State.inputPhases (s : State) (dest : Mode) : Res Effect :=
  (s.inst.resolveF1W s.threshold dest).bind fun d m =>
    match (s.chan s.inst.inp).recv with
    | .value v => .ok { nextPc := s.inst.pc + 2, store := some (d, v), consume := true } m
    | .eos => .raise { cause := .inputAfterEndOfStream, info := 0 } m
    | .empty => .hold

/-- `input`, opcode 3 (42_input_output.md R130). -/
def execInput (dest : Mode) (s : State) : Host.Outcome State Fault Refusal :=
  s.finish (s.inputPhases dest)

/-- `output`, opcode 4 (42_input_output.md R132). -/
def execOutput (a : Mode) (s : State) : Host.Outcome State Fault Refusal :=
  s.finish <| (s.inst.resolveF1R s.threshold a).bind fun v m =>
    .ok { nextPc := s.inst.pc + 2, send := some v } m

end Sys2Proof.Machine
end

