-- ==== Sys2Proof/Machine/Jumps.lean ====
section
/-! DEFINITION. `jump-if-true` and `jump-if-false` (43_jumps.md). -/

namespace Sys2Proof.Machine

/-- `jump-if-true`, opcode 5 (43_jumps.md R142). -/
def execJumpIfTrue (cond target : Mode) (s : State) : Host.Outcome State Fault Refusal :=
  s.runJump condTrue cond target

/-- `jump-if-false`, opcode 6 (43_jumps.md R143). -/
def execJumpIfFalse (cond target : Mode) (s : State) : Host.Outcome State Fault Refusal :=
  s.runJump condFalse cond target

end Sys2Proof.Machine
end

