-- ==== Sys2Proof/Machine/Dispatch.lean ====
section
/-! DEFINITION. One arm per instruction: what the current machine's instruction does
(40_operand_resolution.md R100, from the R101 test on). -/

namespace Sys2Proof.Machine

def exec (i : Instr) (s : State) : Host.Outcome State Fault Refusal :=
  match i with
  | .add a b dest => Sys2Proof.Machine.execAdd a b dest s
  | .multiply a b dest => Sys2Proof.Machine.execMultiply a b dest s
  | .input dest => Sys2Proof.Machine.execInput dest s
  | .output a => Sys2Proof.Machine.execOutput a s
  | .jumpIfTrue cond target => Sys2Proof.Machine.execJumpIfTrue cond target s
  | .jumpIfFalse cond target => Sys2Proof.Machine.execJumpIfFalse cond target s
  | .lessThan a b dest => Sys2Proof.Machine.execLessThan a b dest s
  | .equals a b dest => Sys2Proof.Machine.execEquals a b dest s
  | .adjustRelativeBase a => Sys2Proof.Machine.execAdjustRelativeBase a s
  | .halt => Sys2Proof.Machine.execHalt s

end Sys2Proof.Machine
end

