-- ==== Sys2Proof/Machine/Orchestration.lean ====
section
/-! DEFINITION. The relay and the orchestrator's own steps (48_pipeline_orchestrator.md). Channel `N` is
`c_N` in the Linear topology and the tap `t` in the Feedback topology. -/

namespace Sys2Proof.Machine

/-- The channel the last machine sends into: `c_N` or `t` (R193, R200). -/
def State.finalChan (s : State) : Channel := s.chan s.size

/-- The relay has a step: `relay_done` is false and `t` has a value or is closed (R204). -/
def State.relayReady (s : State) : Bool :=
  decide (s.params.topology = .feedback) && !s.relay.done && decide (s.finalChan.recv ≠ .empty)

/-- The relay's step: on a value remember and forward it (R205), on the end of the stream close `c_0`
(R206). -/
def State.relayStep (s : State) : State :=
  match s.finalChan.recv with
  | .value v =>
    { (s.onChan s.size Channel.consume).onChan 0 (Channel.send · v) with
      relay := { s.relay with last := some v, count := s.relay.count + 1 } }
  | .eos => { s.onChan 0 Channel.closeOut with relay := { s.relay with done := true } }
  | .empty => s

/-- Some machine is `Faulted`. -/
def State.anyFaulted (s : State) : Bool := s.instances.any fun x => decide (x.status = .faulted)

/-- Every machine is `Halted`. -/
def State.allHalted (s : State) : Bool := s.instances.all fun x => decide (x.status = .halted)

/-- The completion step is enabled (R208), `done` apart. -/
def State.completeReady (s : State) : Bool :=
  !s.anyFaulted && s.allHalted && (decide (s.params.topology = .linear) || s.relay.done)

/-- The values ever delivered into `c_N`: those the host has taken and those still in the queue (R197,
log 10). -/
def State.collected (s : State) : List Int := s.hostOut ++ s.finalChan.queue

/-- The value of the run: Linear, the last value delivered into `c_N` (R197); Feedback, `last` (R207). -/
def State.runResult (s : State) : Option Int :=
  match s.params.topology with
  | .linear => s.collected.getLast?
  | .feedback => s.relay.last

/-- The completion step (R208); without a value, `MissingOutput` with the name of the last machine
(R210). -/
def State.completeStep (s : State) : State :=
  match s.runResult with
  | some v => { s with orch := { s.orch with result := some v, done := true } }
  | none =>
    { s with
      orch :=
        { done := true
          aborted := true
          result := none
          fault := some { cause := .missingOutput, name := (s.instAt (s.size - 1)).name } } }

/-- The abort step (R209). -/
def State.abortStep (s : State) : State :=
  { s with orch := { s.orch with aborted := true, result := none, done := true } }

/-- The orchestrator has a step: abort as soon as some machine is `Faulted` (R209), or completion (R208). -/
def State.orchestratorReady (s : State) : Bool := s.anyFaulted || s.completeReady

/-- The orchestrator's step. -/
def State.orchestratorStep (s : State) : State :=
  if s.anyFaulted then s.abortStep else s.completeStep

end Sys2Proof.Machine
end

