-- ==== Sys2Proof/Machine/HostPorts.lean ====
section
/-! DEFINITION. The host's transactions on the ports of 10_state.md R37: LOAD, which is reset
(70_reset_and_hazards.md R250), HOST_IN, HOST_OUT, and the view STATUS (log 11). -/

namespace Sys2Proof.Machine

/-- The parameters a LOAD may have: `N >= 1`, one name each, every number in `Val`, the image inside the
address space (00_scope.md R9, R10; 60_exceptions.md R227); a host-fed run is Linear with `N = 1`
(70_reset_and_hazards.md R253). -/
def Params.ok (p : Params) : Bool :=
  decide (1 ≤ p.size) && decide (p.names.length = p.size) &&
  decide (p.image.length ≤ maxAddr + 1) &&
  (p.image.all fun v => decide (InVal v)) && (p.phase.all fun v => decide (InVal v)) &&
  decide (InVal p.seed) &&
  match p.feed with
  | .seeded => true
  | .hostFed q _ => decide (p.topology = .linear) && decide (p.size = 1) && q.all fun v => decide (InVal v)

/-- The channels of a run with their seeds (48_pipeline_orchestrator.md R196, R202;
70_reset_and_hazards.md R253). -/
def Params.channels (p : Params) : List Channel :=
  match p.feed, p.phase with
  | .hostFed q c, _ => [{ queue := q, closed := c, dropped := false }, Channel.fresh]
  | .seeded, [] => [Channel.fresh]
  | .seeded, ph :: rest =>
    { queue := [ph, p.seed], closed := decide (p.topology = .linear), dropped := false } ::
      (rest.map fun v => { queue := [v], closed := false, dropped := false }) ++ [Channel.fresh]

/-- Machine `k` after LOAD: its own copy of the image, `in = c_k` and `out` the next channel
(48_pipeline_orchestrator.md R191, R193, R200; 70_reset_and_hazards.md R251). -/
def Params.buildInst (p : Params) (k : Nat) : Inst :=
  { Inst.fresh (p.names.getD k 0) k (k + 1) with mem := Memory.load p.threshold p.image }

/-- LOAD (70_reset_and_hazards.md R250): everything of the previous run is discarded and built anew. The
host's own pending transactions and the schedule are no part of the block and stay (log 22). -/
def State.load (s : State) (p : Params) : State where
  params    := p
  instances := (List.range p.size).map p.buildInst
  channels  := p.channels
  relay     := .fresh
  orch      := .fresh
  hostTx    := s.hostTx
  hostOut   := []
  schedule  := s.schedule
  turn      := 0
  cur       := 0

/-- HOST_IN exists: a single machine run outside a pipeline (10_state.md R37). -/
def State.hasHostIn (s : State) : Bool :=
  match s.params.feed with
  | .seeded => false
  | .hostFed _ _ => true

/-- HOST_OUT exists: the consumer of the final channel is the host (48_pipeline_orchestrator.md R193); in
the Feedback topology it is the relay (R200). -/
def State.hasHostOut (s : State) : Bool := decide (s.params.topology = .linear)

/-- The host's next transaction can be performed now: all can but a `Recv` on an empty, open channel,
which waits (47_channel_interface.md R176). -/
def State.hostReady (s : State) : Bool :=
  match s.hostTx with
  | [] => false
  | .recvOut :: _ => !s.hasHostOut || s.finalChan.dropped || decide (s.finalChan.recv ≠ .empty)
  | .load _ :: _ => true
  | .send _ :: _ => true
  | .closeIn :: _ => true
  | .dropOut :: _ => true

/-- `Send(v)` on HOST_IN (47_channel_interface.md R174, R179; 42_input_output.md R134). -/
def State.hostSend (s : State) (v : Int) : Host.Outcome State Fault Refusal :=
  if !s.hasHostIn then .refused .hostPortAbsent
  else if ¬ InVal v then .refused .hostValueOutsideVal
  else if (s.chan 0).closed then .refused .hostSendAfterClose
  else .next (s.onChan 0 (Channel.send · v))

/-- `CloseOut()` on HOST_IN (47_channel_interface.md R175). -/
def State.hostClose (s : State) : Host.Outcome State Fault Refusal :=
  if !s.hasHostIn then .refused .hostPortAbsent else .next (s.onChan 0 Channel.closeOut)

/-- `Recv()` on HOST_OUT (47_channel_interface.md R176): a value is taken from the queue, the end of the
stream changes nothing. -/
def State.hostRecv (s : State) : Host.Outcome State Fault Refusal :=
  if !s.hasHostOut then .refused .hostPortAbsent
  else if s.finalChan.dropped then .refused .hostRecvAfterDrop
  else
    match s.finalChan.recv with
    | .value v => .next { s.onChan s.size Channel.consume with hostOut := s.hostOut ++ [v] }
    | .eos => .next s
    | .empty => .next s

/-- `DropIn()` on HOST_OUT (47_channel_interface.md R177). -/
def State.hostDrop (s : State) : Host.Outcome State Fault Refusal :=
  if !s.hasHostOut then .refused .hostPortAbsent else .next (s.onChan s.size Channel.dropIn)

/-- The host's LOAD, refused when its parameters are not allowed. -/
def State.hostLoad (s : State) (p : Params) : Host.Outcome State Fault Refusal :=
  if p.ok then .next (s.load p) else .refused .loadIllFormed

/-- One transaction of the host, taken from its list. -/
def State.hostStep (s : State) : Host.Outcome State Fault Refusal :=
  match s.hostTx with
  | [] => .next s
  | .load p :: rest => { s with hostTx := rest }.hostLoad p
  | .send v :: rest => { s with hostTx := rest }.hostSend v
  | .closeIn :: rest => { s with hostTx := rest }.hostClose
  | .recvOut :: rest => { s with hostTx := rest }.hostRecv
  | .dropOut :: rest => { s with hostTx := rest }.hostDrop

/-- What port STATUS presents of one machine: its name, status and fault (10_state.md R37, 60_exceptions.md
R232), and its registers and memory (60_exceptions.md R241; 93_implementation_defined.md U19). -/
structure MachineView where
  name   : Label
  status : Status
  fault  : Option FaultRecord
  pc     : Nat
  rb     : Int
  /-- The cells that are not 0, addresses rising; every other cell is 0. The hidden tiers are not shown. -/
  cells  : List (Nat × Int)
deriving DecidableEq, Repr

/-- The machine as STATUS presents it. -/
def Inst.present (x : Inst) : MachineView where
  name := x.name
  status := x.status
  fault := x.fault
  pc := x.pc
  rb := x.rb
  cells := x.mem.cells

/-- The host's read of a cell through STATUS. -/
def MachineView.cell (v : MachineView) (a : Nat) : Int := look v.cells a

/-- What port STATUS presents (10_state.md R37, 48_pipeline_orchestrator.md R208), with the record of a
missing output (48_pipeline_orchestrator.md R210, log 25). -/
structure StatusView where
  done     : Bool
  aborted  : Bool
  result   : Option Int
  runFault : Option RunFault
  machines : List MachineView
deriving DecidableEq, Repr

/-- Port STATUS. -/
def State.statusPort (s : State) : StatusView where
  done := s.orch.done
  aborted := s.orch.aborted
  result := s.orch.result
  runFault := s.orch.fault
  machines := s.instances.map Inst.present

/-- The one report of a run with faults: the faulted machine of lowest index (60_exceptions.md R229). -/
def State.faultReport (s : State) : Option (Label × FaultRecord) :=
  s.instances.findSome? fun x => x.fault.map fun f => (x.name, f)

end Sys2Proof.Machine
end

