-- ==== Sys2Proof/Machine/Schedule.lean ====
section
/-! DEFINITION. Who has a step (00_scope.md R14, R15) and who takes the next one (92_eei_decisions.md D30,
log 2). -/

namespace Sys2Proof.Machine

/-- Machine `k` is held: its word decodes to `input`, its destination resolves, and its input channel is
empty and open (00_scope.md R14, 42_input_output.md R130, log 13). -/
def State.held (s : State) (k : Nat) : Bool :=
  match decodeWord (s.focus k).fetchedWord with
  | .ok (.input dest) =>
    match (s.focus k).inputPhases dest with
    | .hold => true
    | .ok _ _ => false
    | .raise _ _ => false
  | _ => false

/-- Machine `k` has a step: it exists, is `Running` and is not held (40_operand_resolution.md R100). -/
def State.instReady (s : State) (k : Nat) : Bool :=
  decide (k < s.instances.length) && decide ((s.instAt k).status = .running) && !s.held k

/-- The agent has a step. After `done` no agent of the run steps again (48_pipeline_orchestrator.md
R208); the host may still use its ports. -/
def State.ready (s : State) : Agent → Bool
  | .inst k => !s.orch.done && s.instReady k
  | .relay => !s.orch.done && s.relayReady
  | .orchestrator => !s.orch.done && s.orchestratorReady
  | .host => s.hostReady

/-- Every agent, in round-robin order. -/
def State.agents (s : State) : List Agent :=
  (List.range s.size).map Agent.inst ++ [.relay, .orchestrator, .host]

/-- The place after an agent's in the round robin. -/
def State.turnAfter (s : State) : Agent → Nat
  | .inst k => k + 1
  | .relay => s.size + 1
  | .orchestrator => s.size + 2
  | .host => 0

/-- The agents in round-robin order from `turn` on. -/
def State.rotation (s : State) : List Agent := s.agents.drop s.turn ++ s.agents.take s.turn

/-- The first agent of the schedule that has a step, and the choices after it; those before it had none and
are skipped (48_pipeline_orchestrator.md R201: "A held instance is skipped, not waited on"). -/
def State.pickScheduled (s : State) : List Agent → Option (Agent × List Agent)
  | [] => none
  | ag :: rest => if s.ready ag then some (ag, rest) else s.pickScheduled rest

/-- The agent that takes the next step, and the schedule that is left: the schedule's choice, and once it
is used up the first agent of the round robin that has a step (D30, log 2). -/
def State.choose (s : State) : Option (Agent × List Agent) :=
  match s.pickScheduled s.schedule with
  | some c => some c
  | none => (s.rotation.find? s.ready).map fun ag => (ag, [])

/-- The state in which the chosen agent steps: the model's own fields are moved on. -/
def State.advance (s : State) (ag : Agent) (rest : List Agent) : State :=
  { s with schedule := rest, turn := s.turnAfter ag }

end Sys2Proof.Machine
end

