-- ==== Sys2Proof/Machine/Step.lean ====
section
/-! DEFINITION. One step of the block: the chosen agent's one atomic step (00_scope.md R15). -/

namespace Sys2Proof.Machine

/-- One step of the current machine (40_operand_resolution.md R100): fetch, decode, and either the fault of
a word that does not decode or the instruction. -/
def stepInst (s : State) : Host.Outcome State Fault Refusal :=
  match decodeWord s.fetchedWord with
  | .error e => .next (s.fetch.raise (decodeRaise e) s.fetch.inst.mem)
  | .ok i => exec i s.fetch

/-- The step of an agent that has one. -/
def runAgent (ag : Agent) (s : State) : Host.Outcome State Fault Refusal :=
  match ag with
  | .inst k => stepInst (s.focus k)
  | .relay => .next s.relayStep
  | .orchestrator => .next s.orchestratorStep
  | .host => s.hostStep

/-- One step of the block. Without an agent that has a step the run is over or stuck (log 4, log 5). -/
def step (s : State) : Host.Outcome State Fault Refusal :=
  match s.choose with
  | some (ag, rest) => runAgent ag (s.advance ag rest)
  | none => .fault (if s.orch.done then .runOver else .stuck)

/-- `s` with the instruction whose bits are `w` stored at the current machine's `pc`, and that machine made
the one that takes the next step: it is `Running`, the run is not over, and the schedule names it first
(log 7). -/
def State.withFetchWord (s : State) (nbits w : Nat) : State :=
  let x := s.inst
  let cells := ((List.range 4).map (cellOfTableWord nbits w)).take (maxAddr + 1 - x.pc)
  { s.setInst
      { x with mem := x.mem.writeList s.threshold x.pc cells, status := .running, fault := none } with
    orch := { s.orch with done := false }
    schedule := .inst s.cur :: s.schedule }

end Sys2Proof.Machine
end

