-- ==== Sys2Proof/Safety.lean ====
section
/-! DEFINITION. The terms claims are stated in: the operands of an instruction as 40_operand_resolution.md
gives them, what a step leaves alone, what a fault does, the invariants of 10_state.md R39, and the
program-visible part of a state. None of them is used by the machine. -/

namespace Sys2Proof.Machine

/-! ## Operands -/

/-- The instruction's `n` parameters and its successor are addressable (R101). -/
def Inst.Fits (x : Inst) (n : Nat) : Prop := x.pc + n + 1 ≤ maxAddr

/-- The sum a Relative parameter names (R104). -/
def Inst.relSum (x : Inst) (i : Nat) : Int := x.mem.view (x.pc + 1 + i) + x.rb

/-- Read parameter `i` resolves without a fault (R104, R105). -/
def Inst.ReadOk (x : Inst) (i : Nat) : Mode → Prop
  | .position => 0 ≤ x.mem.view (x.pc + 1 + i)
  | .immediate => True
  | .relative => 0 ≤ x.relSum i ∧ x.relSum i ≤ maxV

/-- The value of read parameter `i` (R105). -/
def Inst.operand (x : Inst) (i : Nat) : Mode → Int
  | .position => x.mem.view (x.mem.view (x.pc + 1 + i)).toNat
  | .immediate => x.mem.view (x.pc + 1 + i)
  | .relative => x.mem.view (x.relSum i).toNat

/-- Write parameter `i` resolves without a fault (R106); an Immediate one never does (R77). -/
def Inst.DestOk (x : Inst) (i : Nat) : Mode → Prop
  | .position => 0 ≤ x.mem.view (x.pc + 1 + i)
  | .immediate => False
  | .relative => 0 ≤ x.relSum i ∧ x.relSum i ≤ maxV

/-- The address of write parameter `i` (R104, R106). -/
def Inst.dest (x : Inst) (i : Nat) : Mode → Nat
  | .position => (x.mem.view (x.pc + 1 + i)).toNat
  | .immediate => 0
  | .relative => (x.relSum i).toNat

/-- The fault of an address that must not be negative (R104). -/
def negativeFault (a : Int) : Option (Cause × Int) := if a < 0 then some (.negativeAddress, a) else none

/-- The fault of a Relative sum: out of `Val` first, then negative (R104, R107 (d)). -/
def sumFault (a : Int) : Option (Cause × Int) :=
  if InVal a then negativeFault a else some (.arithmeticOverflow, a)

/-- The fault the resolution of read parameter `i` raises, if any (R104, R105). -/
def Inst.readFault (x : Inst) (i : Nat) : Mode → Option (Cause × Int)
  | .position => negativeFault (x.mem.view (x.pc + 1 + i))
  | .immediate => none
  | .relative => sumFault (x.relSum i)

/-- The fault the resolution of write parameter `i` raises, if any (R104, R106; Immediate: log 19). -/
def Inst.destFault (x : Inst) (i : Nat) : Mode → Option (Cause × Int)
  | .position => negativeFault (x.mem.view (x.pc + 1 + i))
  | .immediate => some (.illegalWriteTarget, i)
  | .relative => sumFault (x.relSum i)

/-- The faults of an instruction's parameters, in index order (R103, R226): read parameters, then the
destination where there is one. -/
def Inst.paramFaults (x : Inst) : Instr → List (Option (Cause × Int))
  | .add a b dest => [x.readFault 0 a, x.readFault 1 b, x.destFault 2 dest]
  | .multiply a b dest => [x.readFault 0 a, x.readFault 1 b, x.destFault 2 dest]
  | .input dest => [x.destFault 0 dest]
  | .output a => [x.readFault 0 a]
  | .jumpIfTrue cond target => [x.readFault 0 cond, x.readFault 1 target]
  | .jumpIfFalse cond target => [x.readFault 0 cond, x.readFault 1 target]
  | .lessThan a b dest => [x.readFault 0 a, x.readFault 1 b, x.destFault 2 dest]
  | .equals a b dest => [x.readFault 0 a, x.readFault 1 b, x.destFault 2 dest]
  | .adjustRelativeBase a => [x.readFault 0 a]
  | .halt => []

/-- The first of them (R103: "The first resolution that faults ends the step"). -/
def Inst.firstFault (x : Inst) (i : Instr) : Option (Cause × Int) := (x.paramFaults i).findSome? id

/-! ## What a step of one machine leaves alone -/

/-- The current machine exists and its endpoints are bound to two different channels of the run. -/
def State.Wired (s : State) : Prop :=
  s.cur < s.instances.length ∧ s.inst.inp < s.channels.length ∧ s.inst.out < s.channels.length ∧
    s.inst.inp ≠ s.inst.out

/-- Everything but the current machine and the channels is as before. -/
def SameElse (s t : State) : Prop :=
  t.params = s.params ∧ t.relay = s.relay ∧ t.orch = s.orch ∧ t.hostTx = s.hostTx ∧
    t.hostOut = s.hostOut ∧ t.schedule = s.schedule ∧ t.turn = s.turn ∧ t.cur = s.cur ∧
    t.instances.length = s.instances.length ∧
    ∀ k, k ≠ s.cur → t.instances[k]? = s.instances[k]?

/-- Of the current machine only `pc`, to this value, and memory may have changed. -/
def MovesTo (s t : State) (pc : Nat) : Prop :=
  t.inst = { s.inst with pc := pc, mem := t.inst.mem }

/-- Every cell of the current machine reads as before. -/
def SameMemory (s t : State) : Prop := ∀ a, t.inst.mem.view a = s.inst.mem.view a

/-- The cell at `d` holds `v` and every other cell reads as before. -/
def StoresOnly (s t : State) (d : Nat) (v : Int) : Prop :=
  ∀ a, t.inst.mem.view a = if a = d then v else s.inst.mem.view a

/-- Every channel but `i` is as before. -/
def OnlyChannel (s t : State) (i : Nat) : Prop :=
  t.channels.length = s.channels.length ∧ ∀ j, j ≠ i → t.channels[j]? = s.channels[j]?

/-- What a transaction of the host leaves alone, LOAD apart: it leaves the host's list and the schedule as
given, and touches no machine, parameter, relay or orchestrator field. -/
def HostFrame (s t : State) (tx : List HostTx) (rest : List Agent) : Prop :=
  t.hostTx = tx ∧ t.schedule = rest ∧ t.params = s.params ∧ t.instances = s.instances ∧
    t.relay = s.relay ∧ t.orch = s.orch

/-- Both endpoints of the current machine are released and every other channel is as before
(45_relative_base_and_halt.md R163, 60_exceptions.md R231). -/
def Released (s t : State) : Prop :=
  t.chan s.inst.out = { s.chan s.inst.out with closed := true } ∧
    t.chan s.inst.inp = { s.chan s.inst.inp with dropped := true } ∧
    t.channels.length = s.channels.length ∧
    ∀ j, j ≠ s.inst.out → j ≠ s.inst.inp → t.channels[j]? = s.channels[j]?

/-- The current machine has raised `cause(info)`: status, record and released channels, and nothing else
(60_exceptions.md R230, R231). -/
def FaultedWith (s t : State) (cause : Cause) (info : Int) : Prop :=
  t.inst =
      { s.inst with
        status := .faulted
        fault := some { cause := cause, pc := s.inst.pc, word := s.inst.mem.view s.inst.pc, info := info }
        mem := t.inst.mem } ∧
    SameMemory s t ∧ Released s t ∧ SameElse s t

/-- Machine `k` waits at an `input` that has room and whose destination resolves, on an empty, open channel
(00_scope.md R14, 42_input_output.md R130, log 13). -/
def State.WaitsForInput (s : State) (k : Nat) : Prop :=
  ∃ dest, decodeWord ((s.instAt k).mem.view (s.instAt k).pc) = .ok (.input dest) ∧
    (s.instAt k).Fits 1 ∧ (s.instAt k).DestOk 0 dest ∧
    (s.chan (s.instAt k).inp).queue = [] ∧ (s.chan (s.instAt k).inp).closed = false

/-! ## Invariants (10_state.md R39) -/

/-- R39 (a), (b), (c), (d) for one machine under threshold `T`, with the canonical form of its memory. -/
def Inst.Inv (T : Nat) (x : Inst) : Prop :=
  x.pc ≤ maxAddr ∧ InVal x.rb ∧ x.mem.wf = true ∧ x.mem.tiersOk T = true ∧
    (x.status = .faulted ↔ x.fault.isSome = true)

/-- The shape of a run: `N` machines, `N + 1` channels, machine `k` bound to channels `k` and `k + 1`
(48_pipeline_orchestrator.md R192, R193, R199, R200). -/
def State.Shape (s : State) : Prop :=
  s.instances.length = s.size ∧ s.channels.length = s.size + 1 ∧ s.cur < s.size ∧
    ∀ k, k < s.instances.length → (s.instAt k).inp = k ∧ (s.instAt k).out = k + 1

/-- R39 (b) for the channels, the relay, the orchestrator and what the host holds. -/
def State.ValuesOk (s : State) : Prop :=
  (∀ c ∈ s.channels, ∀ v ∈ c.queue, InVal v) ∧ (∀ v ∈ s.relay.last, InVal v) ∧
    (∀ v ∈ s.orch.result, InVal v) ∧ ∀ v ∈ s.hostOut, InVal v

/-- R39 (e), both ways: a machine's output channel is closed and its input channel dropped exactly when it
has ended; and in the Feedback topology `c_0` is closed exactly when the relay has finished
(48_pipeline_orchestrator.md R206). -/
def State.EndsOk (s : State) : Prop :=
  (∀ k, k < s.instances.length →
      ((s.instAt k).status = .running ↔ (s.chan (k + 1)).closed = false) ∧
      ((s.instAt k).status = .running ↔ (s.chan k).dropped = false)) ∧
    (s.params.topology = .feedback → ((s.chan 0).closed = true ↔ s.relay.done = true))

/-- The invariant every step keeps: LOAD's parameters are legal, the run has its shape, and R39 (a) to (e)
hold. -/
def State.Inv (s : State) : Prop :=
  s.params.ok = true ∧ s.Shape ∧ (∀ x ∈ s.instances, x.Inv s.threshold) ∧ s.ValuesOk ∧ s.EndsOk

/-- The agent that takes the next step is not the host, so the step is one of the run's own. -/
def State.RunStep (s : State) : Prop := ∃ ag rest, s.choose = some (ag, rest) ∧ ag ≠ .host

/-! ## What a program, a channel or the host can observe (20_memory.md R49) -/

/-- A controller without its hidden fields. -/
def Memory.visible (m : Memory) : Memory := { m with plen := 0, ovfKeys := [] }

/-- A machine without the hidden fields of its memory. -/
def Inst.visible (x : Inst) : Inst := { x with mem := x.mem.visible }

/-- The parameters without `T`. -/
def Params.visible (p : Params) : Params := { p with threshold := 0 }

/-- A transaction without `T`. -/
def HostTx.visible : HostTx → HostTx
  | .load p => .load p.visible
  | .send v => .send v
  | .closeIn => .closeIn
  | .recvOut => .recvOut
  | .dropOut => .dropOut

/-- The state without `T` and the hidden fields of the controllers (10_state.md R31). -/
def State.visible (s : State) : State :=
  { s with
    params := s.params.visible
    instances := s.instances.map Inst.visible
    hostTx := s.hostTx.map HostTx.visible }

/-- The outcome of a step, next states without hidden fields. -/
def visibleOutcome : Host.Outcome State Fault Refusal → Host.Outcome State Fault Refusal
  | .next s => .next s.visible
  | .fault f => .fault f
  | .refused r => .refused r

/-- A channel without what nothing can observe: the queue once the consumer has dropped
(47_channel_interface.md R177, U18). -/
def Channel.observable (c : Channel) : Channel := if c.dropped then { c with queue := [] } else c

/-- The state without the model's own fields and the queues of dropped channels. -/
def State.observable (s : State) : State :=
  { s with channels := s.channels.map Channel.observable, schedule := [], turn := 0, cur := 0 }

/-! ## The opcode table and the controller, a second time -/

/-- The roles of an opcode's parameters, `true` for a write parameter (30_encoding.md R80). -/
def paramRoles : Nat → List Bool
  | 1 => [false, false, true]
  | 2 => [false, false, true]
  | 3 => [true]
  | 4 => [false]
  | 5 => [false, false]
  | 6 => [false, false]
  | 7 => [false, false, true]
  | 8 => [false, false, true]
  | 9 => [false]
  | _ => []

/-- The digits a parameter may have: 0, 1, 2 for reading, 0 and 2 for writing (R75, R77). -/
def digitLegal (write : Bool) (d : Nat) : Prop := d ≤ 2 ∧ (write = true → d ≠ 1)

/-- The two tiers as 10_state.md R31 declares them: a growable sequence and a finite map. -/
structure Tiers where
  primary : List Int
  ovf     : List (Nat × Int)
deriving DecidableEq, Repr

/-- "auto-extends (filling new cells with 0)" to exactly `a + 1` (20_memory.md R44, R46). -/
def Tiers.grow (t : Tiers) (a : Nat) : Tiers :=
  if t.primary.length ≤ a then
    { t with primary := t.primary ++ List.replicate (a + 1 - t.primary.length) 0 }
  else t

/-- `MemRead(a, 1)` as 20_memory.md R44 writes it. -/
def Tiers.read (T : Nat) (t : Tiers) (a : Nat) : Int × Tiers :=
  if a < T then ((t.grow a).primary.getD a 0, t.grow a) else ((t.ovf.lookup a).getD 0, t)

/-- `MemWrite(a, 1, v)` as 20_memory.md R45 writes it; `ovf` is kept with rising keys. -/
def Tiers.write (T : Nat) (t : Tiers) (a : Nat) (v : Int) : Tiers :=
  if a < T then { t.grow a with primary := (t.grow a).primary.set a v }
  else { t with ovf := insertCell t.ovf a v }

/-- One access to the controller: a write of the value, or a read. -/
def Memory.access (T : Nat) (m : Memory) : Nat × Option Int → Memory
  | (a, some v) => m.write T a v
  | (a, none) => (m.read T a).2

/-- The tiers a controller stands for. -/
def Memory.tiers (m : Memory) : Tiers := { primary := m.primary, ovf := m.ovf }

end Sys2Proof.Machine
end

