-- ==== Sys2Proof/Certificates/Slice0/Obligations.lean ====
section
/-! DEFINITION. The statements for the provers, in the terms of Safety.lean. -/

open Sys2Proof Sys2Proof.Machine

/-! ## Encoding (30_encoding.md) -/

/-- R71, R73, R76, R77, R86: a word decodes to an instruction exactly when the instruction is well formed and
the word is its canonical word plus any unconsumed digits above it. -/
def Obligations.DecodeAcceptsExactlyTheEncodings : Prop :=
  ∀ (w : Int) (i : Instr),
    decodeWord w = .ok i ↔
      i.wellFormed = true ∧ ∃ k : Nat, w = encode i + ((k * 10 ^ (i.width + 1) : Nat) : Int)

/-- R89: the words that occur in the source, and the three-digit form of program P3. -/
def Obligations.SourceWordsDecode : Prop :=
  decodeWord 1 = .ok (.add .position .position .position) ∧
    decodeWord 3 = .ok (.input .position) ∧
    decodeWord 4 = .ok (.output .position) ∧
    decodeWord 99 = .ok .halt ∧
    decodeWord 109 = .ok (.adjustRelativeBase .immediate) ∧
    decodeWord 204 = .ok (.output .relative) ∧
    decodeWord 1001 = .ok (.add .position .immediate .position) ∧
    decodeWord 1002 = .ok (.multiply .position .immediate .position) ∧
    decodeWord 1005 = .ok (.jumpIfTrue .position .immediate) ∧
    decodeWord 1006 = .ok (.jumpIfFalse .position .immediate) ∧
    decodeWord 1008 = .ok (.equals .position .immediate .position) ∧
    decodeWord 1102 = .ok (.multiply .immediate .immediate .position) ∧
    decodeWord 22207 = .ok (.lessThan .relative .relative .relative)

/-- R72, R81: exactly the negative words and those whose opcode is 0 or 10 to 98 are unknown opcodes, and the
error carries the whole word (R221). -/
def Obligations.UnknownOpcodesExactly : Prop :=
  ∀ w : Int,
    ((∃ v, decodeWord w = .error (.unknownOpcode v)) ↔
        w < 0 ∨ w % 100 = 0 ∨ (10 ≤ w % 100 ∧ w % 100 ≤ 98)) ∧
      ∀ v, decodeWord w = .error (.unknownOpcode v) → v = w

/-- R75, R77, R83: which mode digits are refused, and that the lowest bad parameter is reported. -/
def Obligations.BadModeDigitsLowestIndexFirst : Prop :=
  ∀ (w i : Nat),
    (decodeWord w = .error (.illegalMode i) ↔
        (∃ write, (paramRoles (w % 100))[i]? = some write) ∧ 3 ≤ modeDigit w i ∧
          ∀ j write, j < i → (paramRoles (w % 100))[j]? = some write → digitLegal write (modeDigit w j)) ∧
      (decodeWord w = .error (.illegalWriteTarget i) ↔
        (paramRoles (w % 100))[i]? = some true ∧ modeDigit w i = 1 ∧
          ∀ j write, j < i → (paramRoles (w % 100))[j]? = some write → digitLegal write (modeDigit w j))

/-- R82: any non-negative word whose last two digits are 99 halts, whatever its mode digits. -/
def Obligations.HaltIgnoresModeDigits : Prop :=
  ∀ w : Int, 0 ≤ w → w % 100 = 99 → decodeWord w = .ok .halt

/-! ## The step (40_operand_resolution.md R100) -/

/-- R100: where the chosen machine's word decodes, the step is `exec` of that instruction, in the state in
which the word has been read (the primary region may have grown), the machine is the current one, and the
model's schedule has moved on; nothing else differs. -/
def Obligations.StepRunsDecodedInstruction : Prop :=
  ∀ (s : State) (k : Nat) (rest : List Agent) (i : Instr),
    s.choose = some (.inst k, rest) →
    decodeWord ((s.instAt k).mem.view (s.instAt k).pc) = .ok i →
    ∃ u, step s = exec i u ∧ u.cur = k ∧ u.schedule = rest ∧ u.turn = k + 1 ∧
      u.instances =
        s.instances.set k
          { s.instAt k with mem := (s.instAt k).mem.touch s.params.threshold (s.instAt k).pc } ∧
      u.channels = s.channels ∧ u.params = s.params ∧ u.relay = s.relay ∧ u.orch = s.orch ∧
      u.hostTx = s.hostTx ∧ u.hostOut = s.hostOut

/-- R221, R222, R225, R230, R231: a word that does not decode faults the machine with the decoder's cause,
record, released channels, and nothing else. -/
def Obligations.StepFaultsOnUndecodableWord : Prop :=
  ∀ (s u : State) (k : Nat) (rest : List Agent),
    s.choose = some (.inst k, rest) → u = (s.advance (.inst k) rest).focus k → u.Wired →
    (∀ w, decodeWord u.fetchedWord = .error (.unknownOpcode w) →
      ∃ t, step s = .next t ∧ FaultedWith u t .unknownOpcode w) ∧
    (∀ i, decodeWord u.fetchedWord = .error (.illegalMode i) →
      ∃ t, step s = .next t ∧ FaultedWith u t .illegalMode i) ∧
    (∀ i, decodeWord u.fetchedWord = .error (.illegalWriteTarget i) →
      ∃ t, step s = .next t ∧ FaultedWith u t .illegalWriteTarget i)

/-- R72: a step whose fetched word is negative raises `UnknownOpcode(word)`. -/
def Obligations.NegativeWordFaults : Prop :=
  ∀ (s u : State) (k : Nat) (rest : List Agent),
    s.choose = some (.inst k, rest) → u = (s.advance (.inst k) rest).focus k → u.Wired →
    u.fetchedWord < 0 →
    ∃ t, step s = .next t ∧ FaultedWith u t .unknownOpcode u.fetchedWord

/-- R257: the empty image faults with `UnknownOpcode(0)` at `pc = 0`, and the one-cell image `99` ends
normally. -/
def Obligations.ShortestImages : Prop :=
  ∀ (s : State) (p : Params), p.ok = true → s.schedule = [] →
    (p.image = [] →
      ∃ t, step (s.load p) = .next t ∧ (t.instAt 0).status = .faulted ∧
        (t.instAt 0).fault = some { cause := .unknownOpcode, pc := 0, word := 0, info := 0 }) ∧
    (p.image = [99] →
      ∃ t, step (s.load p) = .next t ∧ (t.instAt 0).status = .halted ∧ (t.instAt 0).fault = none)

/-- R15, R201: the agent that steps has a step, and the schedule's choices before it had none and are
skipped; once the schedule is used up nothing of it is left. -/
def Obligations.ChosenAgentHasStep : Prop :=
  ∀ (s : State) (ag : Agent) (rest : List Agent), s.choose = some (ag, rest) →
    s.ready ag = true ∧
      ((∃ skipped, s.schedule = skipped ++ ag :: rest ∧ ∀ a ∈ skipped, s.ready a = false) ∨
        (rest = [] ∧ ∀ a ∈ s.schedule, s.ready a = false))

/-- R211, R262: under the invariant a step stops exactly when no agent has a step: `runOver` once `done` is
true, else `stuck`. -/
def Obligations.StepStopsExactlyWhenNobodyCanStep : Prop :=
  ∀ s : State, s.Inv →
    ((∃ f, step s = .fault f) ↔ ∀ ag, s.ready ag = false) ∧
      ∀ f, step s = .fault f → f = if s.orch.done = true then .runOver else .stuck

/-- R263, D30: once the schedule is used up and while the host has nothing to do, the round robin steps an
agent that keeps having a step within `N + 3` steps. -/
def Obligations.RoundRobinReachesEveryReadyAgent : Prop :=
  ∀ (tr : Nat → State) (ag : Agent),
    (tr 0).Inv → (tr 0).schedule = [] → (tr 0).hostTx = [] → (tr 0).turn ≤ (tr 0).size + 2 →
    (∀ j, j < (tr 0).size + 3 → step (tr j) = .next (tr (j + 1))) →
    (∀ j, j < (tr 0).size + 3 → (tr j).ready ag = true) →
    ∃ j, j < (tr 0).size + 3 ∧ (tr j).choose = some (ag, [])

/-- Every instruction answers a next state in every state: a completed effect, the entry of a fault, or a
hold. None of them ends in a fault or refusal of the model. -/
def Obligations.EveryInstructionAnswersNext : Prop := ∀ (i : Instr) (s : State), ∃ t, exec i s = .next t

/-! ## Resolution (40_operand_resolution.md R101 to R108) -/

/-- R104: the effective address of a Position or Relative parameter, and its two faults, the range of the sum
before its sign. -/
def Obligations.EffectiveAddresses : Prop :=
  ∀ (x : Inst) (i : Nat) (raw : Int), raw = x.mem.view (x.pc + 1 + i) →
    x.effAddr i .position =
        (if raw < 0 then .error { cause := .negativeAddress, info := raw } else .ok raw.toNat) ∧
      x.effAddr i .relative =
        (if raw + x.rb < minV ∨ maxV < raw + x.rb then
          .error { cause := .arithmeticOverflow, info := raw + x.rb }
        else if raw + x.rb < 0 then .error { cause := .negativeAddress, info := raw + x.rb }
        else .ok (raw + x.rb).toNat)

/-- R101: an instruction with parameters whose successor lies above `MAXV` raises `PcOverflow(pc)`, jumps
too, taken or not. -/
def Obligations.PcOverflowFaults : Prop :=
  ∀ (s : State) (i : Instr), s.Wired → i ≠ .halt → maxAddr < s.inst.pc + i.width →
    ∃ t, exec i s = .next t ∧ FaultedWith s t .pcOverflow s.inst.pc

/-- R103, R104, R226: when the parameters fit, the first of them in index order that does not resolve faults
the machine with its cause, before any effect. The terms range over ill-formed ones too, which no word
decodes to: that one with an Immediate write parameter raises `IllegalWriteTarget` here, and not in decode,
is the model's choice (log 19). -/
def Obligations.FirstUnresolvedParameterFaults : Prop :=
  ∀ (s : State) (i : Instr) (c : Cause) (info : Int), s.Wired →
    s.inst.pc + i.width ≤ maxAddr → s.inst.firstFault i = some (c, info) →
    ∃ t, exec i s = .next t ∧ FaultedWith s t c info

/-- R108: what an instruction does depends on its read parameters only through their values and on its write
parameter only through its address; by which modes they were reached makes no difference that anything can
observe. -/
def Obligations.AddressingModesDoNotMatter : Prop :=
  ∀ (s : State) (a a' b b' d d' : Mode),
    (s.inst.DestOk 0 d → s.inst.DestOk 0 d' → s.inst.dest 0 d = s.inst.dest 0 d' →
      visibleOutcome (exec (.input d) s) = visibleOutcome (exec (.input d') s)) ∧
    (s.inst.ReadOk 0 a → s.inst.ReadOk 0 a' → s.inst.operand 0 a = s.inst.operand 0 a' →
      visibleOutcome (exec (.output a) s) = visibleOutcome (exec (.output a') s) ∧
      visibleOutcome (exec (.adjustRelativeBase a) s) =
        visibleOutcome (exec (.adjustRelativeBase a') s) ∧
      (s.inst.ReadOk 1 b → s.inst.ReadOk 1 b' → s.inst.operand 1 b = s.inst.operand 1 b' →
        visibleOutcome (exec (.jumpIfTrue a b) s) = visibleOutcome (exec (.jumpIfTrue a' b') s) ∧
        visibleOutcome (exec (.jumpIfFalse a b) s) = visibleOutcome (exec (.jumpIfFalse a' b') s) ∧
        (s.inst.DestOk 2 d → s.inst.DestOk 2 d' → s.inst.dest 2 d = s.inst.dest 2 d' →
          visibleOutcome (exec (.add a b d) s) = visibleOutcome (exec (.add a' b' d') s) ∧
          visibleOutcome (exec (.multiply a b d) s) = visibleOutcome (exec (.multiply a' b' d') s) ∧
          visibleOutcome (exec (.lessThan a b d) s) = visibleOutcome (exec (.lessThan a' b' d') s) ∧
          visibleOutcome (exec (.equals a b d) s) = visibleOutcome (exec (.equals a' b' d') s))))

/-! ## The instructions -/

/-- R121: `add` stores the exact sum, moves on by 4, and changes nothing else. -/
def Obligations.AddStoresSum : Prop :=
  ∀ (s : State) (a b dest : Mode), s.cur < s.instances.length → s.inst.Fits 3 →
    s.inst.ReadOk 0 a → s.inst.ReadOk 1 b → s.inst.DestOk 2 dest →
    InVal (s.inst.operand 0 a + s.inst.operand 1 b) →
    ∃ t, exec (.add a b dest) s = .next t ∧ MovesTo s t (s.inst.pc + 4) ∧
      StoresOnly s t (s.inst.dest 2 dest) (s.inst.operand 0 a + s.inst.operand 1 b) ∧
      t.channels = s.channels ∧ SameElse s t

/-- R122: `multiply` stores the exact product, moves on by 4, and changes nothing else. -/
def Obligations.MultiplyStoresProduct : Prop :=
  ∀ (s : State) (a b dest : Mode), s.cur < s.instances.length → s.inst.Fits 3 →
    s.inst.ReadOk 0 a → s.inst.ReadOk 1 b → s.inst.DestOk 2 dest →
    InVal (s.inst.operand 0 a * s.inst.operand 1 b) →
    ∃ t, exec (.multiply a b dest) s = .next t ∧ MovesTo s t (s.inst.pc + 4) ∧
      StoresOnly s t (s.inst.dest 2 dest) (s.inst.operand 0 a * s.inst.operand 1 b) ∧
      t.channels = s.channels ∧ SameElse s t

/-- R150: `less-than` stores 1 or 0 by the signed comparison, moves on by 4, and changes nothing else. -/
def Obligations.LessThanStoresComparison : Prop :=
  ∀ (s : State) (a b dest : Mode), s.cur < s.instances.length → s.inst.Fits 3 →
    s.inst.ReadOk 0 a → s.inst.ReadOk 1 b → s.inst.DestOk 2 dest →
    ∃ t, exec (.lessThan a b dest) s = .next t ∧ MovesTo s t (s.inst.pc + 4) ∧
      StoresOnly s t (s.inst.dest 2 dest) (if s.inst.operand 0 a < s.inst.operand 1 b then 1 else 0) ∧
      t.channels = s.channels ∧ SameElse s t

/-- R151: `equals` stores 1 or 0, moves on by 4, and changes nothing else. -/
def Obligations.EqualsStoresComparison : Prop :=
  ∀ (s : State) (a b dest : Mode), s.cur < s.instances.length → s.inst.Fits 3 →
    s.inst.ReadOk 0 a → s.inst.ReadOk 1 b → s.inst.DestOk 2 dest →
    ∃ t, exec (.equals a b dest) s = .next t ∧ MovesTo s t (s.inst.pc + 4) ∧
      StoresOnly s t (s.inst.dest 2 dest) (if s.inst.operand 0 a = s.inst.operand 1 b then 1 else 0) ∧
      t.channels = s.channels ∧ SameElse s t

/-- R130, R131: `input` takes the oldest value of its channel, stores it, moves on by 2, and changes nothing
else. -/
def Obligations.InputStoresOldestValue : Prop :=
  ∀ (s : State) (dest : Mode) (v : Int) (rest : List Int), s.Wired → s.inst.Fits 1 →
    s.inst.DestOk 0 dest → (s.chan s.inst.inp).queue = v :: rest →
    ∃ t, exec (.input dest) s = .next t ∧ MovesTo s t (s.inst.pc + 2) ∧
      StoresOnly s t (s.inst.dest 0 dest) v ∧
      t.chan s.inst.inp = { s.chan s.inst.inp with queue := rest } ∧ OnlyChannel s t s.inst.inp ∧
      SameElse s t

/-- R130, R223: on an empty channel `input` holds, changing nothing at all, while the channel is open, and
faults with `InputAfterEndOfStream` once it is closed. -/
def Obligations.InputHoldsOrFaultsOnEmptyChannel : Prop :=
  ∀ (s : State) (dest : Mode), s.Wired → s.inst.Fits 1 → s.inst.DestOk 0 dest →
    (s.chan s.inst.inp).queue = [] →
    ((s.chan s.inst.inp).closed = false → exec (.input dest) s = .next s) ∧
      ((s.chan s.inst.inp).closed = true →
        ∃ t, exec (.input dest) s = .next t ∧ FaultedWith s t .inputAfterEndOfStream 0)

/-- R132, R133: `output` appends its operand to the output channel, or discards it when the consumer has
dropped, moves on by 2, and changes nothing else. -/
def Obligations.OutputSendsOperand : Prop :=
  ∀ (s : State) (a : Mode), s.Wired → s.inst.Fits 1 → s.inst.ReadOk 0 a →
    ∃ t, exec (.output a) s = .next t ∧ MovesTo s t (s.inst.pc + 2) ∧ SameMemory s t ∧
      t.chan s.inst.out =
        (if (s.chan s.inst.out).dropped = true then s.chan s.inst.out
        else { s.chan s.inst.out with queue := (s.chan s.inst.out).queue ++ [s.inst.operand 0 a] }) ∧
      OnlyChannel s t s.inst.out ∧ SameElse s t

/-- R142: `jump-if-true` goes to its target on any condition but 0, else on by 3; it writes nothing but
`pc`. -/
def Obligations.JumpIfTrueSetsPc : Prop :=
  ∀ (s : State) (cond target : Mode), s.cur < s.instances.length → s.inst.Fits 2 →
    s.inst.ReadOk 0 cond → s.inst.ReadOk 1 target →
    (s.inst.operand 0 cond ≠ 0 → 0 ≤ s.inst.operand 1 target) →
    ∃ t, exec (.jumpIfTrue cond target) s = .next t ∧
      MovesTo s t
        (if s.inst.operand 0 cond ≠ 0 then (s.inst.operand 1 target).toNat else s.inst.pc + 3) ∧
      SameMemory s t ∧ t.channels = s.channels ∧ SameElse s t

/-- R143: `jump-if-false` goes to its target on the condition 0, else on by 3; it writes nothing but
`pc`. -/
def Obligations.JumpIfFalseSetsPc : Prop :=
  ∀ (s : State) (cond target : Mode), s.cur < s.instances.length → s.inst.Fits 2 →
    s.inst.ReadOk 0 cond → s.inst.ReadOk 1 target →
    (s.inst.operand 0 cond = 0 → 0 ≤ s.inst.operand 1 target) →
    ∃ t, exec (.jumpIfFalse cond target) s = .next t ∧
      MovesTo s t
        (if s.inst.operand 0 cond = 0 then (s.inst.operand 1 target).toNat else s.inst.pc + 3) ∧
      SameMemory s t ∧ t.channels = s.channels ∧ SameElse s t

/-- R141: a taken jump to a negative target faults with `NegativeAddress(target)` and `pc` is not written;
not taken, the target is not examined. -/
def Obligations.TakenJumpToNegativeTargetFaults : Prop :=
  ∀ (s : State) (cond target : Mode), s.Wired → s.inst.Fits 2 →
    s.inst.ReadOk 0 cond → s.inst.ReadOk 1 target → s.inst.operand 1 target < 0 →
    (s.inst.operand 0 cond ≠ 0 →
      (∃ t, exec (.jumpIfTrue cond target) s = .next t ∧
        FaultedWith s t .negativeAddress (s.inst.operand 1 target)) ∧
      ∃ t, exec (.jumpIfFalse cond target) s = .next t ∧ MovesTo s t (s.inst.pc + 3)) ∧
    (s.inst.operand 0 cond = 0 →
      (∃ t, exec (.jumpIfFalse cond target) s = .next t ∧
        FaultedWith s t .negativeAddress (s.inst.operand 1 target)) ∧
      ∃ t, exec (.jumpIfTrue cond target) s = .next t ∧ MovesTo s t (s.inst.pc + 3))

/-- R160: `adjust-relative-base` adds its operand, resolved with the old base, to `rb`, moves on by 2, and
changes nothing else. -/
def Obligations.AdjustRelativeBaseAddsOperand : Prop :=
  ∀ (s : State) (a : Mode), s.cur < s.instances.length → s.inst.Fits 1 → s.inst.ReadOk 0 a →
    InVal (s.inst.rb + s.inst.operand 0 a) →
    ∃ t, exec (.adjustRelativeBase a) s = .next t ∧
      t.inst =
        { s.inst with pc := s.inst.pc + 2, rb := s.inst.rb + s.inst.operand 0 a, mem := t.inst.mem } ∧
      SameMemory s t ∧ t.channels = s.channels ∧ SameElse s t

/-- R163: `halt` ends the machine, closes its output and drops its input; `pc`, `rb` and all of memory are
unchanged. It completes in every state, also at the top of the address space. -/
def Obligations.HaltReleasesChannels : Prop :=
  ∀ s : State, s.Wired →
    ∃ t, exec .halt s = .next t ∧ t.inst = { s.inst with status := .halted } ∧ Released s t ∧
      SameElse s t

/-- R120: a sum or product outside `Val` is never wrapped: `add`, `multiply` and `adjust-relative-base` fault
with the exact result and change nothing. -/
def Obligations.ResultsOutsideValFault : Prop :=
  ∀ (s : State) (a b dest : Mode), s.Wired → s.inst.ReadOk 0 a →
    (s.inst.Fits 3 → s.inst.ReadOk 1 b → s.inst.DestOk 2 dest →
      (¬ InVal (s.inst.operand 0 a + s.inst.operand 1 b) →
        ∃ t, exec (.add a b dest) s = .next t ∧
          FaultedWith s t .arithmeticOverflow (s.inst.operand 0 a + s.inst.operand 1 b)) ∧
      (¬ InVal (s.inst.operand 0 a * s.inst.operand 1 b) →
        ∃ t, exec (.multiply a b dest) s = .next t ∧
          FaultedWith s t .arithmeticOverflow (s.inst.operand 0 a * s.inst.operand 1 b))) ∧
    (s.inst.Fits 1 → ¬ InVal (s.inst.rb + s.inst.operand 0 a) →
      ∃ t, exec (.adjustRelativeBase a) s = .next t ∧
        FaultedWith s t .arithmeticOverflow (s.inst.rb + s.inst.operand 0 a))

/-! ## Rules over all instructions -/

/-- R62, R111, R161 (e): whatever an instruction does, it touches no other machine and no channel but its
own two. -/
def Obligations.InstructionsTouchOnlyTheirOwnMachine : Prop :=
  ∀ (i : Instr) (s t : State), exec i s = .next t →
    SameElse s t ∧ t.channels.length = s.channels.length ∧
      ∀ j, j ≠ s.inst.inp → j ≠ s.inst.out → t.channels[j]? = s.channels[j]?

/-- R25, R135: the relative base is changed by `adjust-relative-base` only. -/
def Obligations.OnlyAdjustWritesRelativeBase : Prop :=
  ∀ (i : Instr) (s t : State), (∀ a, i ≠ .adjustRelativeBase a) → exec i s = .next t →
    t.inst.rb = s.inst.rb

/-- R162: an instruction without a Relative parameter behaves the same for every value of `rb`
(`adjust-relative-base`, whose result is `rb`'s new value, apart). -/
def Obligations.RelativeBaseReadOnlyByRelativeMode : Prop :=
  ∀ (i : Instr) (s t : State) (rb : Int), s.cur < s.instances.length → Mode.relative ∉ i.modes →
    (∀ a, i ≠ .adjustRelativeBase a) → exec i s = .next t →
    exec i (s.setInst { s.inst with rb := rb }) = .next (t.setInst { t.inst with rb := rb })

/-- R46: reading or writing below `T` beyond the primary region makes its length exactly `a + 1`, and over
any instruction the primary region never shrinks and no entry leaves the overflow region. -/
def Obligations.TiersOnlyGrow : Prop :=
  (∀ (T : Nat) (m : Memory) (a : Nat) (v : Int), a < T → m.plen ≤ a →
      (m.read T a).2.plen = a + 1 ∧ (m.write T a v).plen = a + 1) ∧
    ∀ (i : Instr) (s t : State), exec i s = .next t →
      s.inst.mem.plen ≤ t.inst.mem.plen ∧ ∀ k ∈ s.inst.mem.ovfKeys, k ∈ t.inst.mem.ovfKeys

/-! ## Memory (20_memory.md) -/

/-- R47: memory as a total function: (a) a read returns the view and leaves it, (b) a write changes it at one
point, (c) after loading it is the image, 0 beyond. -/
def Obligations.MemoryIsAFunctionOfAddresses : Prop :=
  ∀ (T : Nat) (m : Memory) (image : List Int) (a b : Nat) (v : Int),
    (m.read T a).1 = m.view a ∧ (m.read T a).2.view b = m.view b ∧
      (m.write T a v).view a = v ∧ (b ≠ a → (m.write T a v).view b = m.view b) ∧
      (Memory.load T image).view a = if a < image.length then image.getD a 0 else 0

/-- R50: after any accesses none of which writes `a` (`none` is a read), `a` reads 0, and a read does not
change what the next read of the address returns. -/
def Obligations.ReadsAreIdempotent : Prop :=
  ∀ (T : Nat) (m : Memory) (accesses : List (Nat × Option Int)) (a : Nat),
    ((∀ c ∈ accesses, c.1 = a → c.2 = none) →
      ((accesses.foldl (Memory.access T) Memory.empty).read T a).1 = 0) ∧
      ((m.read T a).2.read T a).1 = (m.read T a).1

/-- R44, R45: the controller refines the two tiers of R31 accessed as the pseudocode says. -/
def Obligations.ControllerRefinesTwoTiers : Prop :=
  ∀ (T : Nat) (m : Memory) (a : Nat) (v : Int), m.wf = true → m.tiersOk T = true →
    m.tiers.read T a = (m.view a, (m.read T a).2.tiers) ∧
      m.tiers.write T a v = (m.write T a v).tiers

/-- R48: loading gives `plen = min(L, T)`, puts the cells of the image at or above `T` into `ovf`, and
nothing else. -/
def Obligations.LoadFillsTheTiers : Prop :=
  ∀ (T : Nat) (image : List Int),
    (Memory.load T image).plen = min image.length T ∧
      (∀ a, a ∈ (Memory.load T image).ovfKeys ↔ T ≤ a ∧ a < image.length) ∧
      ∀ a, (Memory.load T image).view a = image.getD a 0

/-- Log 8: in canonical form, memories that read the same have the same cells. -/
def Obligations.CanonicalMemoriesAreEqualWhenTheyReadTheSame : Prop :=
  ∀ m n : Memory, m.wf = true → n.wf = true → (∀ a, m.view a = n.view a) → m.cells = n.cells

/-- R49: `T` and the tiers cannot be observed: two states that differ in nothing else step alike. -/
def Obligations.ThresholdCannotBeObserved : Prop :=
  ∀ s t : State, s.visible = t.visible → visibleOutcome (step s) = visibleOutcome (step t)

/-! ## Channels (47_channel_interface.md) -/

/-- R174, R176: a send appends unless the consumer has dropped; a receive answers the oldest value, else the
end of the stream if the channel is closed, else nothing yet. -/
def Obligations.SendAndRecv : Prop :=
  ∀ (c : Channel) (v : Int),
    c.send v = (if c.dropped = true then c else { c with queue := c.queue ++ [v] }) ∧
      (∀ w rest, c.queue = w :: rest → c.recv = .value w ∧ c.consume = { c with queue := rest }) ∧
      (c.queue = [] → c.recv = if c.closed = true then .eos else .empty)

/-- R180: first in, first out: after any sends to a consumer that listens, the values received are those that
were waiting and then those sent, in order, and after them the end of the stream or nothing yet. -/
def Obligations.ChannelDeliversInOrder : Prop :=
  ∀ (c : Channel) (sent : List Int) (n : Nat), c.dropped = false →
    (Channel.consume^[n] (sent.foldl Channel.send c)).recv =
      match (c.queue ++ sent)[n]? with
      | some v => .value v
      | none => if c.closed = true then .eos else .empty

/-- R39 (f), R165, R173: over a step of the run a closed channel stays closed and nothing is appended to its
queue. -/
def Obligations.ClosedChannelNeverGrows : Prop :=
  ∀ (s t : State) (i : Nat), s.Inv → s.RunStep → step s = .next t → (s.chan i).closed = true →
    (t.chan i).closed = true ∧ (t.chan i).queue <:+ (s.chan i).queue

/-- R185: over a step of the run `closed` and `dropped` never go back to false. -/
def Obligations.ChannelEndsAreFinal : Prop :=
  ∀ (s t : State) (i : Nat), s.RunStep → step s = .next t →
    ((s.chan i).closed = true → (t.chan i).closed = true) ∧
      ((s.chan i).dropped = true → (t.chan i).dropped = true)

/-! ## The end of a machine and of a run (48_pipeline_orchestrator.md, 60_exceptions.md) -/

/-- R39 (e), R164 (d), R234: over a step of the run no field of a machine that has ended changes. -/
def Obligations.EndedMachineIsInert : Prop :=
  ∀ (s t : State) (k : Nat), s.Inv → s.RunStep → step s = .next t →
    (s.instAt k).status ≠ .running → t.instances[k]? = s.instances[k]?

/-- R208: after `done` no agent of the run steps again. -/
def Obligations.NobodyStepsAfterDone : Prop :=
  ∀ (s : State) (ag : Agent) (rest : List Agent), s.orch.done = true →
    s.choose = some (ag, rest) → ag = .host

/-- R205: the relay's step on a value. -/
def Obligations.RelayRemembersAndForwards : Prop :=
  ∀ (s : State) (rest : List Agent) (v : Int), s.Inv → s.choose = some (.relay, rest) →
    (s.chan s.size).recv = .value v →
    ∃ t, step s = .next t ∧ t.relay = { last := some v, count := s.relay.count + 1, done := false } ∧
      t.chan s.size = (s.chan s.size).consume ∧ t.chan 0 = (s.chan 0).send v ∧
      (∀ j, j ≠ 0 → j ≠ s.size → t.chan j = s.chan j) ∧ t.instances = s.instances ∧ t.orch = s.orch

/-- R206: the relay's step on the end of the stream, after which the relay has no step. -/
def Obligations.RelayClosesFirstChannelAtTheEnd : Prop :=
  ∀ (s : State) (rest : List Agent), s.Inv → s.choose = some (.relay, rest) →
    (s.chan s.size).recv = .eos →
    ∃ t, step s = .next t ∧ t.relay = { s.relay with done := true } ∧
      t.chan 0 = { s.chan 0 with closed := true } ∧ (∀ j, j ≠ 0 → t.chan j = s.chan j) ∧
      t.instances = s.instances ∧ t.orch = s.orch ∧ t.ready .relay = false

/-- R14, R26, R100, R130: a machine has a step when it runs and does not wait for input (log 13); R204: when
the relay has one; R208, R209: when the orchestrator has one; and, in the model's rendering of the host (log
11), the host unless it waits to receive (R176). -/
def Obligations.WhenAnAgentHasAStep : Prop :=
  ∀ s : State,
    (∀ k, s.ready (.inst k) = true ↔
      s.orch.done = false ∧ k < s.instances.length ∧ (s.instAt k).status = .running ∧
        ¬ s.WaitsForInput k) ∧
    (s.ready .relay = true ↔
      s.orch.done = false ∧ s.params.topology = .feedback ∧ s.relay.done = false ∧
        ((s.chan s.size).queue ≠ [] ∨ (s.chan s.size).closed = true)) ∧
    (s.ready .orchestrator = true ↔
      s.orch.done = false ∧
        ((∃ x ∈ s.instances, x.status = .faulted) ∨
          ((∀ x ∈ s.instances, x.status = .halted) ∧
            (s.params.topology = .feedback → s.relay.done = true)))) ∧
    (s.ready .host = true ↔
      ∃ tx later, s.hostTx = tx :: later ∧
        (tx = .recvOut → s.params.topology = .linear → (s.chan s.size).dropped = false →
          (s.chan s.size).queue ≠ [] ∨ (s.chan s.size).closed = true))

/-- R209: a run with a faulted machine is aborted, without a result, and nothing else changes. -/
def Obligations.FaultAbortsTheRun : Prop :=
  ∀ (s : State) (rest : List Agent), s.choose = some (.orchestrator, rest) →
    (∃ x ∈ s.instances, x.status = .faulted) →
    ∃ t, step s = .next t ∧
      t.orch = { s.orch with done := true, aborted := true, result := none } ∧
      t.instances = s.instances ∧ t.channels = s.channels ∧ t.relay = s.relay

/-- R197, R207, R208, R210: the completion of a run: the last value delivered into `c_N` (log 10), or the
relay's last value; without one, `MissingOutput` with the name of the last machine (log 21). That this
applies to a single machine the host runs (R253) as well is the model's reading (log 12). -/
def Obligations.CompletionReportsLastValue : Prop :=
  ∀ (s : State) (rest : List Agent), s.Inv → s.choose = some (.orchestrator, rest) →
    (∀ x ∈ s.instances, x.status ≠ .faulted) →
    ∃ t, step s = .next t ∧ t.instances = s.instances ∧ t.channels = s.channels ∧
      ∀ value : Option Int,
        value =
          (match s.params.topology with
          | .linear => (s.hostOut ++ (s.chan s.size).queue).getLast?
          | .feedback => s.relay.last) →
        (∀ v, value = some v → t.orch = { s.orch with done := true, result := some v }) ∧
          (value = none →
            t.orch =
              { done := true
                aborted := true
                result := none
                fault := some { cause := .missingOutput, name := (s.instAt (s.size - 1)).name } })

/-- R37, R208, R232, R241: STATUS presents the end of the run and every machine's name, status, fault, `pc`,
`rb` and memory; R229: the one report names the faulted machine of lowest index. R241 and U19 give `pc`, `rb`
and memory to the host after a run; that the view shows them in every state is the model's reading (log
25). -/
def Obligations.StatusPresentsMachinesAndLowestFault : Prop :=
  ∀ s : State,
    s.statusPort.done = s.orch.done ∧ s.statusPort.aborted = s.orch.aborted ∧
      s.statusPort.result = s.orch.result ∧ s.statusPort.machines.length = s.instances.length ∧
      (∀ k v, s.statusPort.machines[k]? = some v →
        v.name = (s.instAt k).name ∧ v.status = (s.instAt k).status ∧ v.fault = (s.instAt k).fault ∧
          v.pc = (s.instAt k).pc ∧ v.rb = (s.instAt k).rb ∧
          ∀ a, v.cell a = (s.instAt k).mem.view a) ∧
      ∀ (name : Label) (f : FaultRecord), s.faultReport = some (name, f) ↔
        ∃ k, k < s.instances.length ∧ (s.instAt k).name = name ∧ (s.instAt k).fault = some f ∧
          ∀ j, j < k → (s.instAt j).fault = none

/-! ## Reset and the host's ports (70_reset_and_hazards.md, 10_state.md R37, R38) -/

/-- R38, R250, R251: after LOAD every machine, with both tiers of its memory, the relay and the orchestrator
are at their reset values; R253: the channels of a single machine run by the host. -/
def Obligations.LoadResetsEverything : Prop :=
  ∀ (s : State) (p : Params), p.ok = true →
    (s.load p).params = p ∧ (s.load p).instances.length = p.phase.length ∧
      (∀ k, k < p.phase.length →
        ((s.load p).instAt k).pc = 0 ∧ ((s.load p).instAt k).rb = 0 ∧
          ((s.load p).instAt k).status = .running ∧ ((s.load p).instAt k).fault = none ∧
          ((s.load p).instAt k).name = p.names.getD k 0 ∧
          ((s.load p).instAt k).inp = k ∧ ((s.load p).instAt k).out = k + 1 ∧
          ((s.load p).instAt k).mem.plen = min p.image.length p.threshold ∧
          (∀ a v, (a, v) ∈ ((s.load p).instAt k).mem.ovf ↔
            p.threshold ≤ a ∧ a < p.image.length ∧ v = p.image.getD a 0) ∧
          ∀ a, ((s.load p).instAt k).mem.view a = p.image.getD a 0) ∧
      (s.load p).relay = { last := none, count := 0, done := false } ∧
      (s.load p).orch = { done := false, aborted := false, result := none, fault := none } ∧
      (∀ c ∈ (s.load p).channels, c.dropped = false) ∧
      ∀ q closed, p.feed = .hostFed q closed →
        (s.load p).channels =
          [{ queue := q, closed := closed, dropped := false },
            { queue := [], closed := false, dropped := false }]

/-- R196: the seeds of the Linear topology. -/
def Obligations.LinearSeeds : Prop :=
  ∀ (s : State) (p : Params), p.ok = true → p.feed = .seeded → p.topology = .linear →
    (s.load p).channels.length = p.phase.length + 1 ∧
      (s.load p).chan 0 = { queue := [p.phase.getD 0 0, p.seed], closed := true, dropped := false } ∧
      (∀ k, 1 ≤ k → k < p.phase.length →
        (s.load p).chan k = { queue := [p.phase.getD k 0], closed := false, dropped := false }) ∧
      (s.load p).chan p.phase.length = { queue := [], closed := false, dropped := false }

/-- R202: the seeds of the Feedback topology; `c_0` stays open. -/
def Obligations.FeedbackSeeds : Prop :=
  ∀ (s : State) (p : Params), p.ok = true → p.feed = .seeded → p.topology = .feedback →
    (s.load p).channels.length = p.phase.length + 1 ∧
      (s.load p).chan 0 = { queue := [p.phase.getD 0 0, p.seed], closed := false, dropped := false } ∧
      (∀ k, 1 ≤ k → k < p.phase.length →
        (s.load p).chan k = { queue := [p.phase.getD k 0], closed := false, dropped := false }) ∧
      (s.load p).chan p.phase.length = { queue := [], closed := false, dropped := false }

/-- The host's transactions (R37), the host as an agent being the model's rendering (log 11): `Send` (R174; after
the close refused, R179, D31, U9; outside `Val` refused, R134) and `CloseOut` (R175) on HOST_IN; `Recv` (R176;
refused once released, R177) and `DropIn` (R177) on HOST_OUT; LOAD (R250; log 22). A port the run does not
have refuses. -/
def Obligations.HostTransactions : Prop :=
  ∀ (s : State) (rest : List Agent) (tx : List HostTx), s.Inv → s.choose = some (.host, rest) →
    (∀ v, s.hostTx = .send v :: tx →
      (s.hasHostIn = false → step s = .refused .hostPortAbsent) ∧
      (s.hasHostIn = true → ¬ InVal v → step s = .refused .hostValueOutsideVal) ∧
      (s.hasHostIn = true → InVal v → (s.chan 0).closed = true → step s = .refused .hostSendAfterClose) ∧
      (s.hasHostIn = true → InVal v → (s.chan 0).closed = false →
        ∃ t, step s = .next t ∧ t.chan 0 = (s.chan 0).send v ∧ OnlyChannel s t 0 ∧
          t.hostOut = s.hostOut ∧ HostFrame s t tx rest)) ∧
    (s.hostTx = .closeIn :: tx →
      (s.hasHostIn = false → step s = .refused .hostPortAbsent) ∧
      (s.hasHostIn = true →
        ∃ t, step s = .next t ∧ t.chan 0 = { s.chan 0 with closed := true } ∧ OnlyChannel s t 0 ∧
          t.hostOut = s.hostOut ∧ HostFrame s t tx rest)) ∧
    (s.hostTx = .recvOut :: tx →
      (s.params.topology = .feedback → step s = .refused .hostPortAbsent) ∧
      (s.params.topology = .linear → (s.chan s.size).dropped = true →
        step s = .refused .hostRecvAfterDrop) ∧
      (s.params.topology = .linear → (s.chan s.size).dropped = false →
        (∀ v later, (s.chan s.size).queue = v :: later →
          ∃ t, step s = .next t ∧ t.chan s.size = { s.chan s.size with queue := later } ∧
            OnlyChannel s t s.size ∧ t.hostOut = s.hostOut ++ [v] ∧ HostFrame s t tx rest) ∧
        ((s.chan s.size).queue = [] → (s.chan s.size).closed = true ∧
          ∃ t, step s = .next t ∧ t.channels = s.channels ∧ t.hostOut = s.hostOut ∧
            HostFrame s t tx rest))) ∧
    (s.hostTx = .dropOut :: tx →
      (s.params.topology = .feedback → step s = .refused .hostPortAbsent) ∧
      (s.params.topology = .linear →
        ∃ t, step s = .next t ∧ t.chan s.size = { s.chan s.size with dropped := true } ∧
          OnlyChannel s t s.size ∧ t.hostOut = s.hostOut ∧ HostFrame s t tx rest)) ∧
    ∀ p, s.hostTx = .load p :: tx →
      (p.ok = false → step s = .refused .loadIllFormed) ∧
      (p.ok = true → step s = .next ({ s with hostTx := tx, schedule := rest }.load p))

/-! ## Invariants and independence of the schedule -/

/-- R39: the invariant holds at reset. -/
def Obligations.ResetSatisfiesInvariant : Prop := State.reset.Inv

/-- R39, R250: a legal LOAD establishes the invariant from any state. -/
def Obligations.LoadEstablishesInvariant : Prop :=
  ∀ (s : State) (p : Params), p.ok = true → (s.load p).Inv

/-- R39: every step of every agent keeps the invariant: addresses and values in range, memory canonical and
its tiers in order, a fault record exactly on a faulted machine, and both endpoints released exactly when
a machine has ended. -/
def Obligations.StepKeepsInvariant : Prop :=
  ∀ s t : State, s.Inv → step s = .next t → t.Inv

/-- R181, R182: the steps of two machines that both have one commute: each still has its step after the
other's, and either order leads to the same state but for what nothing can observe. -/
def Obligations.MachineStepsCommute : Prop :=
  ∀ (s s1 s2 : State) (j k : Nat), s.Inv → j ≠ k →
    s.ready (.inst j) = true → s.ready (.inst k) = true →
    runAgent (.inst j) s = .next s1 → runAgent (.inst k) s = .next s2 →
    s1.ready (.inst k) = true ∧ s2.ready (.inst j) = true ∧
      ∃ t1 t2, runAgent (.inst k) s1 = .next t1 ∧ runAgent (.inst j) s2 = .next t2 ∧
        t1.observable = t2.observable
end

