-- ==== Sys2Proof/Laws/State.lean ====
section
/-! SUPPORT. The fields of a state after each shared update: one lemma per field, and what each update does
to the machine and the channels it names. -/

namespace Sys2Proof.Machine

variable (s : State) (x : Inst) (i k : Nat) (f : Channel → Channel)

@[simp] theorem State.setInst_params : (s.setInst x).params = s.params := rfl
@[simp] theorem State.setInst_channels : (s.setInst x).channels = s.channels := rfl
@[simp] theorem State.setInst_relay : (s.setInst x).relay = s.relay := rfl
@[simp] theorem State.setInst_orch : (s.setInst x).orch = s.orch := rfl
@[simp] theorem State.setInst_hostTx : (s.setInst x).hostTx = s.hostTx := rfl
@[simp] theorem State.setInst_hostOut : (s.setInst x).hostOut = s.hostOut := rfl
@[simp] theorem State.setInst_schedule : (s.setInst x).schedule = s.schedule := rfl
@[simp] theorem State.setInst_turn : (s.setInst x).turn = s.turn := rfl
@[simp] theorem State.setInst_cur : (s.setInst x).cur = s.cur := rfl
@[simp] theorem State.setInst_chan : (s.setInst x).chan i = s.chan i := rfl
@[simp] theorem State.setInst_threshold : (s.setInst x).threshold = s.threshold := rfl
@[simp] theorem State.setInst_size : (s.setInst x).size = s.size := rfl

@[simp] theorem State.setInst_length : (s.setInst x).instances.length = s.instances.length := by
  simp [State.setInst]

@[simp] theorem State.setInst_get_ne (h : k ≠ s.cur) :
    (s.setInst x).instances[k]? = s.instances[k]? := by
  simp [State.setInst, List.getElem?_set_ne (Ne.symm h)]

@[simp] theorem State.setInst_instAt_ne (h : k ≠ s.cur) : (s.setInst x).instAt k = s.instAt k := by
  simp [State.instAt, List.getD_eq_getElem?_getD, State.setInst_get_ne s x k h]

theorem State.setInst_inst (h : s.cur < s.instances.length) : (s.setInst x).inst = x := by
  simp [State.inst, State.instAt, State.setInst, List.getD_eq_getElem?_getD, h]

@[simp] theorem State.onChan_params : (s.onChan i f).params = s.params := rfl
@[simp] theorem State.onChan_instances : (s.onChan i f).instances = s.instances := rfl
@[simp] theorem State.onChan_relay : (s.onChan i f).relay = s.relay := rfl
@[simp] theorem State.onChan_orch : (s.onChan i f).orch = s.orch := rfl
@[simp] theorem State.onChan_hostTx : (s.onChan i f).hostTx = s.hostTx := rfl
@[simp] theorem State.onChan_hostOut : (s.onChan i f).hostOut = s.hostOut := rfl
@[simp] theorem State.onChan_schedule : (s.onChan i f).schedule = s.schedule := rfl
@[simp] theorem State.onChan_turn : (s.onChan i f).turn = s.turn := rfl
@[simp] theorem State.onChan_cur : (s.onChan i f).cur = s.cur := rfl
@[simp] theorem State.onChan_inst : (s.onChan i f).inst = s.inst := rfl
@[simp] theorem State.onChan_instAt : (s.onChan i f).instAt k = s.instAt k := rfl
@[simp] theorem State.onChan_threshold : (s.onChan i f).threshold = s.threshold := rfl
@[simp] theorem State.onChan_size : (s.onChan i f).size = s.size := rfl

@[simp] theorem State.onChan_length : (s.onChan i f).channels.length = s.channels.length := by
  simp [State.onChan]

@[simp] theorem State.onChan_get_ne (h : k ≠ i) : (s.onChan i f).channels[k]? = s.channels[k]? := by
  simp [State.onChan, Ne.symm h]

@[simp] theorem State.onChan_chan_ne (h : k ≠ i) : (s.onChan i f).chan k = s.chan k := by
  simp [State.chan, List.getD_eq_getElem?_getD, State.onChan_get_ne s i k f h]

theorem State.onChan_chan (h : i < s.channels.length) : (s.onChan i f).chan i = f (s.chan i) := by
  simp [State.chan, State.onChan, List.getD_eq_getElem?_getD, h]

/-- A channel operation at an index with no channel changes nothing. -/
theorem State.onChan_of_le (h : s.channels.length ≤ i) : s.onChan i f = s := by
  have : s.channels.modify i f = s.channels := by
    apply List.ext_getElem? ; intro j
    simp only [List.getElem?_modify]
    split
    · rename_i e; subst e; simp [h]
    · simp
  simp [State.onChan, this]

@[simp] theorem State.focus_cur : (s.focus k).cur = k := rfl
@[simp] theorem State.focus_instances : (s.focus k).instances = s.instances := rfl
@[simp] theorem State.focus_channels : (s.focus k).channels = s.channels := rfl
@[simp] theorem State.focus_params : (s.focus k).params = s.params := rfl
@[simp] theorem State.focus_inst : (s.focus k).inst = s.instAt k := rfl
@[simp] theorem State.focus_chan : (s.focus k).chan i = s.chan i := rfl
@[simp] theorem State.focus_instAt : (s.focus k).instAt i = s.instAt i := rfl
@[simp] theorem State.focus_threshold : (s.focus k).threshold = s.threshold := rfl
@[simp] theorem State.focus_size : (s.focus k).size = s.size := rfl

/-- Membership in the channels after a channel operation. -/
theorem State.mem_onChan {c : Channel} (h : c ∈ (s.onChan i f).channels) :
    c ∈ s.channels ∨ (i < s.channels.length ∧ c = f (s.chan i)) := by
  obtain ⟨j, hj⟩ := List.mem_iff_getElem?.1 h
  by_cases e : j = i
  · subst e
    by_cases hl : j < s.channels.length
    · refine .inr ⟨hl, ?_⟩
      simp [State.onChan, hl] at hj
      simp [State.chan, List.getD_eq_getElem?_getD, hl, hj]
    · rw [State.onChan_of_le s j f (Nat.le_of_not_lt hl)] at h
      exact .inl h
  · rw [State.onChan_get_ne s i j f e] at hj
    exact .inl (List.mem_iff_getElem?.2 ⟨j, hj⟩)

/-- Membership in the machines after the current one is replaced. -/
theorem State.mem_setInst {y : Inst} (h : y ∈ (s.setInst x).instances) : y ∈ s.instances ∨ y = x :=
  List.mem_or_eq_of_mem_set h

/-- A machine of the run is one of its list. -/
theorem State.instAt_mem (h : k < s.instances.length) : s.instAt k ∈ s.instances := by
  simp [State.instAt, List.getD_eq_getElem?_getD, h]

/-- A channel of the run is one of its list. -/
theorem State.chan_mem (h : k < s.channels.length) : s.chan k ∈ s.channels := by
  simp [State.chan, List.getD_eq_getElem?_getD, h]

end Sys2Proof.Machine
end

