-- ==== Sys2Proof/Laws/Channels.lean ====
section
/-! SUPPORT. The four channel operations (47_channel_interface.md R174 to R177), said once. -/

namespace Sys2Proof.Machine

variable {c : Channel} {v : Int}

@[simp] theorem Channel.send_of_dropped (h : c.dropped = true) : c.send v = c := by simp [Channel.send, h]

theorem Channel.send_of_listening (h : c.dropped = false) :
    c.send v = { c with queue := c.queue ++ [v] } := by simp [Channel.send, h]

@[simp] theorem Channel.send_closed : (c.send v).closed = c.closed := by unfold Channel.send; split <;> rfl
@[simp] theorem Channel.send_dropped : (c.send v).dropped = c.dropped := by unfold Channel.send; split <;> rfl
@[simp] theorem Channel.closeOut_queue : c.closeOut.queue = c.queue := rfl
@[simp] theorem Channel.closeOut_closed : c.closeOut.closed = true := rfl
@[simp] theorem Channel.closeOut_dropped : c.closeOut.dropped = c.dropped := rfl
@[simp] theorem Channel.dropIn_queue : c.dropIn.queue = c.queue := rfl
@[simp] theorem Channel.dropIn_closed : c.dropIn.closed = c.closed := rfl
@[simp] theorem Channel.dropIn_dropped : c.dropIn.dropped = true := rfl
@[simp] theorem Channel.consume_queue : c.consume.queue = c.queue.tail := rfl
@[simp] theorem Channel.consume_closed : c.consume.closed = c.closed := rfl
@[simp] theorem Channel.consume_dropped : c.consume.dropped = c.dropped := rfl

/-- A receive answers a value exactly when that value is the oldest one waiting. -/
theorem Channel.recv_value : c.recv = .value v ↔ c.queue.head? = some v := by
  unfold Channel.recv
  cases c.queue with
  | nil => cases c.closed <;> simp
  | cons w r => simp

theorem Channel.recv_eos : c.recv = .eos ↔ c.queue = [] ∧ c.closed = true := by
  unfold Channel.recv
  cases c.queue with
  | nil => cases c.closed <;> simp
  | cons w r => simp

theorem Channel.recv_empty : c.recv = .empty ↔ c.queue = [] ∧ c.closed = false := by
  unfold Channel.recv
  cases c.queue with
  | nil => cases c.closed <;> simp
  | cons w r => simp

end Sys2Proof.Machine
end

