-- ==== Sys2Proof/Laws/Memory.lean ====
section
/-! SUPPORT. The memory controller: read after write, what each operation leaves alone, and that every
operation keeps the canonical form and the tiers. -/

namespace Sys2Proof.Machine

/-! ## Reading the list of cells -/

@[simp] theorem look_insertCell (l : List (Nat × Int)) (a : Nat) (v : Int) (x : Nat) :
    look (insertCell l a v) x = if x = a then v else look l x := by
  induction l with
  | nil => simp [insertCell, look]
  | cons c r ih =>
    obtain ⟨b, w⟩ := c
    simp only [insertCell]
    split
    · simp [look]
    · split
      · rename_i h; subst h; simp only [look]; split <;> simp_all
      · simp only [look, ih]; split <;> split <;> simp_all

theorem look_filter_ne (l : List (Nat × Int)) (a x : Nat) :
    look (l.filter fun c => c.1 ≠ a) x = if x = a then 0 else look l x := by
  induction l with
  | nil => simp [look]
  | cons c r ih =>
    obtain ⟨b, w⟩ := c
    by_cases hb : b = a
    · subst hb; simp only [ne_eq, not_true_eq_false, decide_false, List.filter_cons_of_neg,
        Bool.false_eq_true, not_false_eq_true, ih, look]; split <;> simp_all
    · simp only [ne_eq, hb, not_false_eq_true, decide_true, List.filter_cons_of_pos, look, ih]
      split <;> split <;> simp_all

@[simp] theorem look_putCell (l : List (Nat × Int)) (a : Nat) (v : Int) (x : Nat) :
    look (putCell l a v) x = if x = a then v else look l x := by
  unfold putCell
  split
  · rename_i h; subst h; exact look_filter_ne l a x
  · exact look_insertCell l a v x

/-- A listed value that is not 0 comes from an entry. -/
theorem mem_of_look_ne {l : List (Nat × Int)} {a : Nat} (h : look l a ≠ 0) : (a, look l a) ∈ l := by
  induction l with
  | nil => simp [look] at h
  | cons c r ih =>
    obtain ⟨b, w⟩ := c
    simp only [look] at h ⊢
    split <;> rename_i e
    · subst e; simp
    · rw [if_neg e] at h; exact List.mem_cons_of_mem _ (ih h)

/-- In a canonical list every entry is what its address reads as. -/
theorem look_of_mem {l : List (Nat × Int)} (hs : l.Pairwise fun c d => c.1 < d.1) {c : Nat × Int}
    (h : c ∈ l) : look l c.1 = c.2 := by
  induction l with
  | nil => cases h
  | cons d r ih =>
    obtain ⟨b, w⟩ := d
    rcases List.mem_cons.1 h with rfl | h
    · simp [look]
    · have := (List.pairwise_cons.1 hs).1 c h
      simp only [look]
      rw [if_neg (by simp at this; omega), ih (List.pairwise_cons.1 hs).2 h]

theorem mem_insertCell {l : List (Nat × Int)} {a : Nat} {v : Int} {c : Nat × Int}
    (h : c ∈ insertCell l a v) : c = (a, v) ∨ c ∈ l := by
  induction l with
  | nil => simpa [insertCell] using h
  | cons d r ih =>
    obtain ⟨b, w⟩ := d
    simp only [insertCell] at h
    split at h
    · simpa using h
    · split at h
      · rcases List.mem_cons.1 h with h | h <;> simp_all
      · rcases List.mem_cons.1 h with h | h
        · simp [h]
        · rcases ih h with h | h <;> simp [h]

theorem pairwise_insertCell {l : List (Nat × Int)} (hs : l.Pairwise fun c d => c.1 < d.1) (a : Nat)
    (v : Int) : (insertCell l a v).Pairwise fun c d => c.1 < d.1 := by
  induction l with
  | nil => simp [insertCell]
  | cons d r ih =>
    obtain ⟨b, w⟩ := d
    have hr := List.pairwise_cons.1 hs
    simp only [insertCell]
    split
    · rename_i h
      refine List.pairwise_cons.2 ⟨fun c hc => ?_, hs⟩
      rcases List.mem_cons.1 hc with rfl | hc
      · exact h
      · exact Nat.lt_trans h (hr.1 c hc)
    · split
      · rename_i h; subst h; exact List.pairwise_cons.2 ⟨hr.1, hr.2⟩
      · refine List.pairwise_cons.2 ⟨fun c hc => ?_, ih hr.2⟩
        rcases mem_insertCell hc with rfl | hc
        · simp; omega
        · exact hr.1 c hc

theorem mem_putCell {l : List (Nat × Int)} {a : Nat} {v : Int} {c : Nat × Int}
    (h : c ∈ putCell l a v) : (c = (a, v) ∧ v ≠ 0) ∨ c ∈ l := by
  unfold putCell at h
  split at h
  · exact .inr (List.mem_filter.1 h).1
  · rename_i hv
    exact (mem_insertCell h).imp (fun e => ⟨e, hv⟩) id

theorem pairwise_putCell {l : List (Nat × Int)} (hs : l.Pairwise fun c d => c.1 < d.1) (a : Nat)
    (v : Int) : (putCell l a v).Pairwise fun c d => c.1 < d.1 := by
  unfold putCell
  split
  · exact hs.filter _
  · exact pairwise_insertCell hs a v

theorem mem_insertKey {l : List Nat} {a b : Nat} : b ∈ insertKey l a ↔ b = a ∨ b ∈ l := by
  induction l with
  | nil => simp [insertKey]
  | cons c r ih =>
    simp only [insertKey]
    split
    · simp
    · split
      · rename_i h; subst h; simp
      · simp only [List.mem_cons, ih]; tauto

theorem pairwise_insertKey {l : List Nat} (hs : l.Pairwise (· < ·)) (a : Nat) :
    (insertKey l a).Pairwise (· < ·) := by
  induction l with
  | nil => simp [insertKey]
  | cons b r ih =>
    have hr := List.pairwise_cons.1 hs
    simp only [insertKey]
    split
    · rename_i h
      refine List.pairwise_cons.2 ⟨fun c hc => ?_, hs⟩
      rcases List.mem_cons.1 hc with rfl | hc
      · exact h
      · exact Nat.lt_trans h (hr.1 c hc)
    · split
      · exact hs
      · refine List.pairwise_cons.2 ⟨fun c hc => ?_, ih hr.2⟩
        rcases mem_insertKey.1 hc with rfl | hc
        · omega
        · exact hr.1 c hc

/-! ## The controller -/

section controller
variable (T : Nat) (m : Memory) (a b : Nat) (v : Int)

@[simp] theorem Memory.touch_cells : (m.touch T a).cells = m.cells := by
  unfold Memory.touch; split <;> rfl

@[simp] theorem Memory.touch_ovfKeys : (m.touch T a).ovfKeys = m.ovfKeys := by
  unfold Memory.touch; split <;> rfl

theorem Memory.touch_plen : (m.touch T a).plen = if a < T then max m.plen (a + 1) else m.plen := by
  unfold Memory.touch; split <;> rfl

@[simp] theorem Memory.touch_view : (m.touch T a).view b = m.view b := by simp [Memory.view]

@[simp] theorem Memory.touchRange_cells (n : Nat) : (m.touchRange T a n).cells = m.cells := by
  induction n generalizing m a with
  | zero => rfl
  | succ n ih => simp [Memory.touchRange, ih]

@[simp] theorem Memory.touchRange_view (n : Nat) : (m.touchRange T a n).view b = m.view b := by
  simp [Memory.view]

@[simp] theorem Memory.write_cells : (m.write T a v).cells = putCell m.cells a v := by
  unfold Memory.write; split <;> rfl

theorem Memory.write_plen : (m.write T a v).plen = if a < T then max m.plen (a + 1) else m.plen := by
  unfold Memory.write; split <;> rfl

theorem Memory.write_ovfKeys :
    (m.write T a v).ovfKeys = if a < T then m.ovfKeys else insertKey m.ovfKeys a := by
  unfold Memory.write; split <;> rfl

@[simp] theorem Memory.write_view : (m.write T a v).view b = if b = a then v else m.view b := by
  simp [Memory.view]

@[simp] theorem Memory.store_none : m.store T none = m := rfl

@[simp] theorem Memory.store_some : m.store T (some (a, v)) = m.write T a v := rfl

theorem Memory.empty_view : Memory.empty.view a = 0 := rfl

@[simp] theorem Memory.empty_wf : Memory.empty.wf = true := by decide

@[simp] theorem Memory.empty_tiersOk : Memory.empty.tiersOk T = true := by
  simp [Memory.empty, Memory.tiersOk]

variable {T m a v}

theorem Memory.wf_iff : m.wf = true ↔
    (m.cells.Pairwise fun c d => c.1 < d.1) ∧
      ∀ c ∈ m.cells, c.1 ≤ maxAddr ∧ c.2 ≠ 0 ∧ InVal c.2 := by
  simp [Memory.wf]

theorem Memory.tiersOk_iff : m.tiersOk T = true ↔
    m.plen ≤ T ∧ m.ovfKeys.Pairwise (· < ·) ∧ (∀ k ∈ m.ovfKeys, T ≤ k ∧ k ≤ maxAddr) ∧
      ∀ c ∈ m.cells, if c.1 < T then c.1 < m.plen else c.1 ∈ m.ovfKeys := by
  simp only [Memory.tiersOk, Bool.and_eq_true, decide_eq_true_eq, List.all_eq_true, and_assoc]

theorem Memory.wf_touch (h : m.wf = true) : (m.touch T a).wf = true := by
  simpa [Memory.wf] using h

theorem Memory.tiersOk_touch (h : m.tiersOk T = true) : (m.touch T a).tiersOk T = true := by
  rw [Memory.tiersOk_iff] at h ⊢
  obtain ⟨h1, h2, h3, h4⟩ := h
  simp only [Memory.touch_cells, Memory.touch_ovfKeys, Memory.touch_plen]
  refine ⟨?_, h2, h3, fun c hc => ?_⟩
  · split <;> omega
  · have := h4 c hc
    by_cases hT : c.1 < T
    · rw [if_pos hT] at this ⊢
      split <;> omega
    · rwa [if_neg hT] at this ⊢

theorem Memory.wf_touchRange {n : Nat} (h : m.wf = true) : (m.touchRange T a n).wf = true := by
  induction n generalizing m a with
  | zero => exact h
  | succ n ih => exact ih (Memory.wf_touch h)

theorem Memory.tiersOk_touchRange {n : Nat} (h : m.tiersOk T = true) :
    (m.touchRange T a n).tiersOk T = true := by
  induction n generalizing m a with
  | zero => exact h
  | succ n ih => exact ih (Memory.tiersOk_touch h)

theorem Memory.wf_write (h : m.wf = true) (ha : a ≤ maxAddr) (hv : InVal v) :
    (m.write T a v).wf = true := by
  rw [Memory.wf_iff] at h ⊢
  simp only [Memory.write_cells]
  refine ⟨pairwise_putCell h.1 a v, fun c hc => ?_⟩
  rcases mem_putCell hc with ⟨rfl, h0⟩ | hc
  · exact ⟨ha, h0, hv⟩
  · exact h.2 c hc

theorem Memory.tiersOk_write (h : m.tiersOk T = true) (ha : a ≤ maxAddr) :
    (m.write T a v).tiersOk T = true := by
  rw [Memory.tiersOk_iff] at h ⊢
  obtain ⟨h1, h2, h3, h4⟩ := h
  simp only [Memory.write_cells, Memory.write_ovfKeys, Memory.write_plen]
  by_cases hT : a < T
  · simp only [hT, if_true]
    refine ⟨by omega, h2, h3, fun c hc => ?_⟩
    rcases mem_putCell hc with ⟨rfl, -⟩ | hc
    · rw [if_pos hT]; simp
    · have := h4 c hc
      split <;> split at this <;> first | exact this | omega
  · simp only [hT, if_false]
    refine ⟨h1, pairwise_insertKey h2 a, fun k hk => ?_, fun c hc => ?_⟩
    · rcases mem_insertKey.1 hk with rfl | hk
      · exact ⟨Nat.le_of_not_lt hT, ha⟩
      · exact h3 k hk
    · rcases mem_putCell hc with ⟨rfl, -⟩ | hc
      · rw [if_neg hT]; exact mem_insertKey.2 (.inl rfl)
      · have := h4 c hc
        split <;> split at this <;> first | exact this | exact mem_insertKey.2 (.inr this) | omega

theorem Memory.wf_writeList {vs : List Int} (h : m.wf = true) (hl : a + vs.length ≤ maxAddr + 1)
    (hv : ∀ v ∈ vs, InVal v) : (m.writeList T a vs).wf = true := by
  induction vs generalizing m a with
  | nil => exact h
  | cons v vs ih =>
    simp only [List.length_cons] at hl
    exact ih (Memory.wf_write h (by omega) (hv v (by simp))) (by omega)
      fun w hw => hv w (List.mem_cons_of_mem _ hw)

theorem Memory.tiersOk_writeList {vs : List Int} (h : m.tiersOk T = true)
    (hl : a + vs.length ≤ maxAddr + 1) : (m.writeList T a vs).tiersOk T = true := by
  induction vs generalizing m a with
  | nil => exact h
  | cons v vs ih =>
    simp only [List.length_cons] at hl
    exact ih (Memory.tiersOk_write h (by omega)) (by omega)

/-- Every memory operation keeps the canonical form: reading one cell, reading a range, writing a cell of
the address space with a value of `Val`, and loading an image. -/
theorem Memory.operations_keep_wf (h : m.wf = true) :
    (m.touch T a).wf = true ∧ (∀ n, (m.touchRange T a n).wf = true) ∧
      (a ≤ maxAddr → InVal v → (m.write T a v).wf = true) ∧
      ∀ image : List Int, image.length ≤ maxAddr + 1 → (∀ w ∈ image, InVal w) →
        (Memory.load T image).wf = true :=
  ⟨Memory.wf_touch h, fun _ => Memory.wf_touchRange h, Memory.wf_write h, fun _ hl hv =>
    Memory.wf_writeList Memory.empty_wf (by omega) hv⟩

theorem Memory.writeList_view (vs : List Int) (m : Memory) (a : Nat) :
    (m.writeList T a vs).view b = if a ≤ b ∧ b < a + vs.length then vs.getD (b - a) 0 else m.view b := by
  induction vs generalizing m a with
  | nil => simp only [Memory.writeList, List.length_nil]; rw [if_neg (by omega)]
  | cons v vs ih =>
    simp only [Memory.writeList, ih, Memory.write_view, List.length_cons]
    by_cases h1 : b = a
    · subst h1; simp
    · by_cases h2 : a ≤ b ∧ b < a + (vs.length + 1)
      · rw [if_pos (by omega), if_pos h2]
        obtain ⟨d, rfl⟩ : ∃ d, b = a + 1 + d := ⟨b - a - 1, by omega⟩
        simp [show a + 1 + d - a = d + 1 by omega]
      · rw [if_neg (by omega), if_neg h2, if_neg h1]

theorem Memory.view_inVal (h : m.wf = true) (a : Nat) : InVal (m.view a) := by
  by_cases h0 : m.view a = 0
  · rw [h0]; decide
  · exact ((Memory.wf_iff.1 h).2 _ (mem_of_look_ne h0)).2.2

theorem Memory.view_eq_of_cells {m n : Memory} (h : m.cells = n.cells) (a : Nat) :
    m.view a = n.view a := by simp [Memory.view, h]

end controller

end Sys2Proof.Machine
end

