-- ==== Sys2Proof/Laws/Values.lean ====
section
/-! SUPPORT. The range `Val` and the checks built on it. -/

namespace Sys2Proof.Machine

theorem minV_eq : minV = -9223372036854775808 := rfl

theorem maxV_eq : maxV = 9223372036854775807 := rfl

theorem maxAddr_eq : maxAddr = 9223372036854775807 := rfl

theorem inVal_zero : InVal 0 := by decide

theorem inVal_compareResult (b : Bool) : InVal (compareResult b) := by cases b <;> decide

theorem checked_of_inVal {v : Int} (h : InVal v) : checked v = .ok v := by simp [checked, h]

theorem checked_of_not {v : Int} (h : ¬ InVal v) :
    checked v = .error { cause := .arithmeticOverflow, info := v } := by simp [checked, h]

/-- What `checked` can answer. -/
theorem checked_ok {v w : Int} (h : checked v = .ok w) : w = v ∧ InVal v := by
  by_cases hv : InVal v
  · rw [checked_of_inVal hv] at h
    exact ⟨(Except.ok.inj h).symm, hv⟩
  · rw [checked_of_not hv] at h
    cases h

end Sys2Proof.Machine
end

