-- ==== Sys2Proof/Laws/Operands.lean ====
section
/-! SUPPORT. What the resolution of parameters can answer: values and addresses where the terms of
Safety.lean say it resolves, the first fault where they say it does not, and memory that only reads have
touched. -/

namespace Sys2Proof.Machine

/-! ## Phases -/

section phases
variable {α β : Type}

@[simp] theorem Res.bind_ok (a : α) (m : Memory) (f : α → Memory → Res β) :
    (Res.ok a m).bind f = f a m := rfl

@[simp] theorem Res.bind_raise (r : Raise) (m : Memory) (f : α → Memory → Res β) :
    (Res.raise r m).bind f = .raise r m := rfl

@[simp] theorem Res.bind_hold (f : α → Memory → Res β) : (Res.hold : Res α).bind f = .hold := rfl

@[simp] theorem Res.ofExcept_ok (a : α) (m : Memory) : Res.ofExcept (.ok a) m = .ok a m := rfl

@[simp] theorem Res.ofExcept_error (e : Raise) (m : Memory) :
    (Res.ofExcept (.error e) m : Res α) = .raise e m := rfl

/-- `m'` is `m` after reads only: the same cells, and the tiers still in order. -/
def ReadsOnly (T : Nat) (m m' : Memory) : Prop :=
  m'.cells = m.cells ∧ (m.tiersOk T = true → m'.tiersOk T = true)

theorem ReadsOnly.refl (T : Nat) (m : Memory) : ReadsOnly T m m := ⟨rfl, id⟩

theorem ReadsOnly.trans {T : Nat} {m m' m'' : Memory} (h : ReadsOnly T m m') (h' : ReadsOnly T m' m'') :
    ReadsOnly T m m'' := ⟨h'.1.trans h.1, fun x => h'.2 (h.2 x)⟩

theorem ReadsOnly.touch (T : Nat) (m : Memory) (a : Nat) : ReadsOnly T m (m.touch T a) :=
  ⟨by simp, Memory.tiersOk_touch⟩

theorem ReadsOnly.touchRange (T : Nat) (m : Memory) (a n : Nat) : ReadsOnly T m (m.touchRange T a n) :=
  ⟨by simp, Memory.tiersOk_touchRange⟩

theorem ReadsOnly.view {T : Nat} {m m' : Memory} (h : ReadsOnly T m m') (a : Nat) :
    m'.view a = m.view a := Memory.view_eq_of_cells h.1 a

theorem ReadsOnly.wf {T : Nat} {m m' : Memory} (h : ReadsOnly T m m') (hw : m.wf = true) :
    m'.wf = true := by rw [Memory.wf_iff] at hw ⊢; rwa [h.1]

/-- A phase only reads memory, and its result has `P`. -/
def Res.Reads (T : Nat) (m : Memory) (P : α → Prop) : Res α → Prop
  | .ok a m' => ReadsOnly T m m' ∧ P a
  | .raise _ m' => ReadsOnly T m m'
  | .hold => True

theorem Res.Reads.bind {T : Nat} {m : Memory} {P : α → Prop} {Q : β → Prop} {r : Res α}
    {f : α → Memory → Res β} (h : r.Reads T m P)
    (hf : ∀ a m', ReadsOnly T m m' → P a → (f a m').Reads T m Q) : (r.bind f).Reads T m Q := by
  cases r with
  | ok a m' => exact hf a m' h.1 h.2
  | raise e m' => exact h
  | hold => trivial

theorem Res.Reads.ofExcept {T : Nat} {m m' : Memory} {P : α → Prop} {e : Except Raise α}
    (hm : ReadsOnly T m m') (h : ∀ a, e = .ok a → P a) : (Res.ofExcept e m').Reads T m P := by
  cases e with
  | ok a => exact ⟨hm, h a rfl⟩
  | error e => exact hm

end phases

/-! ## Effective addresses -/

variable {T : Nat} {x : Inst} {i : Nat} {mode : Mode} {m : Memory}

theorem toAddress_of_nonneg {a : Int} (h : 0 ≤ a) : toAddress a = .ok a.toNat := by
  simp [toAddress, Int.not_lt.2 h]

theorem toAddress_of_neg {a : Int} (h : a < 0) :
    toAddress a = .error { cause := .negativeAddress, info := a } := by simp [toAddress, h]

theorem toAddress_ok {a : Int} {n : Nat} (h : toAddress a = .ok n) : 0 ≤ a ∧ n = a.toNat := by
  by_cases ha : a < 0
  · rw [toAddress_of_neg ha] at h; cases h
  · rw [toAddress_of_nonneg (Int.not_lt.1 ha)] at h
    exact ⟨Int.not_lt.1 ha, (Except.ok.inj h).symm⟩

theorem Inst.raw_eq : x.raw i = x.mem.view (x.pc + 1 + i) := rfl

theorem Inst.raw_add_rb : x.raw i + x.rb = x.relSum i := rfl

/-- The address a parameter names, where it names one. -/
theorem Inst.effAddr_of_destOk (h : x.DestOk i mode) : x.effAddr i mode = .ok (x.dest i mode) := by
  cases mode with
  | position => exact toAddress_of_nonneg h
  | immediate => cases h
  | relative =>
    have hv : InVal (x.relSum i) := ⟨by rw [minV_eq]; have := h.1; omega, h.2⟩
    simp only [Inst.effAddr, Inst.raw_add_rb, checked_of_inVal hv]
    exact toAddress_of_nonneg h.1

theorem effAddr_sum_of_fault {a : Int} {c : Cause} {info : Int} (h : sumFault a = some (c, info)) :
    (checked a).bind toAddress = .error { cause := c, info := info } := by
  unfold sumFault negativeFault at h
  split at h
  · rename_i hv
    rw [checked_of_inVal hv]
    split at h
    · rename_i hn
      obtain ⟨rfl, rfl⟩ := Prod.mk.inj (Option.some.inj h)
      exact toAddress_of_neg hn
    · cases h
  · rename_i hv
    obtain ⟨rfl, rfl⟩ := Prod.mk.inj (Option.some.inj h)
    rw [checked_of_not hv]; rfl

theorem toAddress_of_fault {a : Int} {c : Cause} {info : Int} (h : negativeFault a = some (c, info)) :
    toAddress a = .error { cause := c, info := info } := by
  unfold negativeFault at h
  split at h
  · rename_i hn
    obtain ⟨rfl, rfl⟩ := Prod.mk.inj (Option.some.inj h)
    exact toAddress_of_neg hn
  · cases h

/-- The fault a parameter raises, where it raises one. -/
theorem Inst.effAddr_of_destFault {c : Cause} {info : Int} (h : x.destFault i mode = some (c, info)) :
    x.effAddr i mode = .error { cause := c, info := info } := by
  cases mode with
  | position => exact toAddress_of_fault h
  | immediate =>
    obtain ⟨rfl, rfl⟩ := Prod.mk.inj (Option.some.inj h)
    rfl
  | relative => exact effAddr_sum_of_fault h

theorem negativeFault_none {a : Int} : negativeFault a = none ↔ 0 ≤ a := by
  simp [negativeFault]

theorem sumFault_none {a : Int} : sumFault a = none ↔ 0 ≤ a ∧ a ≤ maxV := by
  unfold sumFault
  split
  · rename_i h; rw [negativeFault_none]; exact ⟨fun h0 => ⟨h0, h.2⟩, fun h0 => h0.1⟩
  · rename_i h
    simp only [reduceCtorEq, false_iff]
    intro h0
    exact h ⟨by rw [minV_eq]; omega, h0.2⟩

/-- A read parameter faults exactly when it does not resolve. -/
theorem Inst.readFault_none : x.readFault i mode = none ↔ x.ReadOk i mode := by
  cases mode with
  | position => exact negativeFault_none
  | immediate => simp [Inst.readFault, Inst.ReadOk]
  | relative => exact sumFault_none

/-- A write parameter faults exactly when it does not resolve. -/
theorem Inst.destFault_none : x.destFault i mode = none ↔ x.DestOk i mode := by
  cases mode with
  | position => exact negativeFault_none
  | immediate => simp [Inst.destFault, Inst.DestOk]
  | relative => exact sumFault_none

/-! ## Reading and naming operands -/

/-- What `ReadOperand` answers where the parameter resolves. -/
theorem Inst.readOperand_of_ok (h : x.ReadOk i mode) (hm : ReadsOnly T x.mem m) :
    ∃ m', x.readOperand T i mode m = .ok (x.operand i mode) m' ∧ ReadsOnly T x.mem m' := by
  cases mode with
  | immediate => exact ⟨m, rfl, hm⟩
  | position =>
    have h' : x.DestOk i .position := h
    refine ⟨m.touch T (x.dest i .position), ?_, hm.trans (.touch T m _)⟩
    simp only [Inst.readOperand, Inst.effAddr_of_destOk h', hm.view]; rfl
  | relative =>
    have h' : x.DestOk i .relative := h
    refine ⟨m.touch T (x.dest i .relative), ?_, hm.trans (.touch T m _)⟩
    simp only [Inst.readOperand, Inst.effAddr_of_destOk h', hm.view]; rfl

/-- What `ReadOperand` raises where the parameter does not resolve. -/
theorem Inst.readOperand_of_fault {c : Cause} {info : Int} (h : x.readFault i mode = some (c, info)) :
    x.readOperand T i mode m = .raise { cause := c, info := info } m := by
  cases mode with
  | immediate => cases h
  | position => simp only [Inst.readOperand, Inst.effAddr_of_destFault (mode := .position) h]
  | relative => simp only [Inst.readOperand, Inst.effAddr_of_destFault (mode := .relative) h]

theorem Inst.writeAddress_of_ok (h : x.DestOk i mode) :
    x.writeAddress i mode m = .ok (x.dest i mode) m := by
  simp [Inst.writeAddress, Inst.effAddr_of_destOk h]

theorem Inst.writeAddress_of_fault {c : Cause} {info : Int} (h : x.destFault i mode = some (c, info)) :
    x.writeAddress i mode m = .raise { cause := c, info := info } m := by
  simp [Inst.writeAddress, Inst.effAddr_of_destFault h]

theorem Inst.fetchParams_of_fits {n : Nat} (h : x.Fits n) :
    x.fetchParams T n = .ok () (x.mem.touchRange T (x.pc + 1) n) := by
  unfold Inst.fetchParams; exact if_pos h

theorem Inst.fetchParams_of_not {n : Nat} (h : ¬ x.Fits n) :
    x.fetchParams T n = .raise { cause := .pcOverflow, info := x.pc } x.mem := by
  unfold Inst.fetchParams; exact if_neg h

/-! ## What resolution can answer at all -/

theorem Inst.effAddr_le (hw : x.mem.wf = true) {a : Nat} (h : x.effAddr i mode = .ok a) :
    a ≤ maxAddr := by
  have key : ∀ v : Int, v ≤ maxV → toAddress v = .ok a → a ≤ maxAddr := by
    intro v hv ha
    obtain ⟨h0, rfl⟩ := toAddress_ok ha
    rw [maxV_eq] at hv; rw [maxAddr_eq]; omega
  cases mode with
  | position => exact key _ (Memory.view_inVal hw _).2 h
  | immediate => cases h
  | relative =>
    simp only [Inst.effAddr] at h
    cases hc : checked (x.raw i + x.rb) with
    | error e => rw [hc] at h; cases h
    | ok v =>
      rw [hc] at h
      obtain ⟨rfl, hv⟩ := checked_ok hc
      exact key _ hv.2 h

theorem Inst.reads_fetchParams {n : Nat} :
    (x.fetchParams T n).Reads T x.mem fun _ => x.pc + n + 1 ≤ maxAddr := by
  unfold Inst.fetchParams
  split
  · rename_i h; exact ⟨.touchRange T _ _ _, h⟩
  · exact ReadsOnly.refl T _

theorem Inst.reads_readOperand (hw : x.mem.wf = true) (hm : ReadsOnly T x.mem m) :
    (x.readOperand T i mode m).Reads T x.mem InVal := by
  unfold Inst.readOperand
  split
  · exact ⟨hm, Memory.view_inVal hw _⟩
  · split
    · exact ⟨hm.trans (.touch T m _), hm.view _ ▸ Memory.view_inVal hw _⟩
    · exact hm

theorem Inst.reads_writeAddress (hw : x.mem.wf = true) (hm : ReadsOnly T x.mem m) :
    (x.writeAddress i mode m).Reads T x.mem fun a => a ≤ maxAddr :=
  .ofExcept hm fun _ h => Inst.effAddr_le hw h

/-- Format `F1R`: the value is in `Val` and the successor is addressable. -/
theorem Inst.reads_resolveF1R (hw : x.mem.wf = true) {a : Mode} :
    (x.resolveF1R T a).Reads T x.mem fun v => x.pc + 2 ≤ maxAddr ∧ InVal v :=
  Inst.reads_fetchParams.bind fun _ _ hm hp => by
    have := Inst.reads_readOperand (i := 0) (mode := a) hw hm
    revert this
    cases x.readOperand T 0 a _ with
    | ok v m' => exact fun h => ⟨h.1, hp, h.2⟩
    | raise e m' => exact id
    | hold => exact id

/-- Format `F1W`: the address is an address and the successor is addressable. -/
theorem Inst.reads_resolveF1W (hw : x.mem.wf = true) {d : Mode} :
    (x.resolveF1W T d).Reads T x.mem fun a => x.pc + 2 ≤ maxAddr ∧ a ≤ maxAddr :=
  Inst.reads_fetchParams.bind fun _ _ hm hp => by
    have := Inst.reads_writeAddress (i := 0) (mode := d) hw hm
    revert this
    cases x.writeAddress 0 d _ with
    | ok v m' => exact fun h => ⟨h.1, hp, h.2⟩
    | raise e m' => exact id
    | hold => exact id

/-- Format `F2R`: both values are in `Val` and the successor is addressable. -/
theorem Inst.reads_resolveF2R (hw : x.mem.wf = true) {a b : Mode} :
    (x.resolveF2R T a b).Reads T x.mem fun r => x.pc + 3 ≤ maxAddr ∧ InVal r.1 ∧ InVal r.2 :=
  Inst.reads_fetchParams.bind fun _ _ hm hp =>
    (Inst.reads_readOperand hw hm).bind fun _ _ hm ha =>
      (Inst.reads_readOperand hw hm).bind fun _ _ hm hb => ⟨hm, hp, ha, hb⟩

/-- Format `F3`: both values are in `Val`, the destination is an address and so is the successor. -/
theorem Inst.reads_resolveF3 (hw : x.mem.wf = true) {a b d : Mode} :
    (x.resolveF3 T a b d).Reads T x.mem fun r =>
      x.pc + 4 ≤ maxAddr ∧ InVal r.1 ∧ InVal r.2.1 ∧ r.2.2 ≤ maxAddr :=
  Inst.reads_fetchParams.bind fun _ _ hm hp =>
    (Inst.reads_readOperand hw hm).bind fun _ _ hm ha =>
      (Inst.reads_readOperand hw hm).bind fun _ _ hm hb =>
        (Inst.reads_writeAddress hw hm).bind fun _ _ hm hd => ⟨hm, hp, ha, hb, hd⟩

/-! ## Whole formats, where every parameter resolves -/

variable {a b d : Mode}

theorem Inst.resolveF1R_of_ok (hf : x.Fits 1) (ha : x.ReadOk 0 a) :
    ∃ m', x.resolveF1R T a = .ok (x.operand 0 a) m' ∧ ReadsOnly T x.mem m' := by
  unfold Inst.resolveF1R
  rw [Inst.fetchParams_of_fits hf]
  exact Inst.readOperand_of_ok ha (.touchRange T _ _ _)

theorem Inst.resolveF1W_of_ok (hf : x.Fits 1) (hd : x.DestOk 0 d) :
    ∃ m', x.resolveF1W T d = .ok (x.dest 0 d) m' ∧ ReadsOnly T x.mem m' := by
  refine ⟨x.mem.touchRange T (x.pc + 1) 1, ?_, .touchRange T _ _ _⟩
  unfold Inst.resolveF1W
  rw [Inst.fetchParams_of_fits hf, Res.bind_ok, Inst.writeAddress_of_ok hd]

theorem Inst.resolveF2R_of_ok (hf : x.Fits 2) (ha : x.ReadOk 0 a) (hb : x.ReadOk 1 b) :
    ∃ m', x.resolveF2R T a b = .ok (x.operand 0 a, x.operand 1 b) m' ∧ ReadsOnly T x.mem m' := by
  unfold Inst.resolveF2R
  rw [Inst.fetchParams_of_fits hf, Res.bind_ok]
  obtain ⟨m1, h1, r1⟩ := Inst.readOperand_of_ok (T := T) ha (.touchRange T _ _ _)
  rw [h1, Res.bind_ok]
  obtain ⟨m2, h2, r2⟩ := Inst.readOperand_of_ok (T := T) hb r1
  exact ⟨m2, by rw [h2]; rfl, r2⟩

theorem Inst.resolveF3_of_ok (hf : x.Fits 3) (ha : x.ReadOk 0 a) (hb : x.ReadOk 1 b)
    (hd : x.DestOk 2 d) :
    ∃ m', x.resolveF3 T a b d = .ok (x.operand 0 a, x.operand 1 b, x.dest 2 d) m' ∧
      ReadsOnly T x.mem m' := by
  unfold Inst.resolveF3
  rw [Inst.fetchParams_of_fits hf, Res.bind_ok]
  obtain ⟨m1, h1, r1⟩ := Inst.readOperand_of_ok (T := T) ha (.touchRange T _ _ _)
  rw [h1, Res.bind_ok]
  obtain ⟨m2, h2, r2⟩ := Inst.readOperand_of_ok (T := T) hb r1
  refine ⟨m2, ?_, r2⟩
  rw [h2, Res.bind_ok, Inst.writeAddress_of_ok hd]; rfl

/-! ## Whole formats, where a parameter does not resolve -/

variable {c : Cause} {info : Int}

theorem Inst.resolveF1R_of_fault (hf : x.Fits 1)
    (h : [x.readFault 0 a].findSome? id = some (c, info)) :
    ∃ m', x.resolveF1R T a = .raise { cause := c, info := info } m' ∧ ReadsOnly T x.mem m' := by
  unfold Inst.resolveF1R
  rw [Inst.fetchParams_of_fits hf]
  cases ha : x.readFault 0 a with
  | none => simp [ha] at h
  | some p =>
    simp only [ha, List.findSome?_cons_of_isSome, Option.isSome_some, id, Option.some.injEq] at h
    exact ⟨_, Inst.readOperand_of_fault (ha.trans (congrArg some h)), .touchRange T _ _ _⟩

theorem Inst.resolveF1W_of_fault (hf : x.Fits 1)
    (h : [x.destFault 0 d].findSome? id = some (c, info)) :
    ∃ m', x.resolveF1W T d = .raise { cause := c, info := info } m' ∧ ReadsOnly T x.mem m' := by
  unfold Inst.resolveF1W
  rw [Inst.fetchParams_of_fits hf]
  cases ha : x.destFault 0 d with
  | none => simp [ha] at h
  | some p =>
    simp only [ha, List.findSome?_cons_of_isSome, Option.isSome_some, id, Option.some.injEq] at h
    exact ⟨_, Inst.writeAddress_of_fault (ha.trans (congrArg some h)), .touchRange T _ _ _⟩

theorem Inst.resolveF2R_of_fault (hf : x.Fits 2)
    (h : [x.readFault 0 a, x.readFault 1 b].findSome? id = some (c, info)) :
    ∃ m', x.resolveF2R T a b = .raise { cause := c, info := info } m' ∧ ReadsOnly T x.mem m' := by
  unfold Inst.resolveF2R
  rw [Inst.fetchParams_of_fits hf, Res.bind_ok]
  cases ha : x.readFault 0 a with
  | some p =>
    simp only [ha, List.findSome?_cons_of_isSome, Option.isSome_some, id, Option.some.injEq] at h
    exact ⟨_, by rw [Inst.readOperand_of_fault (ha.trans (congrArg some h))]; rfl, .touchRange T _ _ _⟩
  | none =>
    obtain ⟨m1, h1, r1⟩ :=
      Inst.readOperand_of_ok (T := T) (Inst.readFault_none.1 ha) (.touchRange T _ (x.pc + 1) 2)
    rw [h1, Res.bind_ok]
    cases hb : x.readFault 1 b with
    | none => simp [ha, hb] at h
    | some p =>
      simp only [ha, hb, List.findSome?, id, Option.some.injEq] at h
      exact ⟨_, by rw [Inst.readOperand_of_fault (hb.trans (congrArg some h))]; rfl, r1⟩

theorem Inst.resolveF3_of_fault (hf : x.Fits 3)
    (h : [x.readFault 0 a, x.readFault 1 b, x.destFault 2 d].findSome? id = some (c, info)) :
    ∃ m', x.resolveF3 T a b d = .raise { cause := c, info := info } m' ∧ ReadsOnly T x.mem m' := by
  unfold Inst.resolveF3
  rw [Inst.fetchParams_of_fits hf, Res.bind_ok]
  cases ha : x.readFault 0 a with
  | some p =>
    simp only [ha, List.findSome?_cons_of_isSome, Option.isSome_some, id, Option.some.injEq] at h
    exact ⟨_, by rw [Inst.readOperand_of_fault (ha.trans (congrArg some h))]; rfl, .touchRange T _ _ _⟩
  | none =>
    obtain ⟨m1, h1, r1⟩ :=
      Inst.readOperand_of_ok (T := T) (Inst.readFault_none.1 ha) (.touchRange T _ (x.pc + 1) 3)
    rw [h1, Res.bind_ok]
    cases hb : x.readFault 1 b with
    | some p =>
      simp only [ha, hb, List.findSome?, id, Option.some.injEq] at h
      exact ⟨_, by rw [Inst.readOperand_of_fault (hb.trans (congrArg some h))]; rfl, r1⟩
    | none =>
      obtain ⟨m2, h2, r2⟩ := Inst.readOperand_of_ok (T := T) (Inst.readFault_none.1 hb) r1
      rw [h2, Res.bind_ok]
      cases hd : x.destFault 2 d with
      | none => simp [ha, hb, hd] at h
      | some p =>
        simp only [ha, hb, hd, List.findSome?, id, Option.some.injEq] at h
        exact ⟨_, by rw [Inst.writeAddress_of_fault (hd.trans (congrArg some h))]; rfl, r2⟩

end Sys2Proof.Machine
end

