-- ==== Sys2Proof/Laws/Exec.lean ====
section
/-! SUPPORT. What the end of a step does to the state (commit, fault, halt), and, once for all instructions,
every case in which `exec` can end. -/

namespace Sys2Proof.Machine

variable {s : State} {x : Inst} {m : Memory} {e : Effect} {r : Raise}

/-! ## Commit -/

@[simp] theorem State.commit_params : (s.commit e m).params = s.params := by
  simp only [State.commit, State.commitChannels]; split <;> split <;> rfl
@[simp] theorem State.commit_relay : (s.commit e m).relay = s.relay := by
  simp only [State.commit, State.commitChannels]; split <;> split <;> rfl
@[simp] theorem State.commit_orch : (s.commit e m).orch = s.orch := by
  simp only [State.commit, State.commitChannels]; split <;> split <;> rfl
@[simp] theorem State.commit_hostTx : (s.commit e m).hostTx = s.hostTx := by
  simp only [State.commit, State.commitChannels]; split <;> split <;> rfl
@[simp] theorem State.commit_hostOut : (s.commit e m).hostOut = s.hostOut := by
  simp only [State.commit, State.commitChannels]; split <;> split <;> rfl
@[simp] theorem State.commit_schedule : (s.commit e m).schedule = s.schedule := by
  simp only [State.commit, State.commitChannels]; split <;> split <;> rfl
@[simp] theorem State.commit_turn : (s.commit e m).turn = s.turn := by
  simp only [State.commit, State.commitChannels]; split <;> split <;> rfl
@[simp] theorem State.commit_cur : (s.commit e m).cur = s.cur := by
  simp only [State.commit, State.commitChannels]; split <;> split <;> rfl

theorem State.commit_instances :
    (s.commit e m).instances = s.instances.set s.cur (s.inst.commit s.threshold e m) := by
  simp only [State.commit, State.commitChannels]; split <;> split <;> rfl

theorem State.commit_channels : (s.commit e m).channels = (s.commitChannels e).channels := rfl

theorem State.commit_inst (h : s.cur < s.instances.length) :
    (s.commit e m).inst = s.inst.commit s.threshold e m := by
  simp [State.inst, State.instAt, State.commit_instances, List.getD_eq_getElem?_getD, h]

theorem State.commit_sameElse : SameElse s (s.commit e m) := by
  refine ⟨by simp, by simp, by simp, by simp, by simp, by simp, by simp, by simp, ?_, fun k hk => ?_⟩
  · simp [State.commit_instances]
  · simp [State.commit_instances, List.getElem?_set_ne (Ne.symm hk)]

/-! ## Release, fault, halt -/

@[simp] theorem State.release_instances : s.release.instances = s.instances := rfl
@[simp] theorem State.release_cur : s.release.cur = s.cur := rfl
@[simp] theorem State.release_params : s.release.params = s.params := rfl
@[simp] theorem State.raise_params : (s.raise r m).params = s.params := rfl
@[simp] theorem State.raise_relay : (s.raise r m).relay = s.relay := rfl
@[simp] theorem State.raise_orch : (s.raise r m).orch = s.orch := rfl
@[simp] theorem State.raise_hostTx : (s.raise r m).hostTx = s.hostTx := rfl
@[simp] theorem State.raise_hostOut : (s.raise r m).hostOut = s.hostOut := rfl
@[simp] theorem State.raise_schedule : (s.raise r m).schedule = s.schedule := rfl
@[simp] theorem State.raise_turn : (s.raise r m).turn = s.turn := rfl
@[simp] theorem State.raise_cur : (s.raise r m).cur = s.cur := rfl
@[simp] theorem State.raise_channels : (s.raise r m).channels = s.release.channels := rfl
@[simp] theorem State.haltInst_params : s.haltInst.params = s.params := rfl
@[simp] theorem State.haltInst_relay : s.haltInst.relay = s.relay := rfl
@[simp] theorem State.haltInst_orch : s.haltInst.orch = s.orch := rfl
@[simp] theorem State.haltInst_hostTx : s.haltInst.hostTx = s.hostTx := rfl
@[simp] theorem State.haltInst_hostOut : s.haltInst.hostOut = s.hostOut := rfl
@[simp] theorem State.haltInst_schedule : s.haltInst.schedule = s.schedule := rfl
@[simp] theorem State.haltInst_turn : s.haltInst.turn = s.turn := rfl
@[simp] theorem State.haltInst_cur : s.haltInst.cur = s.cur := rfl
@[simp] theorem State.haltInst_channels : s.haltInst.channels = s.release.channels := rfl

/-- The machine after a fault. -/
def Inst.raised (x : Inst) (r : Raise) (m : Memory) : Inst :=
  { x with
    mem := m
    status := .faulted
    fault := some { cause := r.cause, pc := x.pc, word := x.mem.view x.pc, info := r.info } }

theorem State.raise_instances : (s.raise r m).instances = s.instances.set s.cur (s.inst.raised r m) :=
  rfl

theorem State.haltInst_instances :
    s.haltInst.instances = s.instances.set s.cur { s.inst with status := .halted } := rfl

theorem State.raise_inst (h : s.cur < s.instances.length) :
    (s.raise r m).inst = s.inst.raised r m := by
  simp [State.inst, State.instAt, State.raise_instances, List.getD_eq_getElem?_getD, h]

theorem State.haltInst_inst (h : s.cur < s.instances.length) :
    s.haltInst.inst = { s.inst with status := .halted } := by
  simp [State.inst, State.instAt, State.haltInst_instances, List.getD_eq_getElem?_getD, h]

/-- What the release of both endpoints does to the channels. -/
theorem State.release_released (h : s.Wired) : Released s s.release := by
  obtain ⟨-, hi, ho, hne⟩ := h
  refine ⟨?_, ?_, ?_, fun j hj hj' => ?_⟩
  · simp only [State.release]
    rw [State.onChan_chan_ne _ _ _ _ hne.symm, State.onChan_chan _ _ _ ho]; rfl
  · simp only [State.release]
    rw [State.onChan_chan _ _ _ (by simpa using hi), State.onChan_chan_ne _ _ _ _ hne]; rfl
  · simp [State.release]
  · simp only [State.release]
    rw [State.onChan_get_ne _ _ _ _ hj', State.onChan_get_ne _ _ _ _ hj]

theorem State.raise_sameElse : SameElse s (s.raise r m) := by
  refine ⟨rfl, rfl, rfl, rfl, rfl, rfl, rfl, rfl, ?_, fun k hk => ?_⟩
  · simp [State.raise_instances]
  · simp [State.raise_instances, List.getElem?_set_ne (Ne.symm hk)]

theorem State.haltInst_sameElse : SameElse s s.haltInst := by
  refine ⟨rfl, rfl, rfl, rfl, rfl, rfl, rfl, rfl, ?_, fun k hk => ?_⟩
  · simp [State.haltInst_instances]
  · simp [State.haltInst_instances, List.getElem?_set_ne (Ne.symm hk)]

/-- What `raise` does (60_exceptions.md R230, R231). -/
theorem State.raise_faultedWith (h : s.Wired) (hm : ReadsOnly s.threshold s.inst.mem m) :
    FaultedWith s (s.raise r m) r.cause r.info :=
  ⟨by rw [State.raise_inst h.1]; rfl, fun a => by rw [State.raise_inst h.1]; exact hm.view a,
    State.release_released h, State.raise_sameElse⟩

/-! ## Finish -/

@[simp] theorem State.finish_ok : s.finish (.ok e m) = .next (s.commit e m) := rfl

@[simp] theorem State.finish_raise : s.finish (.raise r m) = .next (s.raise r m) := rfl

@[simp] theorem State.finish_hold : s.finish .hold = .next s := rfl

/-- An effect within the ranges of the machine: every number in `Val`, every address an address, and an
input value consumed only if there was one and it is what is stored. -/
structure EffectOk (s : State) (e : Effect) : Prop where
  pc : e.nextPc ≤ maxAddr
  store : ∀ a v, e.store = some (a, v) → a ≤ maxAddr ∧ InVal v
  rb : ∀ v, e.rb = some v → InVal v
  send : ∀ v, e.send = some v → InVal v
  consume : e.consume = true →
    ∃ a v, (s.chan s.inst.inp).recv = .value v ∧ e.store = some (a, v) ∧ e.send = none

/-- How the step of one machine can end. -/
inductive Ended (s : State) : State → Prop where
  | held : (s.chan s.inst.inp).recv = .empty → Ended s s
  | raised (r : Raise) (m : Memory) : ReadsOnly s.threshold s.inst.mem m → Ended s (s.raise r m)
  | committed (e : Effect) (m : Memory) :
      ReadsOnly s.threshold s.inst.mem m → EffectOk s e → Ended s (s.commit e m)
  | halted : Ended s s.haltInst

theorem State.finish_ended {p : Res Effect} (h : p.Reads s.threshold s.inst.mem (EffectOk s))
    (hh : p = .hold → (s.chan s.inst.inp).recv = .empty) {t : State} (ht : s.finish p = .next t) :
    Ended s t := by
  cases p with
  | ok e m => cases ht; exact .committed e m h.1 h.2
  | raise r m => cases ht; exact .raised r m h
  | hold => cases ht; exact .held (hh rfl)

/-- The format skeletons never hold. -/
theorem Inst.resolve_ne_hold (T : Nat) (x : Inst) (a b d : Mode) :
    x.resolveF1R T a ≠ .hold ∧ x.resolveF1W T d ≠ .hold ∧ x.resolveF2R T a b ≠ .hold ∧
      x.resolveF3 T a b d ≠ .hold := by
  have hf : ∀ n, x.fetchParams T n ≠ .hold := by
    intro n; unfold Inst.fetchParams; split <;> simp
  have hr : ∀ i md m, x.readOperand T i md m ≠ .hold := by
    intro i md m; unfold Inst.readOperand; split
    · simp
    · split <;> simp
  have hw : ∀ i md m, x.writeAddress i md m ≠ .hold := by
    intro i md m; unfold Inst.writeAddress; cases x.effAddr i md <;> simp
  have hb : ∀ {α β : Type} (p : Res α) (f : α → Memory → Res β), p ≠ .hold →
      (∀ a m, f a m ≠ .hold) → p.bind f ≠ .hold := by
    intro α β p f hp hf
    cases p with
    | ok a m => exact hf a m
    | raise r m => simp
    | hold => exact absurd rfl hp
  refine ⟨hb _ _ (hf 1) fun _ m => hr 0 a m, hb _ _ (hf 1) fun _ m => hw 0 d m,
    hb _ _ (hf 2) fun _ m => hb _ _ (hr 0 a m) fun _ m => hb _ _ (hr 1 b m) fun _ m => by simp,
    hb _ _ (hf 3) fun _ m => hb _ _ (hr 0 a m) fun _ m => hb _ _ (hr 1 b m) fun _ m =>
      hb _ _ (hw 2 d m) fun _ m => by simp⟩

theorem Res.bind_ne_hold {α β : Type} {p : Res α} {f : α → Memory → Res β} (hp : p ≠ .hold)
    (hf : ∀ a m, f a m ≠ .hold) : p.bind f ≠ .hold := by
  cases p with
  | ok a m => exact hf a m
  | raise r m => simp
  | hold => exact absurd rfl hp

theorem Res.ofExcept_ne_hold {α : Type} (e : Except Raise α) (m : Memory) :
    Res.ofExcept e m ≠ .hold := by cases e <;> simp

theorem runF3_ended {compute : Int → Int → Except Raise Int} {a b d : Mode} {t : State}
    (hw : s.inst.mem.wf = true) (hc : ∀ x y v, compute x y = .ok v → InVal x → InVal y → InVal v)
    (ht : s.runF3 compute a b d = .next t) : Ended s t := by
  refine State.finish_ended ?_ (fun h => ?_) ht
  · refine (Inst.reads_resolveF3 hw).bind fun q m hm hq => ?_
    refine (Res.Reads.ofExcept hm fun v hv => hc _ _ v hv hq.2.1 hq.2.2.1).bind fun v m hm hv => ?_
    exact ⟨hm, ⟨hq.1, fun a v' h => by cases h; exact ⟨hq.2.2.2, hv⟩, fun _ h => by simp at h,
      fun _ h => by simp at h, fun h => by simp at h⟩⟩
  · exact absurd h (Res.bind_ne_hold (Inst.resolve_ne_hold _ _ a b d).2.2.2 fun _ m =>
      Res.bind_ne_hold (Res.ofExcept_ne_hold _ m) fun _ m => by simp)

theorem runJump_ended {taken : Int → Bool} {c d : Mode} {t : State} (hw : s.inst.mem.wf = true)
    (ht : s.runJump taken c d = .next t) : Ended s t := by
  have key : ∀ v : Int, InVal v → ∀ n, toAddress v = .ok n → n ≤ maxAddr := by
    intro v hv n hn
    obtain ⟨h0, rfl⟩ := toAddress_ok hn
    have := hv.2; rw [maxV_eq] at this; rw [maxAddr_eq]; omega
  refine State.finish_ended ?_ (fun h => ?_) ht
  · refine (Inst.reads_resolveF2R hw).bind fun q m hm hq => ?_
    split
    · refine (Res.Reads.ofExcept (P := fun n => n ≤ maxAddr) hm fun n hn => key _ hq.2.2 n hn).bind
        fun n m hm hn => ?_
      exact ⟨hm, ⟨hn, fun _ _ h => by simp at h, fun _ h => by simp at h, fun _ h => by simp at h,
        fun h => by simp at h⟩⟩
    · exact ⟨hm, ⟨hq.1, fun _ _ h => by simp at h, fun _ h => by simp at h, fun _ h => by simp at h,
        fun h => by simp at h⟩⟩
  · refine absurd h (Res.bind_ne_hold (Inst.resolve_ne_hold _ _ c d d).2.2.1 fun q m => ?_)
    split
    · exact Res.bind_ne_hold (Res.ofExcept_ne_hold _ m) fun _ m => by simp
    · simp

theorem execInput_ended {d : Mode} {t : State} (hw : s.inst.mem.wf = true)
    (hq : ∀ v ∈ (s.chan s.inst.inp).queue, InVal v) (ht : execInput d s = .next t) : Ended s t := by
  refine State.finish_ended ?_ (fun h => ?_) ht
  · refine (Inst.reads_resolveF1W hw).bind fun a m hm ha => ?_
    split
    · rename_i v hv
      refine ⟨hm, ⟨ha.1, fun a' v' h => ?_, fun _ h => by simp at h, fun _ h => by simp at h,
        fun _ => ⟨a, v, hv, rfl, rfl⟩⟩⟩
      cases h
      refine ⟨ha.2, hq v ?_⟩
      unfold Channel.recv at hv
      split at hv
      · rename_i w l hl; cases hv; rw [hl]; simp
      · split at hv <;> cases hv
    · exact hm
    · trivial
  · unfold State.inputPhases at h
    cases hr : s.inst.resolveF1W s.threshold d with
    | hold => exact absurd hr (Inst.resolve_ne_hold _ _ d d d).2.1
    | raise e m => rw [hr] at h; cases h
    | ok a m =>
      rw [hr] at h
      simp only [Res.bind_ok] at h
      split at h
      · cases h
      · cases h
      · assumption

theorem execOutput_ended {a : Mode} {t : State} (hw : s.inst.mem.wf = true)
    (ht : execOutput a s = .next t) : Ended s t := by
  refine State.finish_ended ?_ (fun h => ?_) ht
  · refine (Inst.reads_resolveF1R hw).bind fun v m hm hv => ?_
    exact ⟨hm, ⟨hv.1, fun _ _ h => by simp at h, fun _ h => by simp at h,
      fun w h => by cases h; exact hv.2, fun h => by simp at h⟩⟩
  · exact absurd h (Res.bind_ne_hold (Inst.resolve_ne_hold _ _ a a a).1 fun _ m => by simp)

theorem execAdjustRelativeBase_ended {a : Mode} {t : State} (hw : s.inst.mem.wf = true)
    (ht : execAdjustRelativeBase a s = .next t) : Ended s t := by
  refine State.finish_ended ?_ (fun h => ?_) ht
  · refine (Inst.reads_resolveF1R hw).bind fun v m hm hv => ?_
    refine (Res.Reads.ofExcept (P := InVal) hm fun r hr => ?_).bind fun r m hm hr => ?_
    · obtain ⟨rfl, h⟩ := checked_ok hr; exact h
    · exact ⟨hm, ⟨hv.1, fun _ _ h => by simp at h, fun w h => by cases h; exact hr,
        fun _ h => by simp at h, fun h => by simp at h⟩⟩
  · exact absurd h (Res.bind_ne_hold (Inst.resolve_ne_hold _ _ a a a).1 fun _ m =>
      Res.bind_ne_hold (Res.ofExcept_ne_hold _ m) fun _ m => by simp)

/-- Everything `exec` can do, for every instruction: hold on an empty channel, fault, commit an effect within
the ranges of the machine, or halt. -/
theorem exec_ended {i : Instr} {t : State} (hw : s.inst.mem.wf = true)
    (hq : ∀ v ∈ (s.chan s.inst.inp).queue, InVal v) (ht : exec i s = .next t) : Ended s t := by
  cases i with
  | add a b d => exact runF3_ended hw (fun x y v h _ _ => (checked_ok h).1 ▸ (checked_ok h).2) ht
  | multiply a b d => exact runF3_ended hw (fun x y v h _ _ => (checked_ok h).1 ▸ (checked_ok h).2) ht
  | input d => exact execInput_ended hw hq ht
  | output a => exact execOutput_ended hw ht
  | jumpIfTrue c d => exact runJump_ended hw ht
  | jumpIfFalse c d => exact runJump_ended hw ht
  | lessThan a b d =>
    exact runF3_ended (compute := fun x y => .ok (lessThanResult x y)) hw
      (fun _ _ _ h _ _ => Except.ok.inj h ▸ inVal_compareResult _) ht
  | equals a b d =>
    exact runF3_ended (compute := fun x y => .ok (equalsResult x y)) hw
      (fun _ _ _ h _ _ => Except.ok.inj h ▸ inVal_compareResult _) ht
  | adjustRelativeBase a => exact execAdjustRelativeBase_ended hw ht
  | halt => cases ht; exact .halted

end Sys2Proof.Machine
end

