-- ==== Sys2Proof/Laws/PerInstr.lean ====
section
/-! SUPPORT. What holds of every instruction as syntax, one lemma per constructor. -/

namespace Sys2Proof.Laws.EncodedWord

/-- The word of a well-formed instruction has the instruction's opcode as its last two digits and no digit
above those of its modes (30_encoding.md R71, R86), and the instruction is 1 to 4 cells wide (R70). -/
def Statement (i : Instr) : Prop :=
  i.wellFormed = true →
    encode i % 100 = i.opcode ∧ 0 < encode i ∧ encode i < 10 ^ (i.width + 1) ∧
      1 ≤ i.width ∧ i.width ≤ 4

theorem add (a b dest : Mode) : Statement (.add a b dest) := by
  cases a <;> cases b <;> cases dest <;> unfold Statement <;> decide

theorem multiply (a b dest : Mode) : Statement (.multiply a b dest) := by
  cases a <;> cases b <;> cases dest <;> unfold Statement <;> decide

theorem input (dest : Mode) : Statement (.input dest) := by cases dest <;> unfold Statement <;> decide

theorem output (a : Mode) : Statement (.output a) := by cases a <;> unfold Statement <;> decide

theorem jumpIfTrue (cond target : Mode) : Statement (.jumpIfTrue cond target) := by
  cases cond <;> cases target <;> unfold Statement <;> decide

theorem jumpIfFalse (cond target : Mode) : Statement (.jumpIfFalse cond target) := by
  cases cond <;> cases target <;> unfold Statement <;> decide

theorem lessThan (a b dest : Mode) : Statement (.lessThan a b dest) := by
  cases a <;> cases b <;> cases dest <;> unfold Statement <;> decide

theorem equals (a b dest : Mode) : Statement (.equals a b dest) := by
  cases a <;> cases b <;> cases dest <;> unfold Statement <;> decide

theorem adjustRelativeBase (a : Mode) : Statement (.adjustRelativeBase a) := by
  cases a <;> unfold Statement <;> decide

theorem halt : Statement .halt := by unfold Statement; decide

end Sys2Proof.Laws.EncodedWord
end

