-- ==== Sys2Proof/Laws/Step.lean ====
section
/-! SUPPORT. What `step` can do, said once: who is chosen, and what the chosen agent's step is. -/

namespace Sys2Proof.Machine

variable {s t : State} {ag : Agent} {rest : List Agent}

@[simp] theorem State.advance_instances : (s.advance ag rest).instances = s.instances := rfl
@[simp] theorem State.advance_channels : (s.advance ag rest).channels = s.channels := rfl
@[simp] theorem State.advance_params : (s.advance ag rest).params = s.params := rfl
@[simp] theorem State.advance_relay : (s.advance ag rest).relay = s.relay := rfl
@[simp] theorem State.advance_orch : (s.advance ag rest).orch = s.orch := rfl
@[simp] theorem State.advance_hostTx : (s.advance ag rest).hostTx = s.hostTx := rfl
@[simp] theorem State.advance_hostOut : (s.advance ag rest).hostOut = s.hostOut := rfl
@[simp] theorem State.advance_schedule : (s.advance ag rest).schedule = rest := rfl
@[simp] theorem State.advance_turn : (s.advance ag rest).turn = s.turnAfter ag := rfl

/-- In the invariant the current machine exists and its endpoints are two different channels. -/
theorem State.Inv.wired (h : s.Inv) : s.Wired := by
  obtain ⟨h1, h2, h3, h4⟩ := h.2.1
  have hc : s.cur < s.instances.length := by omega
  have := h4 _ hc
  refine ⟨hc, ?_, ?_, ?_⟩ <;> (unfold State.inst; omega)

/-- A machine is held exactly when it waits for input. -/
theorem State.held_iff (s : State) (k : Nat) : s.held k = true ↔ s.WaitsForInput k := by
  unfold State.held State.WaitsForInput
  have hf : (s.focus k).fetchedWord = (s.instAt k).mem.view (s.instAt k).pc := rfl
  rw [hf]
  cases hd : decodeWord ((s.instAt k).mem.view (s.instAt k).pc) with
  | error e => simp
  | ok i =>
    cases i <;> simp
    rename_i dest
    unfold State.inputPhases
    by_cases h1 : (s.instAt k).Fits 1
    · by_cases h2 : (s.instAt k).DestOk 0 dest
      · obtain ⟨m, hm, -⟩ := Inst.resolveF1W_of_ok (T := s.threshold) (x := s.instAt k) h1 h2
        simp only [State.focus_inst, State.focus_threshold, State.focus_chan, hm, Res.bind_ok]
        cases hc : (s.chan (s.instAt k).inp).recv with
        | value v =>
          have hq : (s.chan (s.instAt k).inp).queue ≠ [] := by
            intro h
            simp [Channel.recv, h] at hc
            split at hc <;> cases hc
          simp [hq]
        | eos => simp [h1, h2, (Channel.recv_eos.mp hc).1, (Channel.recv_eos.mp hc).2]
        | empty => simp [h1, h2, (Channel.recv_empty.mp hc).1, (Channel.recv_empty.mp hc).2]
      · simp only [h2, false_and, and_false, iff_false]
        have h2' : (s.instAt k).destFault 0 dest ≠ none := fun h => h2 (Inst.destFault_none.mp h)
        obtain ⟨⟨c, info⟩, hc⟩ := Option.ne_none_iff_exists'.mp h2'
        obtain ⟨m, hm, -⟩ := Inst.resolveF1W_of_fault (T := s.threshold) (x := s.instAt k) (d := dest) h1
          (by simpa using hc)
        simp [hm]
    · simp only [h1, false_and, iff_false]
      unfold Inst.resolveF1W
      rw [show ((s.focus k).inst) = s.instAt k from rfl, Inst.fetchParams_of_not h1]
      simp

/-- `step` is the step of the chosen agent, or one of the two stops. -/
theorem step_cases :
    (∃ ag rest, s.choose = some (ag, rest) ∧ step s = runAgent ag (s.advance ag rest)) ∨
      (s.choose = none ∧ step s = .fault (if s.orch.done then .runOver else .stuck)) := by
  unfold step
  cases h : s.choose with
  | none => exact .inr ⟨rfl, rfl⟩
  | some c => exact .inl ⟨c.1, c.2, rfl, rfl⟩

/-- A machine's step: the fault of a word that does not decode, or the instruction. -/
theorem stepInst_cases :
    (∃ e, decodeWord s.fetchedWord = .error e ∧
        stepInst s = .next (s.fetch.raise (decodeRaise e) s.fetch.inst.mem)) ∨
      ∃ i, decodeWord s.fetchedWord = .ok i ∧ stepInst s = exec i s.fetch := by
  unfold stepInst
  cases h : decodeWord s.fetchedWord with
  | error e => exact .inl ⟨e, rfl, rfl⟩
  | ok i => exact .inr ⟨i, rfl, rfl⟩

/-- The schedule's choice is an entry of it with only unready entries before it. -/
theorem State.pickScheduled_some {l : List Agent} (h : s.pickScheduled l = some (ag, rest)) :
    s.ready ag = true ∧ ∃ skipped, l = skipped ++ ag :: rest ∧ ∀ a ∈ skipped, s.ready a = false := by
  induction l with
  | nil => cases h
  | cons a l ih =>
    unfold State.pickScheduled at h
    split at h
    · rename_i hr
      cases h
      exact ⟨hr, [], rfl, by simp⟩
    · rename_i hn
      obtain ⟨hr, sk, he, hs⟩ := ih h
      refine ⟨hr, a :: sk, by rw [he]; rfl, ?_⟩
      intro b hb
      rcases List.mem_cons.mp hb with rfl | hb
      · simpa using hn
      · exact hs b hb

theorem State.pickScheduled_none {l : List Agent} :
    s.pickScheduled l = none ↔ ∀ a ∈ l, s.ready a = false := by
  induction l with
  | nil => simp [State.pickScheduled]
  | cons a l ih =>
    unfold State.pickScheduled
    split <;> simp_all

/-- Every agent of the run, and no other, stands in the rotation. -/
theorem State.mem_rotation : ag ∈ s.rotation ↔ ag ∈ s.agents := by
  have h := List.take_append_drop s.turn s.agents
  constructor
  · intro hm
    rcases List.mem_append.mp hm with hm | hm
    · exact List.mem_of_mem_drop hm
    · exact List.mem_of_mem_take hm
  · intro hm
    rw [← h] at hm
    exact List.mem_append.mpr (List.mem_append.mp hm).symm

/-- Nobody is chosen exactly when no agent of the schedule or the run has a step. -/
theorem State.choose_none :
    s.choose = none ↔ (∀ a ∈ s.schedule, s.ready a = false) ∧ ∀ a ∈ s.agents, s.ready a = false := by
  unfold State.choose
  cases h : s.pickScheduled s.schedule with
  | some c =>
    obtain ⟨ag, rest⟩ := c
    obtain ⟨hr, sk, he, -⟩ := State.pickScheduled_some h
    simp only [reduceCtorEq, false_iff, not_and]
    intro hn
    have := hn ag (by rw [he]; simp)
    simp [hr] at this
  | none =>
    simp only [Option.map_eq_none_iff, List.find?_eq_none, State.mem_rotation]
    exact ⟨fun hn => ⟨State.pickScheduled_none.mp h, fun a ha => by simpa using hn a ha⟩,
      fun hn a ha => by simp [hn.2 a ha]⟩

end Sys2Proof.Machine
end

