-- ==== Sys2Proof/Tests/Slice0.lean ====
section
/-! SUPPORT. The model's own tests. The expected values are those of spec/95_test_vectors.md (V<n>), or
words written out from the encoding of 30_encoding.md. After them, one witness for the hypotheses of each
statement. -/

namespace Sys2Proof.Machine.Test

/-! ## Small states -/

/-- A machine with these cells from 0, its `pc` and its relative base. -/
def mk (cells : List Int) (pc : Nat := 0) (rb : Int := 0) : Inst :=
  { Inst.fresh 0 0 1 with mem := Memory.load 1000000 cells, pc := pc, rb := rb }

/-- That machine alone, with the contents of its input channel. -/
def one (x : Inst) (queue : List Int := []) (closed : Bool := false) : State :=
  { State.reset with
    params := { Config.resetParams with feed := .hostFed [] false }
    instances := [x]
    channels := [{ queue := queue, closed := closed, dropped := false }, Channel.fresh] }

/-- A single machine whose input channel was `queue` and which has ended with this status. -/
def ended (status : Status) (fault : Option FaultRecord) (queue : List Int := []) (out : List Int := []) :
    State :=
  { one (mk []) with
    instances := [{ mk [99] with status := status, fault := fault }]
    channels := [{ queue := queue, closed := true, dropped := true },
      { queue := out, closed := true, dropped := false }] }

/-- A fault record for the tests. -/
def record : FaultRecord := { cause := .unknownOpcode, pc := 0, word := 0, info := 0 }

/-- Parameters of two machines in the Feedback topology (V22). -/
def loop : Params :=
  { Config.resetParams with topology := .feedback, phase := [1, 2], names := [7, 8], image := [3, 5, 99] }

/-- Something about the current machine after the instruction. -/
def after (o : Host.Outcome State Fault Refusal) (p : State → Bool) : Bool :=
  match o with
  | .next t => p t
  | .fault _ => false
  | .refused _ => false

/-- The current machine has faulted with this cause and `info`. -/
def faulted (c : Cause) (info : Int) (t : State) : Bool :=
  decide (t.inst.status = .faulted) &&
    decide (t.inst.fault =
      some { cause := c, pc := t.inst.pc, word := t.inst.mem.view t.inst.pc, info := info }) &&
    (t.chan t.inst.out).closed && (t.chan t.inst.inp).dropped

/-! ## WellFormed: each check refuses an ill-formed term -/

theorem test_wellFormed_add : (Instr.add .position .position .immediate).wellFormed = false := by decide
theorem test_wellFormed_multiply : (Instr.multiply .position .position .immediate).wellFormed = false := by
  decide
theorem test_wellFormed_input : (Instr.input .immediate).wellFormed = false := by decide
theorem test_wellFormed_lessThan : (Instr.lessThan .position .position .immediate).wellFormed = false := by
  decide
theorem test_wellFormed_equals : (Instr.equals .position .position .immediate).wellFormed = false := by
  decide
theorem test_wellFormed_relative : (Instr.input .relative).wellFormed = true := by decide

/-! ## Decoding: words written out digit by digit, `E D C B A` with the opcode last (30_encoding.md R71) -/

/-- 2·10^4 + 0·10^3 + 1·10^2 + 01. -/
theorem test_decode_add : decodeWord 20101 = .ok (.add .immediate .position .relative) := by decide
/-- 0·10^4 + 1·10^3 + 0·10^2 + 02, of the source's V3 program. -/
theorem test_decode_multiply : decodeWord 1002 = .ok (.multiply .position .immediate .position) := by decide
/-- 2·10^2 + 03, of P3. -/
theorem test_decode_input : decodeWord 203 = .ok (.input .relative) := by decide
/-- 2·10^2 + 04, of V1. -/
theorem test_decode_output : decodeWord 204 = .ok (.output .relative) := by decide
/-- 2·10^3 + 1·10^2 + 05, of V15. -/
theorem test_decode_jumpIfTrue : decodeWord 2105 = .ok (.jumpIfTrue .immediate .relative) := by decide
/-- 1·10^3 + 0·10^2 + 06, of V1. -/
theorem test_decode_jumpIfFalse : decodeWord 1006 = .ok (.jumpIfFalse .position .immediate) := by decide
/-- 2·10^4 + 2·10^3 + 2·10^2 + 07, of P3. -/
theorem test_decode_lessThan : decodeWord 22207 = .ok (.lessThan .relative .relative .relative) := by decide
/-- 0·10^4 + 1·10^3 + 0·10^2 + 08, of V1. -/
theorem test_decode_equals : decodeWord 1008 = .ok (.equals .position .immediate .position) := by decide
/-- 1·10^2 + 09, of V1. -/
theorem test_decode_adjust : decodeWord 109 = .ok (.adjustRelativeBase .immediate) := by decide
/-- Unconsumed digits of any value (V10). -/
theorem test_decode_halt :
    decodeWord 99 = .ok .halt ∧ decodeWord 1199 = .ok .halt ∧ decodeWord 10099 = .ok .halt := by decide
/-- V10: unconsumed digits. -/
theorem test_decode_unconsumed :
    decodeWord 10004 = .ok (.output .position) ∧ decodeWord 10003 = .ok (.input .position) ∧
      decodeWord 11105 = .ok (.jumpIfTrue .immediate .immediate) := by decide
/-- V10: unknown opcodes, before the modes, and negative words. -/
theorem test_decode_unknown :
    ([0, 100, 10, 12, 98, 398, -1, -99].map decodeWord) =
      [.error (.unknownOpcode 0), .error (.unknownOpcode 100), .error (.unknownOpcode 10),
        .error (.unknownOpcode 12), .error (.unknownOpcode 98), .error (.unknownOpcode 398),
        .error (.unknownOpcode (-1)), .error (.unknownOpcode (-99))] := by decide
/-- V10: illegal write targets. -/
theorem test_decode_writeTarget :
    ([11101, 11107, 103, 1103].map decodeWord) =
      [.error (.illegalWriteTarget 2), .error (.illegalWriteTarget 2), .error (.illegalWriteTarget 0),
        .error (.illegalWriteTarget 0)] := by decide
/-- V10: illegal modes, the lowest index first. -/
theorem test_decode_illegalMode :
    ([301, 31101, 303, 304, 309, 3105, 10301, 11301].map decodeWord) =
      [.error (.illegalMode 0), .error (.illegalMode 2), .error (.illegalMode 0), .error (.illegalMode 0),
        .error (.illegalMode 0), .error (.illegalMode 1), .error (.illegalMode 0),
        .error (.illegalMode 0)] := by decide
/-- The encoder writes the words of V3 and P3 again. -/
theorem test_encode :
    encode (.multiply .position .immediate .position) = 1002 ∧
      encode (.lessThan .relative .relative .relative) = 22207 ∧ encode .halt = 99 := by decide
/-- The host's numbering: the word in the first 64-bit cell, two's complement. -/
theorem test_decodeTableWord :
    decodeTableWord 8 99 = some .halt ∧ decodeTableWord 256 (1002 + 2 ^ 64 * 5) =
        some (.multiply .position .immediate .position) ∧
      decodeTableWord 64 (2 ^ 64 - 1) = none := by decide

/-! ## One step of each instruction -/

/-- V11: the destination is also a source. -/
theorem test_add : after (exec (.add .position .immediate .position) (one (mk [1001, 4, -5, 4, 3])))
    (fun t => decide (t.inst.mem.view 4 = -2 ∧ t.inst.pc = 4)) = true := by decide
/-- V11: Relative destination. -/
theorem test_add_relative :
    after (exec (.add .immediate .immediate .relative) (one (mk [21101, 3, 4, 5] 0 10)))
      (fun t => decide (t.inst.mem.view 15 = 7 ∧ t.inst.mem.view 5 = 0)) = true := by decide
/-- V12: the negative end of the range. -/
theorem test_multiply : after
    (exec (.multiply .immediate .immediate .position) (one (mk [1102, 4294967296, -2147483648, 5])))
    (fun t => decide (t.inst.mem.view 5 = -9223372036854775808)) = true := by decide
/-- V12: 2^63 is out of the range. -/
theorem test_multiply_overflow : after
    (exec (.multiply .immediate .immediate .position) (one (mk [1102, -9223372036854775808, -1, 5])))
    (faulted .arithmeticOverflow 9223372036854775808) = true := by decide
/-- V13: the oldest value, and what stays in the queue. -/
theorem test_input : after (exec (.input .position) (one (mk [3, 5, 99]) [7, 8] true))
    (fun t => decide (t.inst.mem.view 5 = 7 ∧ (t.chan 0).queue = [8] ∧ t.inst.pc = 2)) = true := by decide
/-- V13: the destination first, then the end of the stream. -/
theorem test_input_ended :
    after (exec (.input .position) (one (mk [3, 5, 99]) [] true)) (faulted .inputAfterEndOfStream 0) = true ∧
      after (exec (.input .position) (one (mk [3, -1]) [] true)) (faulted .negativeAddress (-1)) = true := by
  decide
/-- V14: a Relative operand. -/
theorem test_output : after
    (exec (.output .relative) (one (mk [204, 2, 99, 0, 0, 0, 0, 0, 0, 0, 0, 0, 77] 0 10)))
    (fun t => decide ((t.chan 1).queue = [77] ∧ t.inst.pc = 2)) = true := by decide
/-- V14: a never-written cell reads 0 and lengthens the primary region. -/
theorem test_output_unwritten : after (exec (.output .position) (one (mk [4, 100, 99])))
    (fun t => decide ((t.chan 1).queue = [0] ∧ t.inst.mem.plen = 101)) = true := by decide
/-- V15: condition and target both Position. -/
theorem test_jumpIfTrue : after (exec (.jumpIfTrue .position .position) (one (mk [5, 3, 4, 2, 9])))
    (fun t => decide (t.inst.pc = 9)) = true := by decide
/-- V15: not taken, the target is resolved all the same. -/
theorem test_jumpIfTrue_not_taken :
    after (exec (.jumpIfTrue .immediate .position) (one (mk [105, 0, -1])))
      (faulted .negativeAddress (-1)) = true ∧
    after (exec (.jumpIfTrue .immediate .immediate) (one (mk [1105, 0, -1])))
      (fun t => decide (t.inst.pc = 3)) = true := by decide
/-- V15. -/
theorem test_jumpIfFalse : after (exec (.jumpIfFalse .immediate .immediate) (one (mk [1106, 0, 7])))
    (fun t => decide (t.inst.pc = 7)) = true := by decide
/-- V15: not taken. -/
theorem test_jumpIfFalse_not_taken : after (exec (.jumpIfFalse .position .position) (one (mk [6, 3, 4, 2, 9])))
    (fun t => decide (t.inst.pc = 3)) = true := by decide
/-- V16: signed, at the extremes. -/
theorem test_lessThan :
    after (exec (.lessThan .immediate .immediate .position)
      (one (mk [1107, -9223372036854775808, 9223372036854775807, 5])))
      (fun t => decide (t.inst.mem.view 5 = 1)) = true ∧
    after (exec (.lessThan .immediate .immediate .position) (one (mk [1107, 2, 2, 5])))
      (fun t => decide (t.inst.mem.view 5 = 0)) = true := by decide
/-- V16: the destination is replaced. -/
theorem test_lessThan_replaces : after
    (exec (.lessThan .position .position .position) (one (mk [7, 4, 5, 6, 3, 9, 88])))
    (fun t => decide (t.inst.mem.view 6 = 1)) = true := by decide
/-- V16. -/
theorem test_equals : after (exec (.equals .immediate .immediate .position) (one (mk [1108, -5, -5, 5])))
    (fun t => decide (t.inst.mem.view 5 = 1)) = true := by decide
/-- V16: the instruction overwrites its own word. -/
theorem test_equals_own_word : after (exec (.equals .position .position .position) (one (mk [8, 0, 0, 0])))
    (fun t => decide (t.inst.mem.view 0 = 1 ∧ t.inst.pc = 4)) = true := by decide
/-- V17: Relative, with the old base. -/
theorem test_adjust : after
    (exec (.adjustRelativeBase .relative) (one (mk [209, 2, 0, 0, 0, 0, 0, 0, 0, 0, 0, 0, 7] 0 10)))
    (fun t => decide (t.inst.rb = 17 ∧ t.inst.pc = 2)) = true := by decide
/-- V17: out of the range. -/
theorem test_adjust_overflow : after
    (exec (.adjustRelativeBase .immediate) (one (mk [109, -1] 0 (-9223372036854775808))))
    (faulted .arithmeticOverflow (-9223372036854775809)) = true := by decide
/-- V17: both endpoints released, the unread values stay (V21). -/
theorem test_halt : after (exec .halt (one (mk [99]) [5, 6]))
    (fun t => decide (t.inst.status = .halted ∧ t.inst.pc = 0 ∧
      t.channels = [{ queue := [5, 6], closed := false, dropped := true },
        { queue := [], closed := true, dropped := false }])) = true := by decide

/-! ## Faults -/

/-- V18: the successor must be addressable, `halt` exempt. -/
theorem test_top_of_memory :
    after (exec (.output .immediate) (one (mk [] 9223372036854775806)))
      (faulted .pcOverflow 9223372036854775806) = true ∧
    after (exec (.output .immediate) (one (mk [] 9223372036854775805)))
      (fun t => decide (t.inst.pc = 9223372036854775807)) = true ∧
    after (exec .halt (one (mk [] 9223372036854775807)))
      (fun t => decide (t.inst.status = .halted)) = true := by decide
/-- V19: the lowest parameter first, the range of a sum before its sign. -/
theorem test_priority :
    after (exec (.add .relative .relative .position) (one (mk [2201, 9223372036854775807, -100, 0] 0 1)))
      (faulted .arithmeticOverflow 9223372036854775808) = true ∧
    after (exec (.add .relative .relative .position) (one (mk [2201, -100, 9223372036854775807, 0] 0 1)))
      (faulted .negativeAddress (-99)) = true := by decide
/-- The codes of 60_exceptions.md R220. -/
theorem test_cause_codes :
    ([.unknownOpcode, .illegalWriteTarget, .inputAfterEndOfStream, .negativeAddress, .illegalMode,
      .arithmeticOverflow, .pcOverflow, .missingOutput, .parseError].map Cause.code) =
        [1, 2, 3, 4, 5, 6, 7, 8, 9] := by decide

/-! ## Memory and channels -/

/-- V6, in order, with `T = 4`. -/
def grown : Memory :=
  let m := (Memory.empty.read 4 2).2
  let m := (m.write 4 1 7).touch 4 3
  (m.write 4 4 0).write 4 9223372036854775807 (-1)

/-- V6. -/
theorem test_memory_tiers :
    (Memory.empty.read 4 2).2.primary = [0, 0, 0] ∧ grown.primary = [0, 7, 0, 0] ∧
      grown.ovf = [(4, 0), (9223372036854775807, -1)] ∧
      (grown.read 4 9223372036854775806) = (0, grown) ∧ grown.wf = true ∧ grown.tiersOk 4 = true := by decide
/-- V20: the image in the tiers, `T = 4`. -/
theorem test_memory_load :
    (Memory.load 4 [1101, 5, 6, 9, 4, 9, 99]).primary = [1101, 5, 6, 9] ∧
      (Memory.load 4 [1101, 5, 6, 9, 4, 9, 99]).ovf = [(4, 4), (5, 9), (6, 99)] := by decide
/-- Writing 0 removes the entry from the canonical list and leaves the key (log 8). -/
theorem test_memory_canonical :
    ((Memory.load 4 [5, 6]).write 4 1 0).cells = [(0, 5)] ∧
      (((Memory.empty.write 4 9 3).write 4 9 0).cells = [] ∧
        ((Memory.empty.write 4 9 3).write 4 9 0).ovfKeys = [9]) := by decide
/-- V21, the second sequence. -/
theorem test_channel_dropped :
    (((Channel.fresh.send 1).dropIn.send 2).closeOut) = { queue := [1], closed := true, dropped := true } := by
  decide
/-- V21, the first sequence. -/
theorem test_channel :
    Channel.fresh.recv = .empty ∧ ((Channel.fresh.send 5).send (-2)).recv = .value 5 ∧
      ((Channel.fresh.send 5).send (-2)).consume.closeOut.recv = .value (-2) ∧
      ((Channel.fresh.send 5).send (-2)).consume.closeOut.consume.recv = .eos := by decide

/-! ## Reset and the host's interface -/

/-- After P5's first step, `add #1, #1, [0]`: STATUS shows `pc`, `rb` and cell 0. -/
theorem test_status : after (step (one (mk [1101, 1, 1, 0])))
    (fun t => decide ((t.statusPort.machines.map fun v => (v.status, v.pc, v.rb, v.cell 0, v.cell 1)) =
      [(.running, 4, 0, 2, 1)])) = true := by decide

/-- `State.reset` is the LOAD of its parameters. -/
theorem test_reset_is_load : State.reset = State.reset.load Config.resetParams := by decide
theorem test_reset_memory : (State.reset.instAt 0).mem.wf = true := by decide
/-- The very next step runs the stored word: `output` of cell 0, the word itself. -/
theorem test_withFetchWord : after (step (State.reset.withFetchWord 8 4))
    (fun t => decide ((t.chan 1).queue = [4] ∧ (t.instAt 0).pc = 2)) = true := by decide
/-- V10: the word 0, which reset memory holds, is no instruction. -/
theorem test_first_step : after (step State.reset)
    (fun t => faulted .unknownOpcode 0 t && decide (t.inst.pc = 0)) = true := by decide
theorem test_core_reset : Sys2Proof.core.reset = State.reset := rfl
/-- V22: `3,5,99` in the Feedback topology, seeds of R202. -/
theorem test_load_feedback : (State.reset.load loop).channels =
    [{ queue := [1, 0], closed := false, dropped := false }, { queue := [2], closed := false, dropped := false },
      { queue := [], closed := false, dropped := false }] := by decide

/-! ## Witnesses: the hypotheses of each statement, met together by a concrete state and operands -/

/-- An endless loop of one instruction (V15), one round of the round robin later. -/
def looping : State := { one (mk [1106, 0, 0]) with turn := 1 }

/-- Two machines of the Linear topology with the channels between them. -/
def two (x y : Inst) (q0 q1 : List Int) : State :=
  { State.reset with
    params := { Config.resetParams with phase := [1, 2], names := [7, 8] }
    instances := [{ x with name := 7 }, { y with name := 8, inp := 1, out := 2 }]
    channels := [{ queue := q0, closed := true, dropped := false },
      { queue := q1, closed := false, dropped := false }, Channel.fresh] }

/-- The Feedback run of one machine that has ended, with these values waiting in the tap. -/
def tapRun (tap : List Int) : State :=
  { ended .halted none [] tap with
    params := { Config.resetParams with topology := .feedback }
    channels := [{ queue := [], closed := false, dropped := true },
      { queue := tap, closed := true, dropped := false }] }

/-- `s` with these transactions of the host waiting, the host next. -/
def hosted (s : State) (tx : List HostTx) : State := { s with hostTx := tx, schedule := [.host] }

theorem witness_UnknownOpcodesExactly :
    decodeWord (-1) = .error (.unknownOpcode (-1)) ∧ decodeWord 100 = .error (.unknownOpcode 100) ∧
      decodeWord 10 = .error (.unknownOpcode 10) ∧ decodeWord 98 = .error (.unknownOpcode 98) := by decide

theorem witness_BadModeDigitsLowestIndexFirst :
    decodeWord 301 = .error (.illegalMode 0) ∧ decodeWord 30001 = .error (.illegalMode 2) ∧
      decodeWord 10001 = .error (.illegalWriteTarget 2) ∧ decodeWord 103 = .error (.illegalWriteTarget 0) := by
  decide

theorem witness_HaltIgnoresModeDigits : (0 : Int) ≤ 99 ∧ (99 : Int) % 100 = 99 ∧ (1199 : Int) % 100 = 99 := by
  decide

theorem witness_StepRunsDecodedInstruction :
    (one (mk [1101, 20, 22, 7])).choose = some (.inst 0, []) ∧
      decodeWord (((one (mk [1101, 20, 22, 7])).instAt 0).mem.view ((one (mk [1101, 20, 22, 7])).instAt 0).pc) =
        .ok (.add .immediate .immediate .position) := by decide

/-- The state in which machine 0 of `s` is stepped by the round robin. -/
def stepped (s : State) : State := (s.advance (.inst 0) []).focus 0

theorem witness_StepFaultsOnUndecodableWord :
    ((one (mk [0])).choose = some (.inst 0, []) ∧ (stepped (one (mk [0]))).Wired ∧
      decodeWord (stepped (one (mk [0]))).fetchedWord = .error (.unknownOpcode 0)) ∧
    ((one (mk [303])).choose = some (.inst 0, []) ∧ (stepped (one (mk [303]))).Wired ∧
      decodeWord (stepped (one (mk [303]))).fetchedWord = .error (.illegalMode 0)) ∧
    ((one (mk [103])).choose = some (.inst 0, []) ∧ (stepped (one (mk [103]))).Wired ∧
      decodeWord (stepped (one (mk [103]))).fetchedWord = .error (.illegalWriteTarget 0)) := by
  unfold State.Wired; decide

theorem witness_NegativeWordFaults :
    (one (mk [-1])).choose = some (.inst 0, []) ∧ (stepped (one (mk [-1]))).Wired ∧
      (stepped (one (mk [-1]))).fetchedWord < 0 := by unfold State.Wired; decide

theorem witness_ShortestImages :
    Config.resetParams.ok = true ∧ State.reset.schedule = [] ∧ Config.resetParams.image = [] ∧
      { Config.resetParams with image := [99] }.ok = true := by decide

theorem witness_ChosenAgentHasStep :
    { State.reset with schedule := [.relay, .inst 0, .host] }.choose = some (.inst 0, [.host]) ∧
      { State.reset with schedule := [.relay] }.choose = some (.inst 0, []) := by decide

/-- A lone machine held at its `input`: nobody has a step. -/
def heldAlone : State := one (mk [3, 5, 99])

/-- A finished run. -/
def finished : State :=
  { ended .halted none [] [5] with orch := { Orchestrator.fresh with done := true, result := some 5 } }

theorem invariant_heldAlone : heldAlone.Inv := by
  simp only [State.Inv, State.Shape, Inst.Inv, State.ValuesOk, State.EndsOk]; decide

theorem invariant_finished : finished.Inv := by
  simp only [State.Inv, State.Shape, Inst.Inv, State.ValuesOk, State.EndsOk]; decide

theorem witness_StepStopsExactlyWhenNobodyCanStep :
    heldAlone.Inv ∧ step heldAlone = .fault .stuck ∧ finished.Inv ∧ step finished = .fault .runOver :=
  ⟨invariant_heldAlone, rfl, invariant_finished, rfl⟩

theorem invariant_looping : looping.Inv := by
  simp only [State.Inv, State.Shape, Inst.Inv, State.ValuesOk, State.EndsOk]; decide

/-- The run that stays at `looping`, for machine 0. -/
theorem witness_RoundRobinReachesEveryReadyAgent :
    looping.Inv ∧ looping.schedule = [] ∧ looping.hostTx = [] ∧ looping.turn ≤ looping.size + 2 ∧
      step looping = .next looping ∧ looping.ready (.inst 0) = true :=
  ⟨invariant_looping, rfl, rfl, by decide, rfl, by decide⟩

theorem witness_EffectiveAddresses :
    (mk [204, -1] 0 1).mem.view 1 = -1 ∧ (mk [204, -1] 0 1).relSum 0 = 0 ∧
      (mk [204, -1] 0 0).relSum 0 < 0 ∧ maxV < (mk [204, 1] 0 9223372036854775807).relSum 0 ∧
      (mk [204, -1] 0 (-9223372036854775808)).relSum 0 < minV := by decide

theorem witness_PcOverflowFaults :
    (one (mk [] 9223372036854775806)).Wired ∧ Instr.output .immediate ≠ .halt ∧
      maxAddr < (one (mk [] 9223372036854775806)).inst.pc + (Instr.output .immediate).width := by
  unfold State.Wired; decide

theorem witness_FirstUnresolvedParameterFaults :
    let s := one (mk [2201, -100, 9223372036854775807, 0] 0 1)
    let i := Instr.add .relative .relative .position
    s.Wired ∧ s.inst.pc + i.width ≤ maxAddr ∧ s.inst.firstFault i = some (.negativeAddress, -99) := by
  unfold State.Wired; decide

/-- V5: 30 and 12 as Position and as Relative operands, cell 22 as either destination. -/
theorem witness_AddressingModesDoNotMatter :
    let s := one (mk [2001, 10, 11, 22, 0, 0, 0, 0, 0, 0, 30, 12])
    (s.inst.DestOk 0 .position ∧ s.inst.DestOk 0 .relative ∧
      s.inst.dest 0 .position = s.inst.dest 0 .relative) ∧
    s.inst.ReadOk 0 .position ∧ s.inst.ReadOk 0 .relative ∧ s.inst.ReadOk 1 .position ∧
      s.inst.ReadOk 1 .relative ∧ s.inst.operand 0 .position = s.inst.operand 0 .relative ∧
      s.inst.operand 1 .position = s.inst.operand 1 .relative ∧ s.inst.DestOk 2 .position ∧
      s.inst.DestOk 2 .relative ∧ s.inst.dest 2 .position = s.inst.dest 2 .relative := by
  simp only [Inst.ReadOk, Inst.DestOk]; decide

/-- An `F3` instruction at the last `pc` it fits, with a Relative destination at the last address. -/
def f3 : State :=
  one { mk [] 9223372036854775803 with
        rb := 9223372036854775807
        mem := ((Memory.empty.write 1000000 9223372036854775804 6).write 1000000 9223372036854775805 7) }

theorem witness_AddStoresSum :
    f3.cur < f3.instances.length ∧ f3.inst.Fits 3 ∧ f3.inst.ReadOk 0 .position ∧
      f3.inst.ReadOk 1 .immediate ∧ f3.inst.DestOk 2 .relative ∧
      InVal (f3.inst.operand 0 .position + f3.inst.operand 1 .immediate) := by
  simp only [Inst.ReadOk, Inst.DestOk, Inst.Fits]; decide

theorem witness_MultiplyStoresProduct :
    f3.cur < f3.instances.length ∧ f3.inst.Fits 3 ∧ f3.inst.ReadOk 0 .immediate ∧
      f3.inst.ReadOk 1 .immediate ∧ f3.inst.DestOk 2 .relative ∧
      InVal (f3.inst.operand 0 .immediate * f3.inst.operand 1 .immediate) := by
  simp only [Inst.ReadOk, Inst.DestOk, Inst.Fits]; decide

theorem witness_LessThanStoresComparison :
    f3.cur < f3.instances.length ∧ f3.inst.Fits 3 ∧ f3.inst.ReadOk 0 .immediate ∧
      f3.inst.ReadOk 1 .immediate ∧ f3.inst.DestOk 2 .relative ∧
      f3.inst.operand 0 .immediate < f3.inst.operand 1 .immediate := by
  simp only [Inst.ReadOk, Inst.DestOk, Inst.Fits]; decide

theorem witness_EqualsStoresComparison :
    f3.cur < f3.instances.length ∧ f3.inst.Fits 3 ∧ f3.inst.ReadOk 0 .position ∧
      f3.inst.ReadOk 1 .position ∧ f3.inst.DestOk 2 .relative ∧
      f3.inst.operand 0 .position = f3.inst.operand 1 .position := by
  simp only [Inst.ReadOk, Inst.DestOk, Inst.Fits]; decide

theorem witness_InputStoresOldestValue :
    let s := one (mk [203, -10, 99] 0 10) [7, 8]
    s.Wired ∧ s.inst.Fits 1 ∧ s.inst.DestOk 0 .relative ∧ (s.chan s.inst.inp).queue = 7 :: [8] := by
  simp only [State.Wired, Inst.DestOk, Inst.Fits]; decide

theorem witness_InputHoldsOrFaultsOnEmptyChannel :
    (heldAlone.Wired ∧ heldAlone.inst.Fits 1 ∧ heldAlone.inst.DestOk 0 .position ∧
      (heldAlone.chan heldAlone.inst.inp).queue = [] ∧
      (heldAlone.chan heldAlone.inst.inp).closed = false) ∧
    let s := one (mk [3, 5, 99]) [] true
    s.Wired ∧ s.inst.Fits 1 ∧ s.inst.DestOk 0 .position ∧ (s.chan s.inst.inp).queue = [] ∧
      (s.chan s.inst.inp).closed = true := by
  simp only [State.Wired, Inst.DestOk, Inst.Fits]; decide

theorem witness_OutputSendsOperand :
    let s := one (mk [4, 3, 99, 55])
    s.Wired ∧ s.inst.Fits 1 ∧ s.inst.ReadOk 0 .position ∧ (s.chan s.inst.out).dropped = false ∧
      (s.onChan 1 Channel.dropIn).Wired ∧ ((s.onChan 1 Channel.dropIn).chan 1).dropped = true := by
  simp only [State.Wired, Inst.ReadOk, Inst.Fits]; decide

theorem witness_JumpIfTrueSetsPc :
    let s := one (mk [1105, 1, 0])
    s.cur < s.instances.length ∧ s.inst.Fits 2 ∧ s.inst.ReadOk 0 .immediate ∧
      s.inst.ReadOk 1 .immediate ∧ s.inst.operand 0 .immediate ≠ 0 ∧ 0 ≤ s.inst.operand 1 .immediate := by
  simp only [Inst.ReadOk, Inst.Fits]; decide

theorem witness_JumpIfFalseSetsPc :
    let s := one (mk [1106, 0, 9223372036854775807])
    s.cur < s.instances.length ∧ s.inst.Fits 2 ∧ s.inst.ReadOk 0 .immediate ∧
      s.inst.ReadOk 1 .immediate ∧ s.inst.operand 0 .immediate = 0 ∧ 0 ≤ s.inst.operand 1 .immediate := by
  simp only [Inst.ReadOk, Inst.Fits]; decide

theorem witness_TakenJumpToNegativeTargetFaults :
    (let s := one (mk [1105, 1, -1])
    s.Wired ∧ s.inst.Fits 2 ∧ s.inst.ReadOk 0 .immediate ∧ s.inst.ReadOk 1 .immediate ∧
      s.inst.operand 1 .immediate < 0 ∧ s.inst.operand 0 .immediate ≠ 0) ∧
    let s := one (mk [1105, 0, -1])
    s.Wired ∧ s.inst.Fits 2 ∧ s.inst.ReadOk 0 .immediate ∧ s.inst.ReadOk 1 .immediate ∧
      s.inst.operand 1 .immediate < 0 ∧ s.inst.operand 0 .immediate = 0 := by
  simp only [State.Wired, Inst.ReadOk, Inst.Fits]; decide

theorem witness_AdjustRelativeBaseAddsOperand :
    let s := one (mk [109, -9223372036854775808] 0 9223372036854775807)
    s.cur < s.instances.length ∧ s.inst.Fits 1 ∧ s.inst.ReadOk 0 .immediate ∧
      InVal (s.inst.rb + s.inst.operand 0 .immediate) := by
  simp only [Inst.ReadOk, Inst.Fits]; decide

theorem witness_HaltReleasesChannels : (one (mk [99] 9223372036854775807)).Wired := by
  unfold State.Wired; decide

theorem witness_ResultsOutsideValFault :
    (let s := one (mk [1101, 9223372036854775807, 1, 5])
    s.Wired ∧ s.inst.ReadOk 0 .immediate ∧ s.inst.Fits 3 ∧ s.inst.ReadOk 1 .immediate ∧
      s.inst.DestOk 2 .position ∧ ¬ InVal (s.inst.operand 0 .immediate + s.inst.operand 1 .immediate)) ∧
    (let s := one (mk [1102, -9223372036854775808, -1, 5])
    s.Wired ∧ s.inst.ReadOk 0 .immediate ∧ s.inst.Fits 3 ∧ s.inst.ReadOk 1 .immediate ∧
      s.inst.DestOk 2 .position ∧ ¬ InVal (s.inst.operand 0 .immediate * s.inst.operand 1 .immediate)) ∧
    let s := one (mk [109, 1] 0 9223372036854775807)
    s.Wired ∧ s.inst.ReadOk 0 .immediate ∧ s.inst.Fits 1 ∧
      ¬ InVal (s.inst.rb + s.inst.operand 0 .immediate) := by
  simp only [State.Wired, Inst.ReadOk, Inst.DestOk, Inst.Fits]; decide

/-- Two machines; the first one's `output` has a next state. -/
theorem witness_InstructionsTouchOnlyTheirOwnMachine :
    after (exec (.output .immediate) (two (mk [104, 5]) (mk [99]) [] [])) (fun t => decide ((t.chan 1).queue = [5]))
      = true := by decide

theorem witness_OnlyAdjustWritesRelativeBase :
    (∀ a, Instr.output .relative ≠ .adjustRelativeBase a) ∧
      after (exec (.output .relative) (one (mk [204, 0] 0 1))) (fun _ => true) = true :=
  ⟨fun _ h => (nomatch h), by decide⟩

theorem witness_RelativeBaseReadOnlyByRelativeMode :
    (one (mk [4, 3, 99, 55])).cur < (one (mk [4, 3, 99, 55])).instances.length ∧
      Mode.relative ∉ (Instr.output .position).modes ∧
      (∀ a, Instr.output .position ≠ .adjustRelativeBase a) ∧
      after (exec (.output .position) (one (mk [4, 3, 99, 55]))) (fun _ => true) = true :=
  ⟨by decide, by decide, fun _ h => (nomatch h), by decide⟩

theorem witness_TiersOnlyGrow :
    3 < 4 ∧ (Memory.load 4 [1, 2]).plen ≤ 3 ∧
      after (exec (.output .position) (one (mk [4, 100, 99]))) (fun _ => true) = true := by decide

/-- V6: cell 3 beside reads of it and writes to others, at the threshold too. -/
theorem witness_ReadsAreIdempotent :
    ∀ c ∈ [(3, none), (1, some 7), (4, some 0)], c.1 = 3 → c.2 = (none : Option Int) := by decide

theorem witness_ControllerRefinesTwoTiers :
    grown.wf = true ∧ grown.tiersOk 4 = true ∧ (3 : Nat) < 4 ∧ ¬ (4 : Nat) < 4 := by decide

/-- The same cells, reached by different writes. -/
theorem witness_CanonicalMemoriesAreEqualWhenTheyReadTheSame :
    let m := Memory.load 4 [5, 0, 6]
    let n := (Memory.load 4 [0, 7, 6]).write 4 0 5 |>.write 4 1 0
    m.wf = true ∧ n.wf = true ∧ ∀ a, m.view a = n.view a :=
  ⟨by decide, by decide, fun _ => rfl⟩

/-- V20: one machine under two thresholds, at an `output` of cell 50. -/
theorem witness_ThresholdCannotBeObserved :
    let s := one (mk [4, 50, 99])
    let t := { s with
      params := { s.params with threshold := 0 }
      instances := [{ mk [] with mem := Memory.load 0 [4, 50, 99] }] }
    s ≠ t ∧ s.visible = t.visible ∧ after (step s) (fun _ => true) = true := by decide

theorem witness_SendAndRecv :
    Channel.fresh.dropIn.dropped = true ∧ Channel.fresh.dropped = false ∧
      (Channel.fresh.send 5).queue = 5 :: [] ∧ Channel.fresh.queue = [] := by decide

theorem witness_ChannelDeliversInOrder :
    (Channel.fresh.send 5).dropped = false ∧ ((Channel.fresh.send 5).queue ++ [6])[1]? = some 6 ∧
      ((Channel.fresh.send 5).queue ++ [6])[2]? = none := by decide

/-- A machine about to read from a closed channel. -/
def reading : State := one (mk [3, 5, 99]) [7, 8] true

theorem invariant_reading : reading.Inv := by
  simp only [State.Inv, State.Shape, Inst.Inv, State.ValuesOk, State.EndsOk]; decide

theorem witness_ClosedChannelNeverGrows :
    reading.Inv ∧ reading.RunStep ∧ (reading.chan 0).closed = true ∧
      after (step reading) (fun t => decide ((t.chan 0).queue = [8])) = true :=
  ⟨invariant_reading, ⟨.inst 0, [], by decide⟩, by decide, by decide⟩

/-- A run of two machines: the first has ended, the second runs. -/
def halfDone : State :=
  { two { mk [99] with status := .halted } (mk [104, 5]) [] [9] with
    channels := [{ queue := [], closed := true, dropped := true },
      { queue := [9], closed := true, dropped := false }, Channel.fresh] }

theorem invariant_halfDone : halfDone.Inv := by
  simp only [State.Inv, State.Shape, Inst.Inv, State.ValuesOk, State.EndsOk]; decide

theorem witness_ChannelEndsAreFinal :
    halfDone.RunStep ∧ (halfDone.chan 1).closed = true ∧ (halfDone.chan 0).dropped = true ∧
      after (step halfDone) (fun _ => true) = true :=
  ⟨⟨.inst 1, [], by decide⟩, by decide, by decide, by decide⟩

theorem witness_EndedMachineIsInert :
    halfDone.Inv ∧ halfDone.RunStep ∧ (halfDone.instAt 0).status ≠ .running ∧
      after (step halfDone) (fun _ => true) = true :=
  ⟨invariant_halfDone, ⟨.inst 1, [], by decide⟩, by decide, by decide⟩

theorem witness_NobodyStepsAfterDone :
    (hosted finished [.recvOut]).orch.done = true ∧ (hosted finished [.recvOut]).choose = some (.host, []) := by
  decide

theorem invariant_tapRun (tap : List Int) (h : tap = [4] ∨ tap = []) : (tapRun tap).Inv := by
  rcases h with rfl | rfl <;>
    (simp only [State.Inv, State.Shape, Inst.Inv, State.ValuesOk, State.EndsOk]; decide)

theorem witness_RelayRemembersAndForwards :
    (tapRun [4]).Inv ∧ (tapRun [4]).choose = some (.relay, []) ∧
      ((tapRun [4]).chan (tapRun [4]).size).recv = .value 4 :=
  ⟨invariant_tapRun [4] (.inl rfl), by decide, by decide⟩

theorem witness_RelayClosesFirstChannelAtTheEnd :
    (tapRun []).Inv ∧ (tapRun []).choose = some (.relay, []) ∧ ((tapRun []).chan (tapRun []).size).recv = .eos :=
  ⟨invariant_tapRun [] (.inr rfl), by decide, by decide⟩

/-- Either side of each clause; V13: `3,-1` on an empty, open channel is no wait. -/
theorem witness_WhenAnAgentHasAStep :
    (heldAlone.ready (.inst 0) = false ∧ (one (mk [3, -1])).ready (.inst 0) = true ∧
      heldAlone.ready (.inst 1) = false) ∧
    ((tapRun [4]).ready .relay = true ∧ (tapRun []).ready .relay = true ∧
      { tapRun [] with channels := [Channel.fresh, Channel.fresh] }.ready .relay = false) ∧
    ((ended .halted none).ready .orchestrator = true ∧
      (ended .faulted (some record)).ready .orchestrator = true ∧
      (tapRun []).ready .orchestrator = false ∧ reading.ready .orchestrator = false) ∧
    ((hosted heldAlone [.recvOut]).ready .host = false ∧ (hosted finished [.recvOut]).ready .host = true ∧
      (hosted heldAlone [.dropOut]).ready .host = true) := by decide


theorem witness_FaultAbortsTheRun :
    (ended .faulted (some record)).choose = some (.orchestrator, []) ∧
      ∃ x ∈ (ended .faulted (some record)).instances, x.status = .faulted := by decide

theorem invariant_ended (out : List Int) (h : out = [4, 6] ∨ out = []) : (ended .halted none [] out).Inv := by
  rcases h with rfl | rfl <;>
    (simp only [State.Inv, State.Shape, Inst.Inv, State.ValuesOk, State.EndsOk]; decide)

/-- The same end of a run of the orchestrator's own, seeded and not fed by the host. -/
def endedSeeded : State := { ended .halted none with params := Config.resetParams }

theorem invariant_endedSeeded : endedSeeded.Inv := by
  simp only [State.Inv, State.Shape, Inst.Inv, State.ValuesOk, State.EndsOk]; decide

/-- With a value, the last one; and without, seeded and fed by the host (log 12). -/
theorem witness_CompletionReportsLastValue :
    ((ended .halted none [] [4, 6]).Inv ∧
      (ended .halted none [] [4, 6]).choose = some (.orchestrator, []) ∧
      (∀ x ∈ (ended .halted none [] [4, 6]).instances, x.status ≠ .faulted) ∧
      (ended .halted none [] [4, 6]).runResult = some 6) ∧
    (endedSeeded.Inv ∧ endedSeeded.choose = some (.orchestrator, []) ∧
      (∀ x ∈ endedSeeded.instances, x.status ≠ .faulted) ∧ endedSeeded.runResult = none) ∧
    (ended .halted none).Inv ∧ (ended .halted none).choose = some (.orchestrator, []) ∧
      (∀ x ∈ (ended .halted none).instances, x.status ≠ .faulted) ∧ (ended .halted none).runResult = none :=
  ⟨⟨invariant_ended _ (.inl rfl), by decide, by decide, by decide⟩,
    ⟨invariant_endedSeeded, by decide, by decide, by decide⟩,
    ⟨invariant_ended _ (.inr rfl), by decide, by decide, by decide⟩⟩


/-- Both machines have faulted: machine 0 is named. -/
theorem witness_StatusPresentsMachinesAndLowestFault :
    (two { mk [] with status := .faulted, fault := some record }
      { mk [] with status := .faulted, fault := some { record with pc := 4 } } [] []).faultReport =
        some (7, record) := by decide

/-- V20's image with cells on both sides of the threshold, for a machine the host feeds. -/
def fed : Params :=
  { Config.resetParams with
    threshold := 4
    image := [1101, 5, 6, 9, 4, 9, 99]
    feed := .hostFed [7, 8] true }

theorem witness_LoadResetsEverything :
    (loop.ok = true ∧ 1 < loop.phase.length) ∧ fed.ok = true ∧ fed.feed = .hostFed [7, 8] true ∧
      (4, 4) ∈ ((State.reset.load fed).instAt 0).mem.ovf ∧
      (3, 9) ∉ ((State.reset.load fed).instAt 0).mem.ovf ∧
      (7, 0) ∉ ((State.reset.load fed).instAt 0).mem.ovf := by decide


/-- Three stages, so that every clause has a `k`. -/
theorem witness_LinearSeeds :
    let p := { Config.resetParams with phase := [4, 3, 2], names := [0, 1, 2] }
    p.ok = true ∧ p.feed = .seeded ∧ p.topology = .linear ∧ 1 ≤ 2 ∧ 2 < p.phase.length := by decide

theorem witness_FeedbackSeeds :
    loop.ok = true ∧ loop.feed = .seeded ∧ loop.topology = .feedback ∧ 1 < loop.phase.length := by decide

/-- Transactions one state of the host-fed machine can have next: all but a receive that waits. -/
def hostFedTx : List HostTx :=
  [.send 3, .send (-9223372036854775808), .send 9223372036854775808, .closeIn, .dropOut, .load loop,
    .load { loop with names := [] }]

/-- The clauses of HOST_IN, of `DropIn` and of LOAD: port present, before and after the close. -/
theorem witness_HostTransactions_fed (closed : Bool) :
    ∀ x ∈ hostFedTx,
      (hosted (one (mk [99]) [] closed) [x]).Inv ∧
        (hosted (one (mk [99]) [] closed) [x]).choose = some (.host, []) ∧
        (hosted (one (mk [99]) [] closed) [x]).hasHostIn = true ∧
        ((hosted (one (mk [99]) [] closed) [x]).chan 0).closed = closed := by
  simp only [State.Inv, State.Shape, Inst.Inv, State.ValuesOk, State.EndsOk]
  cases closed <;> decide

/-- The clauses of HOST_OUT: a value waits, the stream has ended, the host has released its end. -/
theorem witness_HostTransactions_out :
    ((hosted (ended .halted none [] [4, 6]) [.recvOut]).Inv ∧
      (hosted (ended .halted none [] [4, 6]) [.recvOut]).choose = some (.host, []) ∧
      ((hosted (ended .halted none [] [4, 6]) [.recvOut]).chan 1).queue = 4 :: [6]) ∧
    ((hosted (ended .halted none) [.recvOut]).Inv ∧
      (hosted (ended .halted none) [.recvOut]).choose = some (.host, []) ∧
      ((hosted (ended .halted none) [.recvOut]).chan 1).queue = [] ∧
      ((hosted (ended .halted none) [.recvOut]).chan 1).dropped = false) ∧
    (hosted (ended .halted none) [.recvOut]).params.topology = .linear ∧
    ((hosted (ended .halted none) [.recvOut]).onChan 1 Channel.dropIn).Inv ∧
      ((hosted (ended .halted none) [.recvOut]).onChan 1 Channel.dropIn).choose = some (.host, []) ∧
      (((hosted (ended .halted none) [.recvOut]).onChan 1 Channel.dropIn).chan 1).dropped = true := by
  refine ⟨⟨?_, by decide, by decide⟩, ⟨?_, by decide, by decide, by decide⟩, by decide, ?_, by decide,
    by decide⟩ <;>
    (simp only [State.Inv, State.Shape, Inst.Inv, State.ValuesOk, State.EndsOk]; decide)

/-- The clauses of a port that is absent: the Feedback topology has neither HOST_IN nor HOST_OUT. -/
theorem witness_HostTransactions_absent :
    ∀ x ∈ [HostTx.send 3, .closeIn, .recvOut, .dropOut],
      (hosted (tapRun []) [x]).Inv ∧ (hosted (tapRun []) [x]).choose = some (.host, []) ∧
        (hosted (tapRun []) [x]).hasHostIn = false ∧
        (hosted (tapRun []) [x]).params.topology = .feedback := by
  simp only [State.Inv, State.Shape, Inst.Inv, State.ValuesOk, State.EndsOk]; decide

theorem witness_LoadEstablishesInvariant : Config.resetParams.ok = true ∧ loop.ok = true := by decide

theorem witness_StepKeepsInvariant : reading.Inv ∧ after (step reading) (fun _ => true) = true :=
  ⟨invariant_reading, by decide⟩

/-- A producer and a consumer of one channel, both with a step. -/
def pair : State := two (mk [104, 5, 99]) (mk [3, 9, 99]) [] [2]

theorem invariant_pair : pair.Inv := by
  simp only [State.Inv, State.Shape, Inst.Inv, State.ValuesOk, State.EndsOk]; decide

theorem witness_MachineStepsCommute :
    pair.Inv ∧ pair.ready (.inst 0) = true ∧ pair.ready (.inst 1) = true ∧
      after (runAgent (.inst 0) pair) (fun t => decide ((t.chan 1).queue = [2, 5])) = true ∧
      after (runAgent (.inst 1) pair) (fun t => decide ((t.chan 1).queue = [])) = true :=
  ⟨invariant_pair, by decide, by decide, by decide, by decide⟩

end Sys2Proof.Machine.Test
end

/-! SUPPORT. Who has a step, who is chosen, and that no instruction stops the model (00_scope.md R14, R15). -/

namespace Sys2Proof.Machine

/-! ## Every instruction answers a next state -/

/-- Committing, raising and holding are the three ends of a step, and each of them is a next state. -/
theorem State.finish_next (s : State) (p : Res Effect) : ∃ t, s.finish p = .next t := by
  cases p with
  | ok e m => exact ⟨_, State.finish_ok⟩
  | raise r m => exact ⟨_, State.finish_raise⟩
  | hold => exact ⟨_, State.finish_hold⟩

/-- Every arm but `halt` is `finish` of its phases. -/
theorem exec_next (i : Instr) (s : State) : ∃ t, exec i s = .next t := by
  cases i with
  | add a b dest => exact s.finish_next _
  | multiply a b dest => exact s.finish_next _
  | input dest => exact s.finish_next _
  | output a => exact s.finish_next _
  | jumpIfTrue cond target => exact s.finish_next _
  | jumpIfFalse cond target => exact s.finish_next _
  | lessThan a b dest => exact s.finish_next _
  | equals a b dest => exact s.finish_next _
  | adjustRelativeBase a => exact s.finish_next _
  | halt => exact ⟨s.haltInst, rfl⟩

/-! ## The chosen agent -/

/-- The choice is the schedule's, or, where the schedule has none, the round robin's with nothing left. -/
theorem State.choose_some {s : State} {ag : Agent} {rest : List Agent} :
    s.choose = some (ag, rest) ↔
      s.pickScheduled s.schedule = some (ag, rest) ∨
        (s.pickScheduled s.schedule = none ∧ s.rotation.find? s.ready = some ag ∧ rest = []) := by
  unfold State.choose
  cases s.pickScheduled s.schedule with
  | some c => simp
  | none => simp [eq_comm]

/-! ## Who has a step -/

theorem Channel.recv_ne_empty {c : Channel} : c.recv ≠ .empty ↔ c.queue ≠ [] ∨ c.closed = true := by
  rw [ne_eq, Channel.recv_empty, not_and_or, Bool.not_eq_false]

theorem State.finalChan_eq (s : State) : s.finalChan = s.chan s.size := rfl

theorem State.ready_inst_iff (s : State) (k : Nat) :
    s.ready (.inst k) = true ↔
      s.orch.done = false ∧ k < s.instances.length ∧ (s.instAt k).status = .running ∧
        ¬ s.WaitsForInput k := by
  rw [← State.held_iff]
  simp [State.ready, State.instReady, and_assoc]

theorem State.ready_relay_iff (s : State) :
    s.ready .relay = true ↔
      s.orch.done = false ∧ s.params.topology = .feedback ∧ s.relay.done = false ∧
        ((s.chan s.size).queue ≠ [] ∨ (s.chan s.size).closed = true) := by
  rw [← Channel.recv_ne_empty, ← State.finalChan_eq]
  simp [State.ready, State.relayReady, and_assoc]

theorem State.anyFaulted_iff (s : State) :
    s.anyFaulted = true ↔ ∃ x ∈ s.instances, x.status = .faulted := by simp [State.anyFaulted]

theorem State.allHalted_iff (s : State) :
    s.allHalted = true ↔ ∀ x ∈ s.instances, x.status = .halted := by simp [State.allHalted]

theorem Topology.eq_linear_or_iff {t : Topology} {p : Prop} :
    (t = .linear ∨ p) ↔ (t = .feedback → p) := by cases t <;> simp

/-- That no machine is `Faulted`, which completion asks for, adds nothing to the disjunction. -/
theorem State.ready_orchestrator_iff (s : State) :
    s.ready .orchestrator = true ↔
      s.orch.done = false ∧
        ((∃ x ∈ s.instances, x.status = .faulted) ∨
          ((∀ x ∈ s.instances, x.status = .halted) ∧
            (s.params.topology = .feedback → s.relay.done = true))) := by
  rw [← State.anyFaulted_iff, ← State.allHalted_iff, ← Topology.eq_linear_or_iff]
  cases h : s.anyFaulted <;> simp [State.ready, State.orchestratorReady, State.completeReady, h]

theorem State.hasHostOut_iff (s : State) : s.hasHostOut = true ↔ s.params.topology = .linear := by
  simp [State.hasHostOut]

/-- Of the transactions only `Recv` may have to wait. -/
theorem State.ready_host_iff (s : State) :
    s.ready .host = true ↔
      ∃ tx later, s.hostTx = tx :: later ∧
        (tx = .recvOut → s.params.topology = .linear → (s.chan s.size).dropped = false →
          (s.chan s.size).queue ≠ [] ∨ (s.chan s.size).closed = true) := by
  rw [← Channel.recv_ne_empty, ← State.hasHostOut_iff, ← State.finalChan_eq]
  cases h : s.hostTx with
  | nil => simp [State.ready, State.hostReady, h]
  | cons tx later =>
    cases tx with
    | recvOut =>
      cases ho : s.hasHostOut <;> cases hd : s.finalChan.dropped <;>
        simp [State.ready, State.hostReady, h, ho, hd]
    | load p => simp [State.ready, State.hostReady, h]
    | send v => simp [State.ready, State.hostReady, h]
    | closeIn => simp [State.ready, State.hostReady, h]
    | dropOut => simp [State.ready, State.hostReady, h]

/-! ## The statements -/

/-- Settles O13: every instruction ends in `finish` or is `halt`. -/
theorem everyInstructionAnswersNext : Obligations.EveryInstructionAnswersNext := exec_next

/-- Settles O10: the schedule's pick is its first ready entry; the round robin is asked only when it has
none. -/
theorem chosenAgentHasStep : Obligations.ChosenAgentHasStep := by
  intro s ag rest h
  rcases State.choose_some.mp h with hp | ⟨hn, hf, hr⟩
  · obtain ⟨hready, hskipped⟩ := State.pickScheduled_some hp
    exact ⟨hready, .inl hskipped⟩
  · exact ⟨List.find?_some hf, .inr ⟨hr, State.pickScheduled_none.mp hn⟩⟩

/-- Settles O49, agent by agent. -/
theorem whenAnAgentHasAStep : Obligations.WhenAnAgentHasAStep := fun s =>
  ⟨s.ready_inst_iff, s.ready_relay_iff, s.ready_orchestrator_iff, s.ready_host_iff⟩

end Sys2Proof.Machine

/-! SUPPORT. What a channel operation, a commit, a release and a step of each agent keep, and the invariant
of 10_state.md R39 from them. -/

namespace Sys2Proof.Machine

variable {s t : State} {x : Inst} {i j k : Nat} {f : Channel → Channel} {c : Channel} {v : Int}
  {e : Effect} {r : Raise} {m : Memory} {p : Params} {ag : Agent} {rest : List Agent}

/-! ## Channels: any relation an operation respects, and the values in the queues -/

/-- A reflexive relation that holds between the operated channel and its result holds at every index. -/
theorem State.onChan_rel {R : Channel → Channel → Prop} (hr : ∀ c, R c c)
    (hf : R (s.chan i) (f (s.chan i))) (j : Nat) : R (s.chan j) ((s.onChan i f).chan j) := by
  by_cases hj : j = i
  · subst hj
    by_cases hl : j < s.channels.length
    · rwa [State.onChan_chan s j f hl]
    · rw [State.onChan_of_le s j f (Nat.le_of_not_lt hl)]
      exact hr _
  · rw [State.onChan_chan_ne s i j f hj]
    exact hr _

/-- An operation that keeps `closed` of its channel keeps it at every index. -/
theorem State.onChan_closed (hf : (f (s.chan i)).closed = (s.chan i).closed) (j : Nat) :
    ((s.onChan i f).chan j).closed = (s.chan j).closed :=
  State.onChan_rel (R := fun c d => d.closed = c.closed) (fun _ => rfl) hf j

/-- An operation that keeps `dropped` of its channel keeps it at every index. -/
theorem State.onChan_dropped (hf : (f (s.chan i)).dropped = (s.chan i).dropped) (j : Nat) :
    ((s.onChan i f).chan j).dropped = (s.chan j).dropped :=
  State.onChan_rel (R := fun c d => d.dropped = c.dropped) (fun _ => rfl) hf j

/-- Every value waiting in the channel is in `Val` (R39 (b)). -/
def Channel.ValuesOk (c : Channel) : Prop := ∀ v ∈ c.queue, InVal v

theorem Channel.ValuesOk.send (h : c.ValuesOk) (hv : InVal v) : (c.send v).ValuesOk := by
  unfold Channel.send
  split
  · exact h
  · intro w hw
    rcases List.mem_append.mp hw with hw | hw
    · exact h w hw
    · rwa [List.mem_singleton.mp hw]

theorem Channel.ValuesOk.consume (h : c.ValuesOk) : c.consume.ValuesOk :=
  fun v hv => h v (List.mem_of_mem_tail hv)

/-- A received value was waiting. -/
theorem Channel.ValuesOk.recv (h : c.ValuesOk) (hv : c.recv = .value v) : InVal v :=
  h v (List.mem_of_mem_head? (Channel.recv_value.mp hv))

/-- Every value waiting in some channel is in `Val`. -/
def State.QueuesOk (s : State) : Prop := ∀ c ∈ s.channels, c.ValuesOk

theorem State.QueuesOk.onChan (h : s.QueuesOk) (hf : ∀ c : Channel, c.ValuesOk → (f c).ValuesOk) :
    (s.onChan i f).QueuesOk := by
  intro c hc
  rcases State.mem_onChan s i f hc with hc | ⟨hi, rfl⟩
  · exact h c hc
  · exact hf _ (h _ (State.chan_mem s i hi))

theorem State.QueuesOk.chan (h : s.QueuesOk) (i : Nat) : (s.chan i).ValuesOk := by
  by_cases hi : i < s.channels.length
  · exact h _ (State.chan_mem s i hi)
  · intro v hv
    simp [State.chan, List.getD_eq_getElem?_getD, hi, Channel.fresh] at hv

/-! ## The release of both endpoints -/

theorem State.release_closed (h : s.Wired) (j : Nat) :
    (s.release.chan j).closed = if j = s.inst.out then true else (s.chan j).closed := by
  obtain ⟨-, -, ho, -⟩ := h
  unfold State.release
  rw [State.onChan_closed rfl]
  split
  next hj => rw [hj, State.onChan_chan _ _ _ ho, Channel.closeOut_closed]
  next hj => rw [State.onChan_chan_ne _ _ _ _ hj]

theorem State.release_dropped (h : s.Wired) (j : Nat) :
    (s.release.chan j).dropped = if j = s.inst.inp then true else (s.chan j).dropped := by
  obtain ⟨-, hi, -, -⟩ := h
  unfold State.release
  split
  next hj => rw [hj, State.onChan_chan _ _ _ (by simpa using hi), Channel.dropIn_dropped]
  next hj => rw [State.onChan_chan_ne _ _ _ _ hj, State.onChan_dropped rfl]

@[simp] theorem State.release_instAt : s.release.instAt k = s.instAt k := rfl

theorem State.QueuesOk.release (h : s.QueuesOk) : s.release.QueuesOk :=
  (h.onChan (f := Channel.closeOut) fun _ hc => hc).onChan (f := Channel.dropIn) fun _ hc => hc

/-! ## The machines after an update of the current one -/

theorem State.setInst_instAt (h : s.cur < s.instances.length) :
    (s.setInst x).instAt k = if k = s.cur then x else s.instAt k := by
  split
  next hk => rw [hk]; exact State.setInst_inst s x h
  next hk => exact State.setInst_instAt_ne s x k hk

theorem State.Inv.inst (h : s.Inv) : s.inst.Inv s.threshold :=
  h.2.2.1 _ (State.instAt_mem s s.cur h.wired.1)

theorem State.Inv.queuesOk (h : s.Inv) : s.QueuesOk := h.2.2.2.1.1

/-- The endpoints of the current machine (48_pipeline_orchestrator.md R193). -/
theorem State.Inv.endpoints (h : s.Inv) : s.inst.inp = s.cur ∧ s.inst.out = s.cur + 1 :=
  h.2.1.2.2.2 _ h.wired.1

theorem Inst.Inv.reads {T : Nat} (h : x.Inv T) (hm : ReadsOnly T x.mem m) :
    ({ x with mem := m } : Inst).Inv T := by
  obtain ⟨hpc, hrb, hwf, htiers, hfault⟩ := h
  exact ⟨hpc, hrb, hm.wf hwf, hm.2 htiers, hfault⟩

theorem Inst.Inv.raised {T : Nat} (h : x.Inv T) (hm : ReadsOnly T x.mem m) : (x.raised r m).Inv T := by
  obtain ⟨hpc, hrb, hwf, htiers, -⟩ := h
  exact ⟨hpc, hrb, hm.wf hwf, hm.2 htiers, by simp [Inst.raised]⟩

/-- Only a running machine halts: a faulted one would keep its record. -/
theorem Inst.Inv.halted {T : Nat} (h : x.Inv T) (hx : x.status = .running) :
    ({ x with status := .halted } : Inst).Inv T := by
  obtain ⟨hpc, hrb, hwf, htiers, hfault⟩ := h
  rw [hx] at hfault
  exact ⟨hpc, hrb, hwf, htiers, by simpa using hfault⟩

theorem Memory.store_keeps {T : Nat} {st : Option (Nat × Int)} (hwf : m.wf = true)
    (htiers : m.tiersOk T = true) (hst : ∀ a v, st = some (a, v) → a ≤ maxAddr ∧ InVal v) :
    (m.store T st).wf = true ∧ (m.store T st).tiersOk T = true := by
  cases st with
  | none => exact ⟨hwf, htiers⟩
  | some av =>
    obtain ⟨ha, hv⟩ := hst av.1 av.2 rfl
    exact ⟨Memory.wf_write hwf ha hv, Memory.tiersOk_write htiers ha⟩

theorem Inst.Inv.commit (h : s.inst.Inv s.threshold) (hm : ReadsOnly s.threshold s.inst.mem m)
    (he : EffectOk s e) : (s.inst.commit s.threshold e m).Inv s.threshold := by
  obtain ⟨-, hrb, hwf, htiers, hfault⟩ := h
  obtain ⟨hwf', htiers'⟩ := Memory.store_keeps (hm.wf hwf) (hm.2 htiers) he.store
  refine ⟨he.pc, ?_, hwf', htiers', hfault⟩
  cases hr : e.rb with
  | none => simpa [Inst.commit, hr] using hrb
  | some v => simpa [Inst.commit, hr] using he.rb v hr

/-! ## The parts of the invariant -/

theorem State.Shape.onChan (h : s.Shape) : (s.onChan i f).Shape := by
  obtain ⟨hinsts, hchans, hcur, hbound⟩ := h
  exact ⟨hinsts, (State.onChan_length s i f).trans hchans, hcur, hbound⟩

theorem State.Shape.release (h : s.Shape) : s.release.Shape := h.onChan.onChan

theorem State.Shape.setInst (h : s.Shape) (hin : x.inp = s.inst.inp) (hout : x.out = s.inst.out) :
    (s.setInst x).Shape := by
  obtain ⟨hinsts, hchans, hcur, hbound⟩ := h
  have hc : s.cur < s.instances.length := hinsts ▸ hcur
  refine ⟨by simpa using hinsts, hchans, hcur, fun k hk => ?_⟩
  rw [State.setInst_length] at hk
  rw [State.setInst_instAt hc]
  split
  next hk' => subst hk'; rw [hin, hout]; exact hbound _ hk
  next => exact hbound k hk

/-- The same statuses, ends of channels and relay: the same R39 (e). -/
theorem State.EndsOk.of_same (h : s.EndsOk) (hl : t.instances.length = s.instances.length)
    (hs : ∀ k, (t.instAt k).status = (s.instAt k).status)
    (hc : ∀ j, (t.chan j).closed = (s.chan j).closed)
    (hd : ∀ j, (t.chan j).dropped = (s.chan j).dropped)
    (hp : t.params = s.params) (hr : t.relay.done = s.relay.done) : t.EndsOk := by
  unfold State.EndsOk at h ⊢
  simpa only [hl, hs, hc, hd, hp, hr] using h

/-- R39 (e) for machine `k`. -/
def State.MachineEnds (s : State) (k : Nat) : Prop :=
  ((s.instAt k).status = .running ↔ (s.chan (k + 1)).closed = false) ∧
    ((s.instAt k).status = .running ↔ (s.chan k).dropped = false)

/-- No machine produces into `c_0` and none consumes from `c_N`. -/
theorem State.MachineEnds.onChan (h : s.MachineEnds k)
    (hc : i = 0 ∨ (f (s.chan i)).closed = (s.chan i).closed)
    (hd : k < i ∨ (f (s.chan i)).dropped = (s.chan i).dropped) : (s.onChan i f).MachineEnds k := by
  have hclosed : ((s.onChan i f).chan (k + 1)).closed = (s.chan (k + 1)).closed := by
    rcases hc with rfl | hc
    · rw [State.onChan_chan_ne _ _ _ _ (Nat.succ_ne_zero k)]
    · exact State.onChan_closed hc _
  have hdropped : ((s.onChan i f).chan k).dropped = (s.chan k).dropped := by
    rcases hd with hd | hd
    · rw [State.onChan_chan_ne _ _ _ _ hd.ne]
    · exact State.onChan_dropped hd _
  rwa [State.MachineEnds, hclosed, hdropped]

/-! ## The invariant over an update of a channel or of the current machine -/

theorem State.Inv.onChan (h : s.Inv) (hv : ∀ c : Channel, c.ValuesOk → (f c).ValuesOk)
    (he : (s.onChan i f).EndsOk) : (s.onChan i f).Inv := by
  obtain ⟨hp, hshape, hinsts, ⟨hqueues, hvalues⟩, -⟩ := h
  exact ⟨hp, hshape.onChan, hinsts, ⟨State.QueuesOk.onChan hqueues hv, hvalues⟩, he⟩

/-- A send or a receive ends nothing. -/
theorem State.Inv.onChan_of_flags (h : s.Inv) (hv : ∀ c : Channel, c.ValuesOk → (f c).ValuesOk)
    (hc : (f (s.chan i)).closed = (s.chan i).closed)
    (hd : (f (s.chan i)).dropped = (s.chan i).dropped) : (s.onChan i f).Inv :=
  h.onChan hv (h.2.2.2.2.of_same rfl (fun _ => rfl) (State.onChan_closed hc) (State.onChan_dropped hd)
    rfl rfl)

theorem State.Inv.consume (h : s.Inv) : (s.onChan i Channel.consume).Inv :=
  h.onChan_of_flags (fun _ => .consume) rfl rfl

theorem State.Inv.send (h : s.Inv) (hv : InVal v) : (s.onChan i (Channel.send · v)).Inv :=
  h.onChan_of_flags (fun _ hc => hc.send hv) Channel.send_closed Channel.send_dropped

/-- The current machine replaced by one with the same status and endpoints. -/
theorem State.Inv.setInst (h : s.Inv) (hx : x.Inv s.threshold) (hs : x.status = s.inst.status)
    (hin : x.inp = s.inst.inp) (hout : x.out = s.inst.out) : (s.setInst x).Inv := by
  have hcur := h.wired.1
  obtain ⟨hp, hshape, hinsts, hvalues, hends⟩ := h
  refine ⟨hp, hshape.setInst hin hout, fun y hy => ?_, hvalues,
    hends.of_same (by simp) (fun k => ?_) (fun _ => rfl) (fun _ => rfl) rfl rfl⟩
  · rcases State.mem_setInst s x hy with hy | rfl
    · exact hinsts y hy
    · exact hx
  · rw [State.setInst_instAt hcur]
    split
    next hk => rw [hk]; exact hs
    next => rfl

/-- A running machine ends: both its endpoints are released (R163, R231). -/
theorem State.Inv.release_setInst (h : s.Inv) (hx : x.Inv s.threshold) (hs : x.status ≠ .running)
    (hin : x.inp = s.inst.inp) (hout : x.out = s.inst.out) : (s.release.setInst x).Inv := by
  have hw := h.wired
  obtain ⟨hinp, houtp⟩ := h.endpoints
  obtain ⟨hp, hshape, hinsts, ⟨hqueues, hvalues⟩, hends, hrelay⟩ := h
  refine ⟨hp, hshape.release.setInst hin hout, fun y hy => ?_, ⟨State.QueuesOk.release hqueues, hvalues⟩,
    fun k hk => ?_, fun htop => ?_⟩
  · rcases State.mem_setInst s.release x hy with hy | rfl
    · exact hinsts y hy
    · exact hx
  · rw [State.setInst_length] at hk
    rw [State.setInst_instAt (s := s.release) hw.1, State.setInst_chan, State.setInst_chan,
      State.release_closed hw, State.release_dropped hw, hinp, houtp]
    by_cases hc : k = s.cur
    · simp [hc, hs]
    · simpa [hc] using hends k hk
  · rw [State.setInst_chan, State.release_closed hw, houtp, if_neg (Nat.succ_ne_zero _).symm]
    exact hrelay htop

@[simp] theorem Inst.commit_status {T : Nat} : (x.commit T e m).status = x.status := rfl
@[simp] theorem Inst.commit_inp {T : Nat} : (x.commit T e m).inp = x.inp := rfl
@[simp] theorem Inst.commit_out {T : Nat} : (x.commit T e m).out = x.out := rfl

theorem State.Inv.commitChannels (h : s.Inv) (he : EffectOk s e) : (s.commitChannels e).Inv := by
  have hc : (if e.consume then s.onChan s.inst.inp Channel.consume else s).Inv := by
    split
    · exact h.consume
    · exact h
  unfold State.commitChannels
  cases hs : e.send with
  | none => exact hc
  | some v => exact hc.send (he.send v hs)

theorem State.commitChannels_instances : (s.commitChannels e).instances = s.instances := by
  unfold State.commitChannels
  split <;> split <;> rfl

theorem State.commitChannels_cur : (s.commitChannels e).cur = s.cur := State.commit_cur (m := s.inst.mem)

@[simp] theorem State.commitChannels_inst : (s.commitChannels e).inst = s.inst := by
  unfold State.inst State.instAt
  rw [State.commitChannels_instances, State.commitChannels_cur]

@[simp] theorem State.commitChannels_threshold : (s.commitChannels e).threshold = s.threshold :=
  congrArg Params.threshold (State.commit_params (m := s.inst.mem))

theorem State.Inv.commit (h : s.Inv) (hm : ReadsOnly s.threshold s.inst.mem m) (he : EffectOk s e) :
    (s.commit e m).Inv :=
  (h.commitChannels he).setInst (by simpa using h.inst.commit hm he) (by simp)
    (by simp) (by simp)

/-! ## The step of a machine -/

/-- However a running machine's step ends, the invariant holds after it. -/
theorem Ended.inv (h : s.Inv) (hs : s.inst.status = .running) (ht : Ended s t) : t.Inv := by
  cases ht with
  | held => exact h
  | raised r m hm => exact h.release_setInst (h.inst.raised hm) (by simp) rfl rfl
  | committed e m hm he => exact h.commit hm he
  | halted => exact h.release_setInst (h.inst.halted hs) (by simp) rfl rfl

theorem Ended.sameElse (ht : Ended s t) : SameElse s t := by
  cases ht with
  | held => exact ⟨rfl, rfl, rfl, rfl, rfl, rfl, rfl, rfl, rfl, fun _ _ => rfl⟩
  | raised => exact State.raise_sameElse
  | committed => exact State.commit_sameElse
  | halted => exact State.haltInst_sameElse

theorem State.Inv.advance (h : s.Inv) : (s.advance ag rest).Inv := h

theorem State.Inv.focus (h : s.Inv) (hk : k < s.instances.length) : (s.focus k).Inv := by
  obtain ⟨hp, ⟨hinsts, hchans, -, hbound⟩, hrest⟩ := h
  exact ⟨hp, ⟨hinsts, hchans, hinsts ▸ hk, hbound⟩, hrest⟩

theorem State.fetch_inst (h : s.cur < s.instances.length) :
    s.fetch.inst = { s.inst with mem := s.inst.mem.touch s.threshold s.inst.pc } :=
  State.setInst_inst _ _ h

theorem State.Inv.fetch (h : s.Inv) : s.fetch.Inv :=
  h.setInst (h.inst.reads (.touch _ _ _)) rfl rfl rfl

/-- A machine's whole step ends as one of its instructions does, in the state after the fetch. -/
theorem State.Inv.stepInst_ended (h : s.Inv) (ht : stepInst s = .next t) : Ended s.fetch t := by
  rcases stepInst_cases (s := s) with ⟨err, -, hstep⟩ | ⟨i, -, hstep⟩
  · rw [hstep] at ht
    cases ht
    exact .raised _ _ (.refl _ _)
  · rw [hstep] at ht
    obtain ⟨-, -, hwf, -⟩ := h.fetch.inst
    exact exec_ended hwf (h.fetch.queuesOk.chan _) ht

/-! ## The steps of the block, by agent -/

/-- A next state is the chosen agent's, and that agent has a step. -/
theorem step_next (ht : step s = .next t) :
    ∃ ag rest, s.choose = some (ag, rest) ∧ s.ready ag = true ∧
      runAgent ag (s.advance ag rest) = .next t := by
  rcases step_cases (s := s) with ⟨ag, rest, hc, hstep⟩ | ⟨-, hstep⟩
  · exact ⟨ag, rest, hc, (chosenAgentHasStep s ag rest hc).1, hstep ▸ ht⟩
  · rw [hstep] at ht
    cases ht

/-- The state in which the chosen machine's instruction runs: it is current and its word has been read. -/
def State.fetched (s : State) (k : Nat) (rest : List Agent) : State :=
  ((s.advance (.inst k) rest).focus k).fetch

theorem State.Inv.fetched (h : s.Inv) (hk : k < s.instances.length) : (s.fetched k rest).Inv :=
  (State.Inv.focus (h.advance (ag := .inst k) (rest := rest)) hk).fetch

theorem State.fetched_status (hk : k < s.instances.length) :
    (s.fetched k rest).inst.status = (s.instAt k).status := by
  unfold State.fetched
  rw [State.fetch_inst (s := (s.advance (.inst k) rest).focus k) hk]
  rfl

/-- The step of a chosen machine: it exists and is running, and its step ends in one of the four ways. -/
theorem State.Inv.machine_step (h : s.Inv) (hr : s.ready (.inst k) = true)
    (ht : runAgent (.inst k) (s.advance (.inst k) rest) = .next t) :
    k < s.instances.length ∧ (s.instAt k).status = .running ∧ Ended (s.fetched k rest) t := by
  obtain ⟨-, hk, hs, -⟩ := (s.ready_inst_iff k).mp hr
  exact ⟨hk, hs, (h.advance.focus hk).stepInst_ended ht⟩

/-- The relay has a step only in the Feedback topology, before it has finished and so before `c_0` is
closed (48_pipeline_orchestrator.md R204, R206). -/
theorem State.Inv.relay_open (h : s.Inv) (hr : s.ready .relay = true) : (s.chan 0).closed = false := by
  obtain ⟨-, htop, hdone, -⟩ := (s.ready_relay_iff).mp hr
  have := h.2.2.2.2.2 htop
  simpa [hdone] using this

theorem State.Inv.relayStep (h : s.Inv) : s.relayStep.Inv := by
  unfold State.relayStep
  cases hv : s.finalChan.recv with
  | value v =>
    have hval : InVal v := (h.queuesOk.chan _).recv hv
    obtain ⟨hp, hshape, hinsts, ⟨hqueues, -, hrest⟩, hends⟩ :=
      (h.consume (i := s.size)).send (i := 0) hval
    exact ⟨hp, hshape, hinsts, ⟨hqueues, by simpa using hval, hrest⟩, hends⟩
  | eos =>
    have hc0 : 0 < s.channels.length := by have := h.2.1.2.1; omega
    obtain ⟨hp, hshape, hinsts, ⟨hqueues, hvalues⟩, hends, -⟩ := h
    refine ⟨hp, hshape.onChan, hinsts, ⟨State.QueuesOk.onChan hqueues fun _ hc => hc, hvalues⟩,
      fun k hk => State.MachineEnds.onChan (hends k hk) (.inl rfl) (.inr rfl), fun _ => ?_⟩
    exact iff_of_true (congrArg Channel.closed (State.onChan_chan s 0 Channel.closeOut hc0)) rfl
  | empty => exact h

/-- The completion's value is one of the run (48_pipeline_orchestrator.md R197, R207). -/
theorem State.Inv.runResult_inVal (h : s.Inv) (hv : s.runResult = some v) : InVal v := by
  obtain ⟨-, -, -, ⟨-, hlast, -, hout⟩, -⟩ := id h
  unfold State.runResult at hv
  split at hv
  · rcases List.mem_append.mp (List.mem_of_getLast? hv) with hv | hv
    · exact hout v hv
    · exact h.queuesOk.chan _ v hv
  · exact hlast v hv

theorem State.Inv.orchestratorStep (h : s.Inv) : s.orchestratorStep.Inv := by
  obtain ⟨hp, hshape, hinsts, ⟨hqueues, hlast, hresult, hout⟩, hends⟩ := id h
  unfold State.orchestratorStep State.abortStep State.completeStep
  split
  · exact ⟨hp, hshape, hinsts, ⟨hqueues, hlast, by simp, hout⟩, hends⟩
  · split
    next v hv =>
      exact ⟨hp, hshape, hinsts, ⟨hqueues, hlast, by simpa using h.runResult_inVal hv, hout⟩, hends⟩
    next => exact ⟨hp, hshape, hinsts, ⟨hqueues, hlast, by simp, hout⟩, hends⟩

end Sys2Proof.Machine

/-! SUPPORT. What LOAD builds (10_state.md R38, 70_reset_and_hazards.md R250 to R253) and what each
transaction of the host does (10_state.md R37). -/

namespace Sys2Proof.Machine

variable {s t : State} {i k a b T : Nat} {f : Channel → Channel} {c : Channel} {v : Int} {m : Memory}
  {p : Params} {rest : List Agent} {x : HostTx} {tx : List HostTx}

/-! ## The loaded memory (20_memory.md R48) -/

theorem Memory.writeList_plen (vs : List Int) (m : Memory) (a : Nat) (h : min a T ≤ m.plen) :
    (m.writeList T a vs).plen = max m.plen (min (a + vs.length) T) := by
  induction vs generalizing m a with
  | nil => simpa [Memory.writeList] using h
  | cons v vs ih =>
    have hplen := Memory.write_plen T m a v
    have ha : min (a + 1) T ≤ (m.write T a v).plen := by rw [hplen]; split <;> omega
    rw [Memory.writeList, ih _ _ ha, hplen, List.length_cons]
    split <;> omega

theorem Memory.mem_writeList_ovfKeys (vs : List Int) (m : Memory) (a : Nat) :
    b ∈ (m.writeList T a vs).ovfKeys ↔ b ∈ m.ovfKeys ∨ (T ≤ b ∧ a ≤ b ∧ b < a + vs.length) := by
  induction vs generalizing m a with
  | nil => exact (or_iff_left (by simp)).symm
  | cons v vs ih =>
    rw [Memory.writeList, ih, Memory.write_ovfKeys, List.length_cons]
    split
    · exact or_congr_right (by omega)
    · rw [mem_insertKey, or_comm (a := b = a), or_assoc]
      exact or_congr_right (by omega)

theorem Memory.load_plen (image : List Int) : (Memory.load T image).plen = min image.length T := by
  rw [Memory.load, Memory.writeList_plen _ _ _ (by simp)]
  simp [Memory.empty]

theorem Memory.mem_load_ovfKeys (image : List Int) :
    b ∈ (Memory.load T image).ovfKeys ↔ T ≤ b ∧ b < image.length := by
  simp [Memory.load, Memory.mem_writeList_ovfKeys, Memory.empty]

theorem Memory.load_view (image : List Int) (a : Nat) :
    (Memory.load T image).view a = image.getD a 0 := by
  rw [Memory.load, Memory.writeList_view, Memory.empty_view]
  split
  · rfl
  next h => exact (List.getD_eq_default _ _ (by omega)).symm

theorem Memory.mem_ovf : (a, v) ∈ m.ovf ↔ a ∈ m.ovfKeys ∧ v = m.view a := by
  simp [Memory.ovf, eq_comm]

/-! ## The loaded run -/

/-- What legal parameters promise (00_scope.md R9, 70_reset_and_hazards.md R253). -/
theorem Params.ok_iff : p.ok = true ↔
    1 ≤ p.size ∧ p.names.length = p.size ∧ p.image.length ≤ maxAddr + 1 ∧ (∀ v ∈ p.image, InVal v) ∧
      (∀ v ∈ p.phase, InVal v) ∧ InVal p.seed ∧
      ∀ q closed, p.feed = .hostFed q closed →
        p.topology = .linear ∧ p.size = 1 ∧ ∀ v ∈ q, InVal v := by
  unfold Params.ok
  cases p.feed with
  | seeded => simp [and_assoc]
  | hostFed q closed => simp [and_assoc]

theorem Params.buildInst_inv (h : p.ok = true) (k : Nat) : (p.buildInst k).Inv p.threshold := by
  obtain ⟨-, -, hlen, himage, -⟩ := Params.ok_iff.mp h
  exact ⟨Nat.zero_le _, inVal_zero, Memory.wf_writeList Memory.empty_wf (by omega) himage,
    Memory.tiersOk_writeList (Memory.empty_tiersOk _) (by omega),
    by simp [Params.buildInst, Inst.fresh]⟩

/-- A channel after LOAD that some machine produces into: nobody has ended, and its values are in
`Val`. -/
def Channel.Open (c : Channel) : Prop := c.closed = false ∧ c.dropped = false ∧ c.ValuesOk

theorem Channel.fresh_open : Channel.fresh.Open := ⟨rfl, rfl, by simp [Channel.ValuesOk, Channel.fresh]⟩

/-- The channels after LOAD: `c_0`, open in the Feedback topology, and as many open ones as machines. -/
theorem Params.channels_eq (h : p.ok = true) :
    ∃ first later, p.channels = first :: later ∧ later.length = p.size ∧ (∀ c ∈ later, c.Open) ∧
      first.dropped = false ∧ first.ValuesOk ∧ (p.topology = .feedback → first.closed = false) := by
  obtain ⟨hsize, -, -, -, hphase, hseed, hfed⟩ := Params.ok_iff.mp h
  unfold Params.channels
  cases hf : p.feed with
  | hostFed q closed =>
    obtain ⟨htop, hone, hq⟩ := hfed q closed hf
    exact ⟨_, _, rfl, hone.symm, by simp [Channel.fresh_open], rfl, hq, by simp [htop]⟩
  | seeded =>
    cases hp : p.phase with
    | nil => simp [Params.size, hp] at hsize
    | cons ph others =>
      rw [hp, List.forall_mem_cons] at hphase
      obtain ⟨hph, hothers⟩ := hphase
      refine ⟨_, _, rfl, by simp [Params.size, hp], fun c hc => ?_, rfl, ?_, fun htop => by simp [htop]⟩
      · rcases List.mem_append.mp hc with hc | hc
        · obtain ⟨v, hv, rfl⟩ := List.mem_map.mp hc
          exact ⟨rfl, rfl, by simpa [Channel.ValuesOk] using hothers v hv⟩
        · rw [List.mem_singleton.mp hc]
          exact Channel.fresh_open
      · simpa [Channel.ValuesOk] using ⟨hph, hseed⟩

theorem State.load_length : (s.load p).instances.length = p.size := by simp [State.load]

theorem State.load_instAt (h : k < p.size) : (s.load p).instAt k = p.buildInst k := by
  simp [State.load, State.instAt, List.getD_eq_getElem?_getD, h]

theorem State.load_inv (h : p.ok = true) : (s.load p).Inv := by
  obtain ⟨first, later, hchans, hlen, hopen, hdropped, hvalues, hfeedback⟩ := Params.channels_eq h
  obtain ⟨hsize, -⟩ := Params.ok_iff.mp h
  have hall : ∀ c ∈ p.channels, c.dropped = false ∧ c.ValuesOk := by
    rw [hchans, List.forall_mem_cons]
    exact ⟨⟨hdropped, hvalues⟩, fun c hc => (hopen c hc).2⟩
  have hl : (s.load p).channels.length = p.size + 1 := by simp [State.load, hchans, hlen]
  refine ⟨h, ⟨State.load_length, hl, hsize, fun k hk => ?_⟩, fun x hx => ?_,
    ⟨fun c hc => (hall c hc).2, by simp [State.load, Relay.fresh, Orchestrator.fresh]⟩,
    fun k hk => ?_, fun htop => ?_⟩
  · rw [State.load_length] at hk
    rw [State.load_instAt hk]
    exact ⟨rfl, rfl⟩
  · obtain ⟨k, -, rfl⟩ := List.mem_map.mp hx
    exact Params.buildInst_inv h k
  · rw [State.load_length] at hk
    have hnext : ((s.load p).chan (k + 1)).Open := by
      have : (s.load p).chan (k + 1) = later[k] := by
        simp [State.chan, State.load, hchans, List.getD_eq_getElem?_getD, hlen, hk]
      exact this ▸ hopen _ (List.getElem_mem _)
    have hthis := (hall _ (State.chan_mem (s.load p) k (by omega))).1
    rw [State.load_instAt hk]
    exact ⟨iff_of_true rfl hnext.1, iff_of_true rfl hthis⟩
  · have hfirst : (s.load p).chan 0 = first := by simp [State.chan, State.load, hchans]
    rw [hfirst, hfeedback htop]
    simp [State.load, Relay.fresh]

/-! ## The host's transactions -/

/-- One transaction of the host, whichever it is. -/
def HostTx.perform (s : State) : HostTx → Host.Outcome State Fault Refusal
  | .load p => s.hostLoad p
  | .send v => s.hostSend v
  | .closeIn => s.hostClose
  | .recvOut => s.hostRecv
  | .dropOut => s.hostDrop

/-- The state in which the host performs its transaction: `tx` and `rest` are what is left of its list and
of the schedule. -/
def State.served (s : State) (tx : List HostTx) (rest : List Agent) : State :=
  { s.advance .host rest with hostTx := tx }

theorem hostStep_eq (hx : s.hostTx = x :: tx) :
    (s.advance .host rest).hostStep = x.perform (s.served tx rest) := by
  unfold State.hostStep
  rw [State.advance_hostTx, hx]
  cases x <;> rfl

theorem step_host (hc : s.choose = some (.host, rest)) (hx : s.hostTx = x :: tx) :
    step s = x.perform (s.served tx rest) := by
  rw [← hostStep_eq hx]
  simp [step, hc, runAgent]

theorem State.hasHostIn_iff : s.hasHostIn = true ↔ ∃ q closed, s.params.feed = .hostFed q closed := by
  unfold State.hasHostIn
  cases s.params.feed <;> simp

/-- HOST_IN exists in the Linear topology only (70_reset_and_hazards.md R253). -/
theorem State.Inv.linear_of_hasHostIn (h : s.Inv) (hin : s.hasHostIn = true) :
    s.params.topology = .linear := by
  obtain ⟨q, closed, hf⟩ := State.hasHostIn_iff.mp hin
  obtain ⟨-, -, -, -, -, -, hfed⟩ := Params.ok_iff.mp h.1
  exact (hfed q closed hf).1

/-- What the host's update of one channel leaves alone. -/
theorem State.served_onChan (hi : i < s.channels.length) :
    ((s.served tx rest).onChan i f).chan i = f (s.chan i) ∧
      OnlyChannel s ((s.served tx rest).onChan i f) i ∧
      HostFrame s ((s.served tx rest).onChan i f) tx rest :=
  ⟨State.onChan_chan (s.served tx rest) i f hi,
    ⟨State.onChan_length _ i f, fun _ hj => State.onChan_get_ne (s.served tx rest) _ _ f hj⟩,
    rfl, rfl, rfl, rfl, rfl, rfl⟩

/-! Each transaction, by the branches of its definition. -/

theorem State.hostSend_cases (s : State) (v : Int) :
    (s.hasHostIn = false → s.hostSend v = .refused .hostPortAbsent) ∧
      (s.hasHostIn = true → ¬ InVal v → s.hostSend v = .refused .hostValueOutsideVal) ∧
      (s.hasHostIn = true → InVal v → (s.chan 0).closed = true →
        s.hostSend v = .refused .hostSendAfterClose) ∧
      (s.hasHostIn = true → InVal v → (s.chan 0).closed = false →
        s.hostSend v = .next (s.onChan 0 (Channel.send · v))) := by
  unfold State.hostSend
  refine ⟨fun h => ?_, fun h hv => ?_, fun h hv hc => ?_, fun h hv hc => ?_⟩
  · rw [h]; rfl
  · rw [h, if_pos hv]; rfl
  · rw [h, if_neg (not_not_intro hv), hc]; rfl
  · rw [h, if_neg (not_not_intro hv), hc]; rfl

theorem State.hostClose_cases (s : State) :
    (s.hasHostIn = false → s.hostClose = .refused .hostPortAbsent) ∧
      (s.hasHostIn = true → s.hostClose = .next (s.onChan 0 Channel.closeOut)) := by
  unfold State.hostClose
  exact ⟨fun h => by rw [h]; rfl, fun h => by rw [h]; rfl⟩

theorem State.hostDrop_cases (s : State) :
    (s.params.topology = .feedback → s.hostDrop = .refused .hostPortAbsent) ∧
      (s.params.topology = .linear → s.hostDrop = .next (s.onChan s.size Channel.dropIn)) := by
  unfold State.hostDrop State.hasHostOut
  exact ⟨fun h => by rw [h]; rfl, fun h => by rw [h]; rfl⟩

theorem State.hostRecv_cases (s : State) :
    (s.params.topology = .feedback → s.hostRecv = .refused .hostPortAbsent) ∧
      (s.params.topology = .linear → (s.chan s.size).dropped = true →
        s.hostRecv = .refused .hostRecvAfterDrop) ∧
      (s.params.topology = .linear → (s.chan s.size).dropped = false →
        (∀ v later, (s.chan s.size).queue = v :: later →
          s.hostRecv = .next { s.onChan s.size Channel.consume with hostOut := s.hostOut ++ [v] }) ∧
        ((s.chan s.size).queue = [] → s.hostRecv = .next s)) := by
  unfold State.hostRecv State.hasHostOut
  refine ⟨fun h => ?_, fun h hd => ?_, fun h hd => ⟨fun v later hq => ?_, fun hq => ?_⟩⟩
  · rw [h]; rfl
  · rw [h, State.finalChan_eq, hd]; rfl
  · have hr : s.finalChan.recv = .value v := Channel.recv_value.mpr (by rw [State.finalChan_eq, hq]; rfl)
    rw [h, hr, State.finalChan_eq, hd]; rfl
  · rw [h, State.finalChan_eq, hd, Channel.recv, hq]
    cases (s.chan s.size).closed <;> rfl

theorem State.hostLoad_cases (s : State) (p : Params) :
    (p.ok = false → s.hostLoad p = .refused .loadIllFormed) ∧
      (p.ok = true → s.hostLoad p = .next (s.load p)) := by
  unfold State.hostLoad
  exact ⟨fun h => by rw [h]; rfl, fun h => by rw [h]; rfl⟩

/-! ## The invariant over the host's transactions -/

theorem State.Inv.served (h : s.Inv) : (s.served tx rest).Inv := h

theorem State.Inv.hostClose (h : s.Inv) (ht : s.hostClose = .next t) : t.Inv := by
  obtain ⟨habsent, hclose⟩ := s.hostClose_cases
  cases hin : s.hasHostIn with
  | false => rw [habsent hin] at ht; cases ht
  | true =>
    rw [hclose hin] at ht
    cases ht
    obtain ⟨hends, -⟩ := h.2.2.2.2
    refine h.onChan (fun _ hc => hc)
      ⟨fun k hk => State.MachineEnds.onChan (hends k hk) (.inl rfl) (.inr rfl), fun htop => ?_⟩
    rw [State.onChan_params, h.linear_of_hasHostIn hin] at htop
    cases htop

theorem State.Inv.hostDrop (h : s.Inv) (ht : s.hostDrop = .next t) : t.Inv := by
  obtain ⟨habsent, hdrop⟩ := s.hostDrop_cases
  cases htop : s.params.topology with
  | feedback => rw [habsent htop] at ht; cases ht
  | linear =>
    rw [hdrop htop] at ht
    cases ht
    obtain ⟨hends, -⟩ := h.2.2.2.2
    refine h.onChan (fun _ hc => hc)
      ⟨fun k hk => State.MachineEnds.onChan (hends k hk) (.inr rfl) (.inl (h.2.1.1 ▸ hk)), fun h' => ?_⟩
    rw [State.onChan_params, htop] at h'
    cases h'

theorem State.Inv.hostSend (h : s.Inv) (ht : s.hostSend v = .next t) : t.Inv := by
  unfold State.hostSend at ht
  split at ht
  · cases ht
  · split at ht
    · cases ht
    next hv =>
      split at ht
      · cases ht
      · cases ht
        exact h.send (not_not.mp hv)

theorem State.Inv.hostRecv (h : s.Inv) (ht : s.hostRecv = .next t) : t.Inv := by
  unfold State.hostRecv at ht
  split at ht
  · cases ht
  · split at ht
    · cases ht
    · split at ht
      next v hv =>
        cases ht
        have hval : InVal v := (h.queuesOk.chan _).recv hv
        obtain ⟨hp, hshape, hinsts, ⟨hqueues, hlast, hresult, hout⟩, hends⟩ := h.consume (i := s.size)
        refine ⟨hp, hshape, hinsts, ⟨hqueues, hlast, hresult, fun w hw => ?_⟩, hends⟩
        rcases List.mem_append.mp hw with hw | hw
        · exact hout w hw
        · rwa [List.mem_singleton.mp hw]
      · cases ht; exact h
      · cases ht; exact h

theorem State.Inv.hostLoad (ht : s.hostLoad p = .next t) : t.Inv := by
  unfold State.hostLoad at ht
  split at ht
  next hp => cases ht; exact State.load_inv hp
  next => cases ht

theorem State.Inv.perform (h : s.Inv) (ht : x.perform s = .next t) : t.Inv := by
  cases x with
  | load p => exact State.Inv.hostLoad ht
  | send v => exact h.hostSend ht
  | closeIn => exact h.hostClose ht
  | recvOut => exact h.hostRecv ht
  | dropOut => exact h.hostDrop ht

end Sys2Proof.Machine

/-! SUPPORT. The statements about the state (10_state.md), from the rules above. -/

namespace Sys2Proof.Machine

variable {s t : State} {i k T : Nat} {c d : Channel} {v : Int} {m : Memory} {e : Effect}
  {rest : List Agent}

/-! ## The invariant -/

/-- Settles O58: LOAD builds every part of the invariant. -/
theorem loadEstablishesInvariant : Obligations.LoadEstablishesInvariant := fun _ _ h => State.load_inv h

theorem State.reset_eq_load : State.reset = State.reset.load Config.resetParams := rfl

/-- Settles O57: reset is a LOAD of legal parameters (log 6). -/
theorem resetSatisfiesInvariant : Obligations.ResetSatisfiesInvariant := by
  unfold Obligations.ResetSatisfiesInvariant
  rw [State.reset_eq_load]
  exact State.load_inv (by decide)

/-- Settles O59, agent by agent. -/
theorem stepKeepsInvariant : Obligations.StepKeepsInvariant := by
  intro s t h ht
  obtain ⟨ag, rest, -, hready, hrun⟩ := step_next ht
  cases ag with
  | inst k =>
    obtain ⟨hk, hs, hended⟩ := h.machine_step hready hrun
    exact hended.inv (h.fetched hk) ((State.fetched_status hk).trans hs)
  | relay => cases hrun; exact h.advance.relayStep
  | orchestrator => cases hrun; exact h.advance.orchestratorStep
  | host =>
    obtain ⟨x, tx, hx, -⟩ := (s.ready_host_iff).mp hready
    exact (h.served (tx := tx) (rest := rest)).perform ((hostStep_eq hx).symm.trans hrun)

/-! ## Steps of the run: ended machines and closed channels -/

/-- A step of the run is a machine's, the relay's or the orchestrator's. -/
theorem runStep_next (hr : s.RunStep) (ht : step s = .next t) :
    ∃ ag rest, s.ready ag = true ∧ runAgent ag (s.advance ag rest) = .next t ∧ ag ≠ .host := by
  obtain ⟨ag, rest, hc, hready, hrun⟩ := step_next ht
  obtain ⟨ag', rest', hc', hne⟩ := hr
  rw [hc] at hc'
  cases hc'
  exact ⟨ag, rest, hready, hrun, hne⟩

theorem State.relayStep_instances : s.relayStep.instances = s.instances := by
  unfold State.relayStep
  split <;> rfl

theorem State.orchestratorStep_frame :
    s.orchestratorStep.instances = s.instances ∧ s.orchestratorStep.channels = s.channels := by
  unfold State.orchestratorStep State.abortStep State.completeStep
  split
  · exact ⟨rfl, rfl⟩
  · split <;> exact ⟨rfl, rfl⟩

theorem State.fetched_get_ne (h : i ≠ k) : (s.fetched k rest).instances[i]? = s.instances[i]? :=
  State.setInst_get_ne ((s.advance (.inst k) rest).focus k) _ _ h

/-- Settles O45: the machine that steps is running, and a step touches no other (R62). -/
theorem endedMachineIsInert : Obligations.EndedMachineIsInert := by
  intro s t k h hr ht hk
  obtain ⟨ag, rest, hready, hrun, hne⟩ := runStep_next hr ht
  cases ag with
  | inst j =>
    obtain ⟨-, hs, hended⟩ := h.machine_step hready hrun
    have hkj : k ≠ j := by rintro rfl; exact hk hs
    obtain ⟨-, -, -, -, -, -, -, -, -, hothers⟩ := hended.sameElse
    exact (hothers k hkj).trans (State.fetched_get_ne hkj)
  | relay => cases hrun; rw [State.relayStep_instances]; rfl
  | orchestrator => cases hrun; rw [State.orchestratorStep_frame.1]; rfl
  | host => exact absurd rfl hne

/-- From `c` to `d` a closed channel stays closed and gets no new value (R39 (f)). -/
def Channel.Final (c d : Channel) : Prop := c.closed = true → d.closed = true ∧ d.queue <:+ c.queue

theorem Channel.Final.refl (c : Channel) : c.Final c := fun h => ⟨h, List.suffix_refl _⟩

theorem Channel.Final.trans {c' : Channel} (h : c.Final d) (h' : d.Final c') : c.Final c' := fun hc =>
  have ⟨hd, hs⟩ := h hc
  have ⟨hc', hs'⟩ := h' hd
  ⟨hc', hs'.trans hs⟩

theorem Channel.final_consume : c.Final c.consume := fun h => ⟨h, List.tail_suffix _⟩

theorem Channel.final_of_open (h : c.closed = false) : c.Final d := fun hc => by
  rw [h] at hc
  cases hc

theorem State.onChan_final {f : Channel → Channel} (hf : (s.chan i).Final (f (s.chan i))) (j : Nat) :
    (s.chan j).Final ((s.onChan i f).chan j) := State.onChan_rel Channel.Final.refl hf j

theorem State.release_final (j : Nat) : (s.chan j).Final (s.release.chan j) :=
  (State.onChan_final (f := Channel.closeOut) (fun _ => ⟨rfl, List.suffix_refl _⟩) j).trans
    (State.onChan_final (f := Channel.dropIn) (fun h => ⟨h, List.suffix_refl _⟩) j)

/-- An effect receives at most once from the input channel and then sends at most once. -/
theorem State.commitChannels_cases (s : State) (e : Effect) :
    ∃ u, (u = s ∨ u = s.onChan s.inst.inp Channel.consume) ∧
      (s.commitChannels e = u ∨ ∃ v, s.commitChannels e = u.onChan s.inst.out (Channel.send · v)) := by
  refine ⟨if e.consume then s.onChan s.inst.inp Channel.consume else s, ?_, ?_⟩
  · split
    · exact .inr rfl
    · exact .inl rfl
  · unfold State.commitChannels
    cases e.send with
    | none => exact .inl rfl
    | some v =>
      refine .inr ⟨v, ?_⟩
      split <;> rfl

/-- A machine whose output channel is open sends into no closed channel. -/
theorem State.commitChannels_final (ho : (s.chan s.inst.out).closed = false) (j : Nat) :
    (s.chan j).Final ((s.commitChannels e).chan j) := by
  obtain ⟨u, hu, hsend⟩ := s.commitChannels_cases e
  have hconsume : (s.chan j).Final (u.chan j) ∧ (u.chan s.inst.out).closed = false := by
    rcases hu with rfl | rfl
    · exact ⟨.refl _, ho⟩
    · exact ⟨State.onChan_final Channel.final_consume j, (State.onChan_closed rfl _).trans ho⟩
  obtain ⟨hfinal, hopen⟩ := hconsume
  rcases hsend with hsend | ⟨v, hsend⟩
  · rwa [hsend]
  · rw [hsend]
    exact hfinal.trans (State.onChan_final (Channel.final_of_open hopen) j)

/-- A running machine's output channel is open, so its step appends to no closed channel (R165). -/
theorem Ended.final (h : s.Inv) (hs : s.inst.status = .running) (ht : Ended s t) (j : Nat) :
    (s.chan j).Final (t.chan j) := by
  cases ht with
  | held => exact .refl _
  | raised => exact State.release_final j
  | committed e m =>
    refine State.commitChannels_final ?_ j
    obtain ⟨hends, -⟩ := h.2.2.2.2
    obtain ⟨-, hout⟩ := h.endpoints
    rw [hout]
    exact (hends _ h.wired.1).1.mp hs
  | halted => exact State.release_final j

/-- The relay forwards into `c_0` only while it is open. -/
theorem State.relayStep_final (ho : (s.chan 0).closed = false) (j : Nat) :
    (s.chan j).Final (s.relayStep.chan j) := by
  unfold State.relayStep
  split
  · have hopen : ((s.onChan s.size Channel.consume).chan 0).closed = false :=
      (State.onChan_closed rfl _).trans ho
    exact (State.onChan_final Channel.final_consume j).trans
      (State.onChan_final (Channel.final_of_open hopen) j)
  · exact State.onChan_final (Channel.final_of_open ho) j
  · exact .refl _

/-- Settles O43: who sends has not closed its channel, and a receive only shortens a queue. -/
theorem closedChannelNeverGrows : Obligations.ClosedChannelNeverGrows := by
  intro s t i h hr ht
  obtain ⟨ag, rest, hready, hrun, hne⟩ := runStep_next hr ht
  cases ag with
  | inst k =>
    obtain ⟨hk, hs, hended⟩ := h.machine_step hready hrun
    exact hended.final (h.fetched hk) ((State.fetched_status hk).trans hs) i
  | relay =>
    cases hrun
    exact State.relayStep_final (s := s.advance .relay rest) (h.relay_open hready) i
  | orchestrator =>
    cases hrun
    have hchan : (s.advance .orchestrator rest).orchestratorStep.chan i = s.chan i :=
      congrArg (·.getD i Channel.fresh) State.orchestratorStep_frame.2
    exact hchan ▸ Channel.Final.refl _
  | host => exact absurd rfl hne

/-! ## The relative base -/

/-- Whatever effect the phases end with has `P`. -/
def Res.Answers {α : Type} (P : α → Prop) : Res α → Prop
  | .ok a _ => P a
  | .raise _ _ => True
  | .hold => True

theorem Res.Answers.bind {α β : Type} {P : β → Prop} {p : Res α} {f : α → Memory → Res β}
    (h : ∀ a m, (f a m).Answers P) : (p.bind f).Answers P := by
  cases p with
  | ok a m => exact h a m
  | raise r m => trivial
  | hold => trivial

/-- The current machine after an update of its place, which changes nothing where there is none. -/
theorem State.inst_of_set {x : Inst} (hi : t.instances = s.instances.set s.cur x) (hc : t.cur = s.cur) :
    t.inst = x ∨ t.inst = s.inst := by
  unfold State.inst State.instAt
  rw [hi, hc]
  by_cases hlt : s.cur < s.instances.length
  · exact .inl (by simp [List.getD_eq_getElem?_getD, hlt])
  · exact .inr (by rw [List.set_eq_of_length_le (Nat.le_of_not_lt hlt)])

/-- A fault and a hold leave `rb` alone, a commit without a new `rb` does too. -/
theorem State.finish_rb {p : Res Effect} (hp : p.Answers fun e => e.rb = none)
    (ht : s.finish p = .next t) : t.inst.rb = s.inst.rb := by
  cases p with
  | ok e m =>
    cases ht
    have hrb : (s.inst.commit s.threshold e m).rb = s.inst.rb := by
      rw [Inst.commit, show e.rb = none from hp]; rfl
    rcases State.inst_of_set (t := s.commit e m) State.commit_instances State.commit_cur with h | h
    · rw [h, hrb]
    · rw [h]
  | raise r m =>
    cases ht
    rcases State.inst_of_set (t := s.raise r m) State.raise_instances State.raise_cur with h | h
    · rw [h]; rfl
    · rw [h]
  | hold => cases ht; rfl

theorem runF3_rb {compute : Int → Int → Except Raise Int} {a b d : Mode}
    (ht : s.runF3 compute a b d = .next t) : t.inst.rb = s.inst.rb := by
  refine State.finish_rb (.bind fun _ _ => .bind fun _ _ => ?_) ht
  rfl

theorem runJump_rb {taken : Int → Bool} {c d : Mode} (ht : s.runJump taken c d = .next t) :
    t.inst.rb = s.inst.rb := by
  refine State.finish_rb (.bind fun q _ => ?_) ht
  split
  · exact .bind fun _ _ => rfl
  · rfl

theorem execOutput_rb {a : Mode} (ht : execOutput a s = .next t) : t.inst.rb = s.inst.rb := by
  refine State.finish_rb (.bind fun _ _ => ?_) ht
  rfl

theorem execInput_rb {d : Mode} (ht : execInput d s = .next t) : t.inst.rb = s.inst.rb := by
  refine State.finish_rb (.bind fun _ _ => ?_) ht
  split
  · rfl
  · trivial
  · trivial

/-- Settles O32: no other effect names a new `rb`. -/
theorem onlyAdjustWritesRelativeBase : Obligations.OnlyAdjustWritesRelativeBase := by
  intro i s t hne ht
  cases i with
  | add a b d => exact runF3_rb (compute := fun x y => checked (x + y)) ht
  | multiply a b d => exact runF3_rb (compute := fun x y => checked (x * y)) ht
  | input d => exact execInput_rb ht
  | output a => exact execOutput_rb ht
  | jumpIfTrue c d => exact runJump_rb ht
  | jumpIfFalse c d => exact runJump_rb ht
  | lessThan a b d => exact runF3_rb (compute := fun x y => .ok (lessThanResult x y)) ht
  | equals a b d => exact runF3_rb (compute := fun x y => .ok (equalsResult x y)) ht
  | adjustRelativeBase a => exact absurd rfl (hne a)
  | halt =>
    cases ht
    rcases State.inst_of_set (t := s.haltInst) State.haltInst_instances State.haltInst_cur with h | h
    · rw [h]
    · rw [h]

/-! ## STATUS -/

/-- The first answer of a list is at the lowest index that has one. -/
theorem findSome?_eq_some_iff_getD {α β : Type} {g : α → Option β} {l : List α} {b : β} (d : α) :
    l.findSome? g = some b ↔
      ∃ k, k < l.length ∧ g (l.getD k d) = some b ∧ ∀ j, j < k → g (l.getD j d) = none := by
  induction l with
  | nil => simp
  | cons x l ih =>
    rw [List.findSome?_cons]
    cases hx : g x with
    | some b' =>
      constructor
      · intro hb
        exact ⟨0, Nat.zero_lt_succ _, hx.trans hb, fun j hj => absurd hj (Nat.not_lt_zero j)⟩
      · rintro ⟨k, -, hb, hbelow⟩
        cases k with
        | zero => exact hx.symm.trans hb
        | succ k => exact absurd (hbelow 0 (Nat.zero_lt_succ k)) (by simp [hx])
    | none =>
      rw [ih]
      constructor
      · rintro ⟨k, hk, hb, hbelow⟩
        refine ⟨k + 1, Nat.succ_lt_succ hk, hb, fun j hj => ?_⟩
        cases j with
        | zero => exact hx
        | succ j => exact hbelow j (Nat.lt_of_succ_lt_succ hj)
      · rintro ⟨k, hk, hb, hbelow⟩
        cases k with
        | zero => cases hx.symm.trans hb
        | succ k =>
          exact ⟨k, Nat.lt_of_succ_lt_succ hk, hb, fun j hj => hbelow (j + 1) (Nat.succ_lt_succ hj)⟩

theorem State.faultReport_iff (s : State) (name : Label) (f : FaultRecord) :
    s.faultReport = some (name, f) ↔
      ∃ k, k < s.instances.length ∧ (s.instAt k).name = name ∧ (s.instAt k).fault = some f ∧
        ∀ j, j < k → (s.instAt j).fault = none := by
  unfold State.faultReport
  rw [findSome?_eq_some_iff_getD (Inst.fresh 0 0 1)]
  simp only [Option.map_eq_some_iff, Option.map_eq_none_iff, Prod.mk.injEq]
  constructor
  · rintro ⟨k, hk, ⟨f', hf, rfl, rfl⟩, hbelow⟩
    exact ⟨k, hk, rfl, hf, hbelow⟩
  · rintro ⟨k, hk, rfl, hf, hbelow⟩
    exact ⟨k, hk, ⟨f, hf, rfl, rfl⟩, hbelow⟩

theorem State.statusPort_machine {s : State} {k : Nat} {w : MachineView}
    (h : s.statusPort.machines[k]? = some w) : w = (s.instAt k).present := by
  simp only [State.statusPort, List.getElem?_map, Option.map_eq_some_iff] at h
  obtain ⟨x, hx, rfl⟩ := h
  simp [State.instAt, List.getD_eq_getElem?_getD, hx]

/-- Settles O52: the view of a machine is its `present`, and the report the lowest index with a record. -/
theorem statusPresentsMachinesAndLowestFault : Obligations.StatusPresentsMachinesAndLowestFault := by
  intro s
  refine ⟨rfl, rfl, rfl, by simp [State.statusPort], fun k w h => ?_, s.faultReport_iff⟩
  rw [State.statusPort_machine h]
  exact ⟨rfl, rfl, rfl, rfl, rfl, fun _ => rfl⟩

/-! ## LOAD and the host -/

/-- Settles O53: each machine is `buildInst`, whose memory is the loaded image (R48). -/
theorem loadResetsEverything : Obligations.LoadResetsEverything := by
  intro s p h
  refine ⟨rfl, State.load_length, fun k hk => ?_, rfl, rfl, fun c hc => ?_, fun q closed hf => ?_⟩
  · rw [State.load_instAt hk]
    refine ⟨rfl, rfl, rfl, rfl, rfl, rfl, rfl, Memory.load_plen _, fun a v => ?_, Memory.load_view _⟩
    have hmem : (p.buildInst k).mem = Memory.load p.threshold p.image := rfl
    rw [hmem, Memory.mem_ovf, Memory.mem_load_ovfKeys, Memory.load_view, and_assoc]
  · obtain ⟨first, later, hchans, -, hopen, hdropped, -⟩ := Params.channels_eq h
    rcases List.mem_cons.mp (hchans ▸ hc : c ∈ first :: later) with rfl | hc
    · exact hdropped
    · exact (hopen c hc).2.1
  · show p.channels = _
    rw [Params.channels, hf]
    rfl

/-- Settles O56: the branches of each transaction, with the frame of the one channel it may touch. -/
theorem hostTransactions : Obligations.HostTransactions := by
  intro s rest tx h hc
  have hfirst : 0 < s.channels.length := by have := h.2.1.2.1; omega
  have hlast : s.size < s.channels.length := by have := h.2.1.2.1; omega
  refine ⟨fun v hx => ?_, fun hx => ?_, fun hx => ?_, fun hx => ?_, fun p hx => ?_⟩
  · rw [step_host hc hx]
    obtain ⟨habsent, hrange, hclosed, hsend⟩ := (s.served tx rest).hostSend_cases v
    refine ⟨habsent, hrange, hclosed, fun hin hv ho => ⟨_, hsend hin hv ho, ?_⟩⟩
    obtain ⟨hchan, honly, hframe⟩ := State.served_onChan hfirst
    exact ⟨hchan, honly, rfl, hframe⟩
  · rw [step_host hc hx]
    obtain ⟨habsent, hclose⟩ := (s.served tx rest).hostClose_cases
    refine ⟨habsent, fun hin => ⟨_, hclose hin, ?_⟩⟩
    obtain ⟨hchan, honly, hframe⟩ := State.served_onChan hfirst
    exact ⟨hchan, honly, rfl, hframe⟩
  · rw [step_host hc hx]
    obtain ⟨habsent, hdropped, hrecv⟩ := (s.served tx rest).hostRecv_cases
    refine ⟨habsent, hdropped, fun htop hd => ?_⟩
    obtain ⟨hvalue, hempty⟩ := hrecv htop hd
    refine ⟨fun v later hq => ⟨_, hvalue v later hq, ?_⟩, fun hq => ⟨?_, _, hempty hq, ?_⟩⟩
    · obtain ⟨hchan, honly, hframe⟩ :=
        State.served_onChan (f := Channel.consume) (tx := tx) (rest := rest) hlast
      refine ⟨hchan.trans ?_, honly, rfl, hframe⟩
      rw [Channel.consume, hq]
      rfl
    · obtain ⟨_, _, hx', hready⟩ := (s.ready_host_iff).mp (chosenAgentHasStep s .host rest hc).1
      cases hx.symm.trans hx'
      exact (hready rfl htop hd).resolve_left (not_not_intro hq)
    · exact ⟨rfl, rfl, rfl, rfl, rfl, rfl, rfl, rfl⟩
  · rw [step_host hc hx]
    obtain ⟨habsent, hdrop⟩ := (s.served tx rest).hostDrop_cases
    refine ⟨habsent, fun htop => ⟨_, hdrop htop, ?_⟩⟩
    obtain ⟨hchan, honly, hframe⟩ := State.served_onChan hlast
    exact ⟨hchan, honly, rfl, hframe⟩
  · rw [step_host hc hx]
    exact (s.served tx rest).hostLoad_cases p

end Sys2Proof.Machine

/-! SUPPORT. The statements about memory (20_memory.md): the total function of R47 and R50, the loaded image
of R48, the canonical list of log 8, and the two tiers of R31 that the controller stands for. -/

namespace Sys2Proof.Machine

variable {T a : Nat} {m : Memory}

/-! ## Memory as a function of addresses -/

/-- Settles O35: reads leave the cells, a write puts one, and the loaded image reads as itself. -/
theorem memoryIsAFunctionOfAddresses : Obligations.MemoryIsAFunctionOfAddresses := by
  intro T m image a b v
  refine ⟨rfl, Memory.touch_view T m a b, by simp, fun h => by simp [h], ?_⟩
  rw [Memory.load_view]
  split
  · rfl
  next h => exact List.getD_eq_default _ _ (Nat.le_of_not_lt h)

/-- Settles O38. -/
theorem loadFillsTheTiers : Obligations.LoadFillsTheTiers := fun _ image =>
  ⟨Memory.load_plen image, fun _ => Memory.mem_load_ovfKeys image, Memory.load_view image⟩

/-- An access that is no write of `a` leaves what `a` reads. -/
theorem Memory.access_view {c : Nat × Option Int} (h : c.1 = a → c.2 = none) :
    (m.access T c).view a = m.view a := by
  obtain ⟨b, w⟩ := c
  cases w with
  | none => exact Memory.touch_view T m b a
  | some w =>
    have hne : a ≠ b := fun hab => nomatch h hab.symm
    exact (Memory.write_view T m b a w).trans (if_neg hne)

theorem Memory.foldl_access_view {accesses : List (Nat × Option Int)}
    (h : ∀ c ∈ accesses, c.1 = a → c.2 = none) :
    (accesses.foldl (Memory.access T) m).view a = m.view a := by
  induction accesses generalizing m with
  | nil => rfl
  | cons c cs ih =>
    rw [List.forall_mem_cons] at h
    exact (ih h.2).trans (Memory.access_view h.1)

/-- Settles O36: none of the accesses changes what `a` reads, and the emptied controller reads 0. -/
theorem readsAreIdempotent : Obligations.ReadsAreIdempotent := fun T m _ a =>
  ⟨fun h => Memory.foldl_access_view h, Memory.touch_view T m a a⟩

/-! ## The canonical list -/

/-- In canonical form a pair is listed exactly when it is what its address reads as, and not 0. -/
theorem Memory.mem_cells_iff (h : m.wf = true) {c : Nat × Int} :
    c ∈ m.cells ↔ m.view c.1 = c.2 ∧ c.2 ≠ 0 := by
  obtain ⟨hsorted, hcells⟩ := Memory.wf_iff.mp h
  constructor
  · intro hc
    exact ⟨look_of_mem hsorted hc, (hcells c hc).2.1⟩
  · rintro ⟨hview, hne⟩
    rw [← hview] at hne
    have hmem : (c.1, m.view c.1) ∈ m.cells := mem_of_look_ne hne
    rwa [hview] at hmem

/-- Settles O39: the cells are in order, and which pairs are listed is read off the view. -/
theorem canonicalMemoriesAreEqualWhenTheyReadTheSame :
    Obligations.CanonicalMemoriesAreEqualWhenTheyReadTheSame := by
  intro m n hm hn hview
  have hasymm : Std.Antisymm fun c d : Nat × Int => c.1 < d.1 :=
    ⟨fun _ _ h h' => absurd h' (Nat.lt_asymm h)⟩
  have hirrefl : Std.Irrefl fun c d : Nat × Int => c.1 < d.1 := ⟨fun c => Nat.lt_irrefl c.1⟩
  refine (Memory.wf_iff.mp hm).1.eq_of_mem_iff (Memory.wf_iff.mp hn).1 fun c => ?_
  rw [Memory.mem_cells_iff hm, Memory.mem_cells_iff hn, hview]

/-! ## The two tiers -/

/-- A cell that does not read 0 is in the tier its address dispatches to (R43). -/
theorem Memory.tier_of_view_ne (h : m.tiersOk T = true) (hv : m.view a ≠ 0) :
    if a < T then a < m.plen else a ∈ m.ovfKeys := by
  obtain ⟨-, -, -, hcells⟩ := Memory.tiersOk_iff.mp h
  exact hcells _ (mem_of_look_ne hv)

/-- Below `T` a cell beyond the primary region reads 0. -/
theorem Memory.view_beyond_primary (h : m.tiersOk T = true) (ha : a < T) (hp : m.plen ≤ a) :
    m.view a = 0 := by
  by_contra hv
  have := Memory.tier_of_view_ne h hv
  rw [if_pos ha] at this
  exact absurd this (Nat.not_lt.mpr hp)

/-- At or above `T` a cell without a key in `ovf` reads 0. -/
theorem Memory.view_outside_ovf (h : m.tiersOk T = true) (ha : ¬ a < T) (hk : a ∉ m.ovfKeys) :
    m.view a = 0 := by
  by_contra hv
  have := Memory.tier_of_view_ne h hv
  rw [if_neg ha] at this
  exact hk this

theorem Memory.primary_getD (h : a < m.plen) : m.primary.getD a 0 = m.view a := by
  simp [Memory.primary, List.getD_eq_getElem?_getD, h]

@[simp] theorem Memory.primary_length : m.primary.length = m.plen := by simp [Memory.primary]

/-- A longer primary region with the same view has zeros in its new cells (R44, R46). -/
theorem Memory.primary_append_zeros (h : m.tiersOk T = true) {k : Nat} (hk : m.plen + k ≤ T) :
    m.primary ++ List.replicate k 0 = (List.range (m.plen + k)).map m.view := by
  rw [List.range_add, List.map_append, Memory.primary, List.map_map]
  refine congrArg _ (List.eq_replicate_iff.mpr ⟨by simp, fun w hw => ?_⟩).symm
  obtain ⟨j, hj, rfl⟩ := List.mem_map.mp hw
  have hT : m.plen + j < T := by have := List.mem_range.mp hj; omega
  exact Memory.view_beyond_primary h hT (Nat.le_add_right _ _)

/-- Growing the primary sequence is what a read does to the controller. -/
theorem Memory.tiers_grow (h : m.tiersOk T = true) (ha : a < T) :
    m.tiers.grow a = (m.touch T a).tiers := by
  have htouch : (m.touch T a).tiers =
      { primary := (List.range (max m.plen (a + 1))).map m.view, ovf := m.ovf } := by
    rw [Memory.touch, if_pos ha]; rfl
  have hlen : m.tiers.primary.length = m.plen := Memory.primary_length
  rw [htouch, Tiers.grow, hlen]
  split
  next hp =>
    have hsum : m.plen + (a + 1 - m.plen) = max m.plen (a + 1) := by omega
    rw [← hsum, ← Memory.primary_append_zeros h (by omega)]; rfl
  next hp => rw [Nat.max_eq_left (by omega)]; rfl

/-- `ovf` as a map answers the view, with 0 where it has no key. -/
theorem Memory.ovf_lookup (h : m.tiersOk T = true) (ha : ¬ a < T) :
    (m.ovf.lookup a).getD 0 = m.view a := by
  by_cases hk : a ∈ m.ovfKeys
  · rw [Memory.ovf, List.lookup_graph m.view hk]; rfl
  · have hnone : m.ovf.lookup a = none := by
      rw [List.lookup_eq_none_iff]
      rintro ⟨b, w⟩ hb
      obtain ⟨hb, -⟩ := Memory.mem_ovf.mp hb
      exact bne_iff_ne.mpr fun hab => hk (hab ▸ hb)
    rw [hnone, Memory.view_outside_ovf h ha hk]; rfl

theorem Memory.tiers_read (h : m.tiersOk T = true) (a : Nat) :
    m.tiers.read T a = (m.view a, (m.touch T a).tiers) := by
  unfold Tiers.read
  split
  next ha =>
    have hlt : a < (m.touch T a).plen := by rw [Memory.touch_plen, if_pos ha]; omega
    have hget := Memory.primary_getD hlt
    rw [Memory.touch_view] at hget
    rw [Memory.tiers_grow h ha]
    exact congrArg (·, _) hget
  next ha =>
    have htouch : m.touch T a = m := if_neg ha
    rw [htouch]
    exact congrArg (·, _) (Memory.ovf_lookup h ha)

/-- Storing into the sequence is writing the cell, once the primary region reaches it. -/
theorem Memory.primary_set (T : Nat) (m : Memory) (a : Nat) (v : Int) :
    (m.touch T a).primary.set a v = (m.write T a v).primary := by
  have hplen : (m.touch T a).plen = (m.write T a v).plen := by
    rw [Memory.touch_plen, Memory.write_plen]
  refine List.ext_getElem (by simp [hplen]) fun j hj hj' => ?_
  simp [Memory.primary, List.getElem_set, eq_comm]

/-- Inserting into a map with rising keys is inserting the key and updating the function. -/
theorem insertCell_graph {keys : List Nat} (hs : keys.Pairwise (· < ·)) (f : Nat → Int) (a : Nat)
    (v : Int) :
    insertCell (keys.map fun k => (k, f k)) a v =
      (insertKey keys a).map fun k => (k, if k = a then v else f k) := by
  have hother : ∀ l : List Nat, (∀ k ∈ l, k ≠ a) →
      (l.map fun k => (k, f k)) = l.map fun k => (k, if k = a then v else f k) :=
    fun l hl => List.map_congr_left fun k hk => by rw [if_neg (hl k hk)]
  induction keys with
  | nil => simp [insertCell, insertKey]
  | cons b r ih =>
    obtain ⟨hb, hr⟩ := List.pairwise_cons.mp hs
    simp only [List.map_cons, insertCell, insertKey]
    split
    next hab =>
      have hrest : ∀ k ∈ b :: r, k ≠ a :=
        List.forall_mem_cons.mpr ⟨by omega, fun k hk => by have := hb k hk; omega⟩
      rw [List.map_cons, if_pos rfl, ← hother _ hrest, List.map_cons]
    next hab =>
      split
      next he =>
        subst he
        rw [List.map_cons, if_pos rfl, hother r fun k hk => (hb k hk).ne']
      next hne => rw [List.map_cons, if_neg (Ne.symm hne), ih hr]

/-- Where no cell of a tier is written, the tier is as before. -/
theorem Memory.map_write_view_of_ne {α : Type} {l : List Nat} (g : Nat → Int → α) (h : ∀ k ∈ l, k ≠ a) :
    (l.map fun k => g k ((m.write T a v).view k)) = l.map fun k => g k (m.view k) :=
  List.map_congr_left fun k hk => by rw [Memory.write_view, if_neg (h k hk)]

theorem Memory.tiers_write (h : m.tiersOk T = true) (a : Nat) (v : Int) :
    m.tiers.write T a v = (m.write T a v).tiers := by
  obtain ⟨hplen, hsorted, hkeys, -⟩ := Memory.tiersOk_iff.mp h
  unfold Tiers.write
  split
  next ha =>
    have hovf : (m.write T a v).ovf = (m.touch T a).ovf := by
      have hk : (m.write T a v).ovfKeys = m.ovfKeys := by rw [Memory.write_ovfKeys, if_pos ha]
      simp only [Memory.ovf, hk, Memory.touch_ovfKeys, Memory.touch_view]
      exact Memory.map_write_view_of_ne Prod.mk fun k hk => by have := hkeys k hk; omega
    rw [Memory.tiers_grow h ha]
    exact congrArg₂ Tiers.mk (Memory.primary_set T m a v) hovf.symm
  next ha =>
    have hprimary : (m.write T a v).primary = m.primary := by
      have hp : (m.write T a v).plen = m.plen := by rw [Memory.write_plen, if_neg ha]
      rw [Memory.primary, hp]
      exact Memory.map_write_view_of_ne (fun _ w => w) fun k hk => by have := List.mem_range.mp hk; omega
    have hovf : (m.write T a v).ovf = insertCell m.ovf a v := by
      have hk : (m.write T a v).ovfKeys = insertKey m.ovfKeys a := by
        rw [Memory.write_ovfKeys, if_neg ha]
      simp only [Memory.ovf, hk, Memory.write_view]
      exact (insertCell_graph hsorted m.view a v).symm
    exact congrArg₂ Tiers.mk hprimary.symm hovf.symm

/-- Settles O37: the model's list, `plen` and keys are the two tiers, accessed as the pseudocode says. -/
theorem controllerRefinesTwoTiers : Obligations.ControllerRefinesTwoTiers :=
  fun _ _ a v _ h => ⟨Memory.tiers_read h a, Memory.tiers_write h a v⟩

end Sys2Proof.Machine

/-! SUPPORT. What an instruction may touch at all, in every state: its own machine, whose tiers only grow, and
its own two channels (20_memory.md R46, R62). -/

namespace Sys2Proof.Machine

variable {s t : State} {T i : Nat} {m m' m'' : Memory} {x : Inst}

/-! ## Tiers that only grow -/

/-- From `m` to `m'` neither tier shrinks (R46). -/
def Memory.Grows (m m' : Memory) : Prop := m.plen ≤ m'.plen ∧ ∀ k ∈ m.ovfKeys, k ∈ m'.ovfKeys

theorem Memory.Grows.refl (m : Memory) : m.Grows m := ⟨Nat.le_refl _, fun _ hk => hk⟩

theorem Memory.Grows.trans (h : m.Grows m') (h' : m'.Grows m'') : m.Grows m'' :=
  ⟨h.1.trans h'.1, fun k hk => h'.2 k (h.2 k hk)⟩

theorem Memory.grows_touch (T : Nat) (m : Memory) (a : Nat) : m.Grows (m.touch T a) := by
  refine ⟨?_, fun k hk => by rwa [Memory.touch_ovfKeys]⟩
  rw [Memory.touch_plen]
  split <;> omega

theorem Memory.grows_touchRange (T : Nat) (m : Memory) (a n : Nat) : m.Grows (m.touchRange T a n) := by
  induction n generalizing m a with
  | zero => exact .refl m
  | succ n ih => exact (Memory.grows_touch T m a).trans (ih _ _)

theorem Memory.grows_write (T : Nat) (m : Memory) (a : Nat) (v : Int) : m.Grows (m.write T a v) := by
  refine ⟨?_, fun k hk => ?_⟩
  · rw [Memory.write_plen]
    split <;> omega
  · rw [Memory.write_ovfKeys]
    split
    · exact hk
    · exact mem_insertKey.mpr (.inr hk)

theorem Memory.grows_store (T : Nat) (m : Memory) (st : Option (Nat × Int)) : m.Grows (m.store T st) := by
  cases st with
  | none => exact .refl m
  | some av => exact Memory.grows_write T m av.1 av.2

/-- A phase that goes on from memory `m` never shrinks a tier, whether it ends in a result or a fault. -/
def Res.Grows {α : Type} (m : Memory) : Res α → Prop
  | .ok _ m' => m.Grows m'
  | .raise _ m' => m.Grows m'
  | .hold => True

theorem Res.Grows.bind {α β : Type} {p : Res α} {f : α → Memory → Res β} (h : p.Grows m)
    (hf : ∀ a m', m.Grows m' → (f a m').Grows m) : (p.bind f).Grows m := by
  cases p with
  | ok a m' => exact hf a m' h
  | raise r m' => exact h
  | hold => trivial

theorem Res.Grows.ofExcept {α : Type} (h : m.Grows m') (e : Except Raise α) :
    (Res.ofExcept e m').Grows m := by cases e <;> exact h

theorem Inst.grows_fetchParams (T : Nat) (x : Inst) (n : Nat) : (x.fetchParams T n).Grows x.mem := by
  unfold Inst.fetchParams
  split
  · exact Memory.grows_touchRange T _ _ _
  · exact .refl _

theorem Inst.grows_readOperand {mode : Mode} (h : m.Grows m') :
    (x.readOperand T i mode m').Grows m := by
  unfold Inst.readOperand
  split
  · exact h
  · split
    · exact h.trans (Memory.grows_touch T _ _)
    · exact h

theorem Inst.grows_writeAddress {mode : Mode} (h : m.Grows m') : (x.writeAddress i mode m').Grows m :=
  .ofExcept h _

theorem Inst.grows_resolveF1R (T : Nat) (x : Inst) (a : Mode) : (x.resolveF1R T a).Grows x.mem :=
  (Inst.grows_fetchParams T x 1).bind fun _ _ h => Inst.grows_readOperand h

theorem Inst.grows_resolveF1W (T : Nat) (x : Inst) (d : Mode) : (x.resolveF1W T d).Grows x.mem :=
  (Inst.grows_fetchParams T x 1).bind fun _ _ h => Inst.grows_writeAddress h

theorem Inst.grows_resolveF2R (T : Nat) (x : Inst) (a b : Mode) : (x.resolveF2R T a b).Grows x.mem :=
  (Inst.grows_fetchParams T x 2).bind fun _ _ h =>
    (Inst.grows_readOperand h).bind fun _ _ h => (Inst.grows_readOperand h).bind fun _ _ h => h

theorem Inst.grows_resolveF3 (T : Nat) (x : Inst) (a b d : Mode) : (x.resolveF3 T a b d).Grows x.mem :=
  (Inst.grows_fetchParams T x 3).bind fun _ _ h =>
    (Inst.grows_readOperand h).bind fun _ _ h =>
      (Inst.grows_readOperand h).bind fun _ _ h => (Inst.grows_writeAddress h).bind fun _ _ h => h

/-! ## How an instruction can end, in every state -/

/-- The ends of an instruction in a state that need not meet the invariant, with a memory whose tiers have
only grown. -/
inductive GrownEnd (s : State) : State → Prop where
  | held : GrownEnd s s
  | raised (r : Raise) (m : Memory) : s.inst.mem.Grows m → GrownEnd s (s.raise r m)
  | committed (e : Effect) (m : Memory) : s.inst.mem.Grows m → GrownEnd s (s.commit e m)
  | halted : GrownEnd s s.haltInst

theorem State.finish_grownEnd {p : Res Effect} (h : p.Grows s.inst.mem) (ht : s.finish p = .next t) :
    GrownEnd s t := by
  cases p with
  | ok e m => cases ht; exact .committed e m h
  | raise r m => cases ht; exact .raised r m h
  | hold => cases ht; exact .held

theorem runF3_grownEnd {compute : Int → Int → Except Raise Int} {a b d : Mode}
    (ht : s.runF3 compute a b d = .next t) : GrownEnd s t := by
  refine State.finish_grownEnd ((Inst.grows_resolveF3 _ _ a b d).bind fun _ _ h => ?_) ht
  exact (Res.Grows.ofExcept h _).bind fun _ _ h => h

theorem runJump_grownEnd {taken : Int → Bool} {c d : Mode} (ht : s.runJump taken c d = .next t) :
    GrownEnd s t := by
  refine State.finish_grownEnd ((Inst.grows_resolveF2R _ _ c d).bind fun _ _ h => ?_) ht
  split
  · exact (Res.Grows.ofExcept h _).bind fun _ _ h => h
  · exact h

theorem execInput_grownEnd {d : Mode} (ht : execInput d s = .next t) : GrownEnd s t := by
  refine State.finish_grownEnd ((Inst.grows_resolveF1W _ _ d).bind fun _ _ h => ?_) ht
  split
  · exact h
  · exact h
  · trivial

theorem execOutput_grownEnd {a : Mode} (ht : execOutput a s = .next t) : GrownEnd s t := by
  refine State.finish_grownEnd ((Inst.grows_resolveF1R _ _ a).bind fun _ _ h => ?_) ht
  exact h

theorem execAdjustRelativeBase_grownEnd {a : Mode} (ht : execAdjustRelativeBase a s = .next t) :
    GrownEnd s t := by
  refine State.finish_grownEnd ((Inst.grows_resolveF1R _ _ a).bind fun _ _ h => ?_) ht
  exact (Res.Grows.ofExcept h _).bind fun _ _ h => h

/-- Every instruction ends in one of the four ways, whatever the state. -/
theorem exec_grownEnd {i : Instr} (ht : exec i s = .next t) : GrownEnd s t := by
  cases i with
  | add a b d => exact runF3_grownEnd (compute := fun x y => checked (x + y)) ht
  | multiply a b d => exact runF3_grownEnd (compute := fun x y => checked (x * y)) ht
  | input d => exact execInput_grownEnd ht
  | output a => exact execOutput_grownEnd ht
  | jumpIfTrue c d => exact runJump_grownEnd ht
  | jumpIfFalse c d => exact runJump_grownEnd ht
  | lessThan a b d => exact runF3_grownEnd (compute := fun x y => .ok (lessThanResult x y)) ht
  | equals a b d => exact runF3_grownEnd (compute := fun x y => .ok (equalsResult x y)) ht
  | adjustRelativeBase a => exact execAdjustRelativeBase_grownEnd ht
  | halt => cases ht; exact .halted

theorem GrownEnd.sameElse (h : GrownEnd s t) : SameElse s t := by
  cases h with
  | held => exact ⟨rfl, rfl, rfl, rfl, rfl, rfl, rfl, rfl, rfl, fun _ _ => rfl⟩
  | raised => exact State.raise_sameElse
  | committed => exact State.commit_sameElse
  | halted => exact State.haltInst_sameElse

/-! ## The machine's own two channels -/

/-- Every channel but those bound to the current machine's two endpoints is as before. -/
def OnlyOwnChannels (s t : State) : Prop :=
  t.channels.length = s.channels.length ∧
    ∀ j, j ≠ s.inst.inp → j ≠ s.inst.out → t.channels[j]? = s.channels[j]?

theorem OnlyOwnChannels.refl (s : State) : OnlyOwnChannels s s := ⟨rfl, fun _ _ _ => rfl⟩

/-- A further operation on one of the two endpoints. -/
theorem OnlyOwnChannels.onChan {f : Channel → Channel} (h : OnlyOwnChannels s t)
    (hi : i = s.inst.inp ∨ i = s.inst.out) : OnlyOwnChannels s (t.onChan i f) := by
  refine ⟨(State.onChan_length t i f).trans h.1, fun j hinp hout => ?_⟩
  have hj : j ≠ i := by
    rcases hi with rfl | rfl
    · exact hinp
    · exact hout
  exact (State.onChan_get_ne t i j f hj).trans (h.2 j hinp hout)

theorem State.release_onlyOwnChannels (s : State) : OnlyOwnChannels s s.release :=
  ((OnlyOwnChannels.refl s).onChan (.inr rfl)).onChan (.inl rfl)

theorem State.commitChannels_onlyOwnChannels (s : State) (e : Effect) :
    OnlyOwnChannels s (s.commitChannels e) := by
  obtain ⟨u, hu, hsend⟩ := s.commitChannels_cases e
  have hown : OnlyOwnChannels s u := by
    rcases hu with rfl | rfl
    · exact .refl _
    · exact (OnlyOwnChannels.refl s).onChan (.inl rfl)
  rcases hsend with hsend | ⟨v, hsend⟩
  · rwa [hsend]
  · rw [hsend]
    exact hown.onChan (.inr rfl)

theorem GrownEnd.onlyOwnChannels (h : GrownEnd s t) : OnlyOwnChannels s t := by
  cases h with
  | held => exact .refl s
  | raised => exact s.release_onlyOwnChannels
  | committed e => exact s.commitChannels_onlyOwnChannels e
  | halted => exact s.release_onlyOwnChannels

/-- Settles O31, from the ends of an instruction. -/
theorem instructionsTouchOnlyTheirOwnMachine : Obligations.InstructionsTouchOnlyTheirOwnMachine :=
  fun _ _ _ ht => ⟨(exec_grownEnd ht).sameElse, (exec_grownEnd ht).onlyOwnChannels⟩

/-! ## The tiers over an instruction -/

/-- Replacing the current machine by one whose tiers have grown grows the tiers; where there is no current
machine, nothing is replaced. -/
theorem State.grows_of_set (hi : t.instances = s.instances.set s.cur x) (hc : t.cur = s.cur)
    (hx : s.inst.mem.Grows x.mem) : s.inst.mem.Grows t.inst.mem := by
  rcases State.inst_of_set hi hc with h | h
  · rwa [h]
  · rw [h]
    exact .refl _

theorem GrownEnd.grows (h : GrownEnd s t) : s.inst.mem.Grows t.inst.mem := by
  cases h with
  | held => exact .refl _
  | raised r m hm => exact State.grows_of_set State.raise_instances State.raise_cur hm
  | committed e m hm =>
    exact State.grows_of_set State.commit_instances State.commit_cur
      (hm.trans (Memory.grows_store s.threshold m e.store))
  | halted => exact State.grows_of_set State.haltInst_instances State.haltInst_cur (.refl _)

/-- Settles O34: an access below `T` sets the length to `a + 1`, and instructions only access. -/
theorem tiersOnlyGrow : Obligations.TiersOnlyGrow := by
  refine ⟨fun T m a v ha hp => ?_, fun i s t ht => (exec_grownEnd ht).grows⟩
  have hmax : max m.plen (a + 1) = a + 1 := by omega
  exact ⟨by rw [Memory.read, Memory.touch_plen, if_pos ha, hmax],
    by rw [Memory.write_plen, if_pos ha, hmax]⟩

end Sys2Proof.Machine

/-! SUPPORT. `T` and the tiers cannot be observed (20_memory.md R49): every operation of the model commutes
with forgetting them, so a state and its visible part, itself a state with `T = 0` and empty tiers, step
alike. -/

namespace Sys2Proof.Machine

variable {s : State} {m m' : Memory}

/-! ## The controller -/

theorem Memory.visible_eq_iff : m.visible = m'.visible ↔ m.cells = m'.cells := by
  simp [Memory.visible]

@[simp] theorem Memory.visible_view (m : Memory) (a : Nat) : m.visible.view a = m.view a := rfl

@[simp] theorem Memory.touch_visible (T : Nat) (m : Memory) (a : Nat) :
    (m.touch T a).visible = m.visible := Memory.visible_eq_iff.mpr (Memory.touch_cells T m a)

@[simp] theorem Memory.touchRange_visible (T : Nat) (m : Memory) (a n : Nat) :
    (m.touchRange T a n).visible = m.visible := Memory.visible_eq_iff.mpr (Memory.touchRange_cells T m a n)

/-- Under `T = 0` no address dispatches to the primary region, so a read changes nothing. -/
@[simp] theorem Memory.touch_zero (m : Memory) (a : Nat) : m.touch 0 a = m := rfl

@[simp] theorem Memory.touchRange_zero (m : Memory) (a n : Nat) : m.touchRange 0 a n = m := by
  induction n generalizing a with
  | zero => rfl
  | succ n ih => exact ih (a + 1)

theorem Memory.write_visible (T : Nat) (m : Memory) (a : Nat) (v : Int) :
    (m.write T a v).visible = (m.visible.write 0 a v).visible := by
  rw [Memory.visible_eq_iff, Memory.write_cells, Memory.write_cells]; rfl

theorem Memory.store_visible (T : Nat) (m : Memory) (st : Option (Nat × Int)) :
    (m.store T st).visible = (m.visible.store 0 st).visible := by
  cases st with
  | none => rfl
  | some av => exact Memory.write_visible T m av.1 av.2

theorem Memory.writeList_cells (T T' : Nat) (vs : List Int) (a : Nat) (h : m.cells = m'.cells) :
    (m.writeList T a vs).cells = (m'.writeList T' a vs).cells := by
  induction vs generalizing m m' a with
  | nil => exact h
  | cons v vs ih => exact ih (a + 1) (by rw [Memory.write_cells, Memory.write_cells, h])

theorem Memory.load_visible (T : Nat) (image : List Int) :
    (Memory.load T image).visible = (Memory.load 0 image).visible :=
  Memory.visible_eq_iff.mpr (Memory.writeList_cells T 0 image 0 rfl)

/-! ## The phases of an instruction -/

/-- A phase's answer without the hidden fields of the memory it carries along. -/
def Res.visible {α : Type} : Res α → Res α
  | .ok a m => .ok a m.visible
  | .raise r m => .raise r m.visible
  | .hold => .hold

@[simp] theorem Res.visible_ok {α : Type} (a : α) (m : Memory) :
    (Res.ok a m).visible = .ok a m.visible := rfl

@[simp] theorem Res.visible_raise {α : Type} (r : Raise) (m : Memory) :
    (Res.raise r m : Res α).visible = .raise r m.visible := rfl

@[simp] theorem Res.visible_ofExcept {α : Type} (c : Except Raise α) (m : Memory) :
    (Res.ofExcept c m).visible = Res.ofExcept c m.visible := by cases c <;> rfl

/-- Phases commute with forgetting when each of them does. -/
theorem Res.visible_bind {α β : Type} {p q : Res α} {f g : α → Memory → Res β} (hp : p.visible = q)
    (hf : ∀ a m, (f a m).visible = g a m.visible) : (p.bind f).visible = q.bind g := by
  subst hp
  cases p with
  | ok a m => exact hf a m
  | raise r m => rfl
  | hold => rfl

@[simp] theorem Inst.visible_effAddr (x : Inst) (i : Nat) (mode : Mode) :
    x.visible.effAddr i mode = x.effAddr i mode := by cases mode <;> rfl

theorem Inst.readOperand_visible (T : Nat) (x : Inst) (i : Nat) (mode : Mode) (m : Memory) :
    (x.readOperand T i mode m).visible = x.visible.readOperand 0 i mode m.visible := by
  cases mode with
  | immediate => rfl
  | position | relative =>
    simp only [Inst.readOperand, Inst.visible_effAddr]
    split <;> simp

theorem Inst.writeAddress_visible (x : Inst) (i : Nat) (mode : Mode) (m : Memory) :
    (x.writeAddress i mode m).visible = x.visible.writeAddress i mode m.visible := by
  simp [Inst.writeAddress]

theorem Inst.fetchParams_visible (T : Nat) (x : Inst) (n : Nat) :
    (x.fetchParams T n).visible = x.visible.fetchParams 0 n := by
  unfold Inst.fetchParams
  split
  next h => rw [if_pos (show x.visible.pc + n + 1 ≤ maxAddr from h)]; simp [Inst.visible]
  next h => rw [if_neg (show ¬ x.visible.pc + n + 1 ≤ maxAddr from h)]; rfl

theorem Inst.resolveF1R_visible (T : Nat) (x : Inst) (a : Mode) :
    (x.resolveF1R T a).visible = x.visible.resolveF1R 0 a :=
  Res.visible_bind (x.fetchParams_visible T 1) fun _ => x.readOperand_visible T 0 a

theorem Inst.resolveF1W_visible (T : Nat) (x : Inst) (d : Mode) :
    (x.resolveF1W T d).visible = x.visible.resolveF1W 0 d :=
  Res.visible_bind (x.fetchParams_visible T 1) fun _ => x.writeAddress_visible 0 d

theorem Inst.resolveF2R_visible (T : Nat) (x : Inst) (a b : Mode) :
    (x.resolveF2R T a b).visible = x.visible.resolveF2R 0 a b :=
  Res.visible_bind (x.fetchParams_visible T 2) fun _ m =>
    Res.visible_bind (x.readOperand_visible T 0 a m) fun _ m =>
      Res.visible_bind (x.readOperand_visible T 1 b m) fun _ _ => rfl

theorem Inst.resolveF3_visible (T : Nat) (x : Inst) (a b d : Mode) :
    (x.resolveF3 T a b d).visible = x.visible.resolveF3 0 a b d :=
  Res.visible_bind (x.fetchParams_visible T 3) fun _ m =>
    Res.visible_bind (x.readOperand_visible T 0 a m) fun _ m =>
      Res.visible_bind (x.readOperand_visible T 1 b m) fun _ m =>
        Res.visible_bind (x.writeAddress_visible 2 d m) fun _ _ => rfl

/-! ## The end of a step -/

@[simp] theorem State.visible_instAt (s : State) (k : Nat) :
    s.visible.instAt k = (s.instAt k).visible :=
  List.getD_map s.instances (Inst.fresh 0 0 1) Inst.visible

@[simp] theorem State.visible_inst (s : State) : s.visible.inst = s.inst.visible :=
  s.visible_instAt s.cur

theorem State.setInst_visible (s : State) (x : Inst) :
    (s.setInst x).visible = s.visible.setInst x.visible := by
  simp [State.setInst, State.visible, List.map_set]

theorem State.onChan_visible (s : State) (i : Nat) (f : Channel → Channel) :
    (s.onChan i f).visible = s.visible.onChan i f := rfl

theorem State.release_visible (s : State) : s.release.visible = s.visible.release := by
  simp only [State.release, State.onChan_visible, State.visible_inst]; rfl

theorem State.haltInst_visible (s : State) : s.haltInst.visible = s.visible.haltInst := by
  simp only [State.haltInst, State.setInst_visible, State.release_visible, State.visible_inst]; rfl

theorem State.raise_visible (s : State) (r : Raise) (m : Memory) :
    (s.raise r m).visible = s.visible.raise r m.visible := by
  simp only [State.raise, State.setInst_visible, State.release_visible, State.visible_inst]; rfl

theorem State.commitChannels_visible (s : State) (e : Effect) :
    (s.commitChannels e).visible = s.visible.commitChannels e := by
  simp only [State.commitChannels, State.visible_inst]
  split <;> split <;> simp [State.onChan_visible, Inst.visible]

theorem HostTx.visible_visible (x : HostTx) : x.visible.visible = x.visible := by cases x <;> rfl

/-- There is nothing left to forget in a visible part. -/
@[simp] theorem State.visible_visible (s : State) : s.visible.visible = s.visible := by
  simp [State.visible, Params.visible, Inst.visible, Memory.visible, Function.comp_def,
    HostTx.visible_visible]

theorem Inst.commit_visible (T : Nat) (x : Inst) (e : Effect) (m : Memory) :
    (x.commit T e m).visible = (x.visible.commit 0 e m.visible).visible := by
  simp only [Inst.commit, Inst.visible, Memory.store_visible T m e.store]

/-- A commit may differ in the tier it writes, and in nothing that is visible. -/
theorem State.commit_visible (s : State) (e : Effect) (m : Memory) :
    (s.commit e m).visible = (s.visible.commit e m.visible).visible := by
  simp only [State.commit, State.setInst_visible, State.commitChannels_visible, State.visible_visible,
    State.visible_inst, Inst.commit_visible s.threshold]
  rfl

/-- Where an operation commutes with forgetting, its next states are alike. -/
theorem visibleOutcome_next {s t : State} (h : s.visible = t) :
    visibleOutcome (.next s) = visibleOutcome (.next t) := by
  subst h
  exact congrArg Host.Outcome.next s.visible_visible.symm

/-- The end of a step depends on its phases only up to what they made of the tiers. -/
theorem State.finish_visible {s : State} {p q : Res Effect} (h : p.visible = q) :
    visibleOutcome (s.finish p) = visibleOutcome (s.visible.finish q) := by
  subst h
  cases p with
  | ok e m => exact congrArg Host.Outcome.next (s.commit_visible e m)
  | raise r m => exact visibleOutcome_next (s.raise_visible r m)
  | hold => exact visibleOutcome_next rfl

/-! ## The instructions -/

theorem runF3_visible (s : State) (compute : Int → Int → Except Raise Int) (a b d : Mode) :
    visibleOutcome (s.runF3 compute a b d) = visibleOutcome (s.visible.runF3 compute a b d) := by
  simp only [State.runF3, State.visible_inst]
  refine State.finish_visible (Res.visible_bind (Inst.resolveF3_visible _ _ a b d) fun _ m => ?_)
  exact Res.visible_bind (Res.visible_ofExcept _ m) fun _ _ => rfl

theorem runJump_visible (s : State) (taken : Int → Bool) (c t : Mode) :
    visibleOutcome (s.runJump taken c t) = visibleOutcome (s.visible.runJump taken c t) := by
  simp only [State.runJump, State.visible_inst]
  refine State.finish_visible (Res.visible_bind (Inst.resolveF2R_visible _ _ c t) fun _ m => ?_)
  split
  · exact Res.visible_bind (Res.visible_ofExcept _ m) fun _ _ => rfl
  · rfl

theorem State.inputPhases_visible (s : State) (d : Mode) :
    (s.inputPhases d).visible = s.visible.inputPhases d := by
  simp only [State.inputPhases, State.visible_inst]
  refine Res.visible_bind (Inst.resolveF1W_visible _ _ d) fun _ m => ?_
  rw [show s.visible.chan s.inst.visible.inp = s.chan s.inst.inp from rfl]
  split <;> rfl

theorem execOutput_visible (s : State) (a : Mode) :
    visibleOutcome (execOutput a s) = visibleOutcome (execOutput a s.visible) := by
  simp only [execOutput, State.visible_inst]
  exact State.finish_visible (Res.visible_bind (Inst.resolveF1R_visible _ _ a) fun _ _ => rfl)

theorem execAdjustRelativeBase_visible (s : State) (a : Mode) :
    visibleOutcome (execAdjustRelativeBase a s) =
      visibleOutcome (execAdjustRelativeBase a s.visible) := by
  simp only [execAdjustRelativeBase, State.visible_inst]
  refine State.finish_visible (Res.visible_bind (Inst.resolveF1R_visible _ _ a) fun _ m => ?_)
  exact Res.visible_bind (Res.visible_ofExcept _ m) fun _ _ => rfl

theorem exec_visible (i : Instr) (s : State) :
    visibleOutcome (exec i s) = visibleOutcome (exec i s.visible) := by
  cases i with
  | add a b d => exact runF3_visible s (fun x y => checked (x + y)) a b d
  | multiply a b d => exact runF3_visible s (fun x y => checked (x * y)) a b d
  | input d => exact State.finish_visible (s.inputPhases_visible d)
  | output a => exact execOutput_visible s a
  | jumpIfTrue c t => exact runJump_visible s _ c t
  | jumpIfFalse c t => exact runJump_visible s _ c t
  | lessThan a b d => exact runF3_visible s (fun x y => .ok (lessThanResult x y)) a b d
  | equals a b d => exact runF3_visible s (fun x y => .ok (equalsResult x y)) a b d
  | adjustRelativeBase a => exact execAdjustRelativeBase_visible s a
  | halt => exact visibleOutcome_next s.haltInst_visible

theorem State.fetch_visible (s : State) : s.fetch.visible = s.visible.fetch := by
  simp only [State.fetch, State.setInst_visible, State.visible_inst, Inst.visible,
    Memory.touch_visible]
  rfl

theorem State.fetchedWord_visible (s : State) : s.visible.fetchedWord = s.fetchedWord := by
  simp only [State.fetchedWord, State.visible_inst]; rfl

theorem stepInst_visible (s : State) :
    visibleOutcome (stepInst s) = visibleOutcome (stepInst s.visible) := by
  unfold stepInst
  rw [State.fetchedWord_visible, ← State.fetch_visible]
  split
  · rw [State.visible_inst]
    exact visibleOutcome_next (s.fetch.raise_visible _ _)
  · exact exec_visible _ _

/-! ## The other agents -/

theorem State.relayStep_visible (s : State) : s.relayStep.visible = s.visible.relayStep := by
  unfold State.relayStep
  rw [show s.visible.finalChan = s.finalChan from rfl]
  split <;> rfl

theorem State.anyFaulted_visible (s : State) : s.visible.anyFaulted = s.anyFaulted := List.any_map

theorem State.completeStep_visible (s : State) : s.completeStep.visible = s.visible.completeStep := by
  unfold State.completeStep
  rw [show s.visible.runResult = s.runResult from rfl, State.visible_instAt]
  split <;> rfl

theorem State.orchestratorStep_visible (s : State) :
    s.orchestratorStep.visible = s.visible.orchestratorStep := by
  unfold State.orchestratorStep
  rw [State.anyFaulted_visible]
  split
  · rfl
  · exact s.completeStep_visible

theorem Params.buildInst_visible (p : Params) (k : Nat) :
    (p.buildInst k).visible = (p.visible.buildInst k).visible := by
  simp only [Params.buildInst, Inst.visible, Memory.load_visible p.threshold]
  rfl

theorem State.load_visible (s : State) (p : Params) :
    (s.load p).visible = (s.visible.load p.visible).visible := by
  have hinsts : ((List.range p.size).map p.buildInst).map Inst.visible =
      ((List.range p.size).map p.visible.buildInst).map Inst.visible := by
    rw [List.map_map, List.map_map]
    exact List.map_congr_left fun k _ => p.buildInst_visible k
  have htx : s.hostTx.map HostTx.visible = (s.hostTx.map HostTx.visible).map HostTx.visible := by
    simp [Function.comp_def, HostTx.visible_visible]
  simp only [State.visible, State.load, hinsts]
  rw [← htx]
  rfl

@[simp] theorem State.visible_hasHostIn (s : State) : s.visible.hasHostIn = s.hasHostIn := rfl

@[simp] theorem State.visible_hasHostOut (s : State) : s.visible.hasHostOut = s.hasHostOut := rfl

@[simp] theorem State.visible_chan (s : State) (i : Nat) : s.visible.chan i = s.chan i := rfl

@[simp] theorem State.visible_finalChan (s : State) : s.visible.finalChan = s.finalChan := rfl

theorem State.hostSend_visible (s : State) (v : Int) :
    visibleOutcome (s.hostSend v) = visibleOutcome (s.visible.hostSend v) := by
  unfold State.hostSend
  rw [State.visible_hasHostIn, State.visible_chan]
  split
  · rfl
  · split
    · rfl
    · split
      · rfl
      · exact visibleOutcome_next rfl

theorem State.hostClose_visible (s : State) :
    visibleOutcome s.hostClose = visibleOutcome s.visible.hostClose := by
  unfold State.hostClose
  rw [State.visible_hasHostIn]
  split
  · rfl
  · exact visibleOutcome_next rfl

theorem State.hostRecv_visible (s : State) :
    visibleOutcome s.hostRecv = visibleOutcome s.visible.hostRecv := by
  unfold State.hostRecv
  rw [State.visible_hasHostOut, State.visible_finalChan]
  split
  · rfl
  · split
    · rfl
    · split <;> exact visibleOutcome_next rfl

theorem State.hostDrop_visible (s : State) :
    visibleOutcome s.hostDrop = visibleOutcome s.visible.hostDrop := by
  unfold State.hostDrop
  rw [State.visible_hasHostOut]
  split
  · rfl
  · exact visibleOutcome_next rfl

theorem State.hostLoad_visible (s : State) (p : Params) :
    visibleOutcome (s.hostLoad p) = visibleOutcome (s.visible.hostLoad p.visible) := by
  unfold State.hostLoad
  rw [show p.visible.ok = p.ok from rfl]
  split
  · exact congrArg Host.Outcome.next (s.load_visible p)
  · rfl

/-- Each transaction of the host, with `T` forgotten in a LOAD. -/
theorem HostTx.perform_visible (x : HostTx) (s : State) :
    visibleOutcome (x.perform s) = visibleOutcome (x.visible.perform s.visible) := by
  cases x with
  | load p => exact s.hostLoad_visible p
  | send v => exact s.hostSend_visible v
  | closeIn => exact s.hostClose_visible
  | recvOut => exact s.hostRecv_visible
  | dropOut => exact s.hostDrop_visible

theorem State.visible_hostTx (s : State) : s.visible.hostTx = s.hostTx.map HostTx.visible := rfl

theorem hostStep_nil (hx : s.hostTx = []) : s.hostStep = .next s := by
  simp only [State.hostStep, hx]

theorem hostStep_visible (s : State) (rest : List Agent) :
    visibleOutcome (s.advance .host rest).hostStep =
      visibleOutcome (s.visible.advance .host rest).hostStep := by
  cases hx : s.hostTx with
  | nil =>
    have hx' : s.visible.hostTx = [] := by rw [State.visible_hostTx, hx]; rfl
    rw [hostStep_nil (s := s.advance .host rest) hx,
      hostStep_nil (s := s.visible.advance .host rest) hx']
    exact visibleOutcome_next rfl
  | cons x tx =>
    have hx' : s.visible.hostTx = x.visible :: tx.map HostTx.visible := by
      rw [State.visible_hostTx, hx]; rfl
    rw [hostStep_eq hx, hostStep_eq hx']
    exact x.perform_visible (s.served tx rest)

theorem runAgent_visible (s : State) (ag : Agent) (rest : List Agent) :
    visibleOutcome (runAgent ag (s.advance ag rest)) =
      visibleOutcome (runAgent ag (s.visible.advance ag rest)) := by
  cases ag with
  | inst k => exact stepInst_visible ((s.advance (.inst k) rest).focus k)
  | relay => exact visibleOutcome_next (s.advance .relay rest).relayStep_visible
  | orchestrator => exact visibleOutcome_next (s.advance .orchestrator rest).orchestratorStep_visible
  | host => exact hostStep_visible s rest

/-! ## The choice of the agent -/

theorem State.held_visible (s : State) (k : Nat) : s.visible.held k = s.held k := by
  have h : s.visible.WaitsForInput k ↔ s.WaitsForInput k := by
    unfold State.WaitsForInput
    rw [State.visible_instAt]
    exact Iff.rfl
  rw [Bool.eq_iff_iff, State.held_iff, State.held_iff, h]

theorem State.instReady_visible (s : State) (k : Nat) : s.visible.instReady k = s.instReady k := by
  simp only [State.instReady, State.held_visible, State.visible_instAt]
  rw [show s.visible.instances.length = s.instances.length from List.length_map _]
  rfl

theorem State.completeReady_visible (s : State) : s.visible.completeReady = s.completeReady := by
  have hhalted : s.visible.allHalted = s.allHalted := List.all_map
  simp only [State.completeReady, State.anyFaulted_visible, hhalted]
  rfl

theorem State.hostReady_visible (s : State) : s.visible.hostReady = s.hostReady := by
  unfold State.hostReady
  rw [State.visible_hostTx]
  cases s.hostTx with
  | nil => rfl
  | cons x tx => cases x <;> rfl

/-- Who has a step does not depend on the tiers. -/
theorem State.ready_visible (s : State) : s.visible.ready = s.ready := by
  funext ag
  cases ag with
  | inst k => exact congrArg (!s.orch.done && ·) (s.instReady_visible k)
  | relay => rfl
  | orchestrator =>
    have h : s.visible.orchestratorReady = s.orchestratorReady := by
      simp only [State.orchestratorReady, State.anyFaulted_visible, State.completeReady_visible]
    exact congrArg (!s.orch.done && ·) h
  | host => exact s.hostReady_visible

theorem State.pickScheduled_visible (s : State) (l : List Agent) :
    s.visible.pickScheduled l = s.pickScheduled l := by
  induction l with
  | nil => rfl
  | cons ag l ih => simp only [State.pickScheduled, State.ready_visible, ih]

theorem State.choose_visible (s : State) : s.visible.choose = s.choose := by
  simp only [State.choose, State.pickScheduled_visible, State.ready_visible]
  rfl

/-! ## The step -/

/-- A state steps as its visible part does. -/
theorem step_visible (s : State) : visibleOutcome (step s) = visibleOutcome (step s.visible) := by
  unfold step
  rw [State.choose_visible]
  split
  · exact runAgent_visible s _ _
  · rfl

/-- Settles O40: both states step as the visible part they share. -/
theorem thresholdCannotBeObserved : Obligations.ThresholdCannotBeObserved := fun s t h =>
  calc visibleOutcome (step s)
    _ = visibleOutcome (step s.visible) := step_visible s
    _ = visibleOutcome (step t.visible) := by rw [h]
    _ = visibleOutcome (step t) := (step_visible t).symm

end Sys2Proof.Machine

/-! SUPPORT. The statements about the encoding (30_encoding.md): the decoder is R83's loop over the roles of
R80, and what it answers is read off the digits of the word. -/

namespace Sys2Proof.Machine

variable {w i k : Nat} {v : Int} {write : Bool} {roles : List Bool} {m : Mode} {ms : List Mode}
  {e : DecodeError} {ins : Instr}

/-! ## One mode digit (R74, R75, R77) -/

/-- The mode of parameter `i` by its role: one pass of R83's loop. -/
def roleMode (w i : Nat) (write : Bool) : Except DecodeError Mode :=
  if write then writeMode w i else readMode w i

/-- The digits of the three modes, and those of none (R74, R75). -/
theorem digit_cases (d : Nat) : d = 0 ∨ d = 1 ∨ d = 2 ∨ ∃ n, d = n + 3 := by
  rcases d with _ | _ | _ | n <;> simp

theorem roleMode_ok_iff :
    roleMode w i write = .ok m ↔ (write = true → m.writable = true) ∧ modeDigit w i = m.digit := by
  unfold roleMode writeMode readMode
  obtain h | h | h | ⟨n, h⟩ := digit_cases (modeDigit w i) <;> rw [h] <;>
    cases write <;> cases m <;> simp [Mode.digit, Mode.writable]

theorem roleMode_error_iff :
    roleMode w i write = .error e ↔
      (3 ≤ modeDigit w i ∧ e = .illegalMode i) ∨
        (write = true ∧ modeDigit w i = 1 ∧ e = .illegalWriteTarget i) := by
  unfold roleMode writeMode readMode
  obtain h | h | h | ⟨n, h⟩ := digit_cases (modeDigit w i) <;> rw [h] <;>
    cases write <;> simp [eq_comm]

theorem digitLegal_iff : digitLegal write (modeDigit w i) ↔ ∃ m, roleMode w i write = .ok m := by
  unfold digitLegal roleMode writeMode readMode
  obtain h | h | h | ⟨n, h⟩ := digit_cases (modeDigit w i) <;> rw [h] <;> cases write <;> simp

/-! ## The mode digits of an instruction (R83) -/

/-- R83's loop over the parameters from index `i` on, stopping at the first that fails. -/
def roleModes (w : Nat) : Nat → List Bool → Except DecodeError (List Mode)
  | _, [] => .ok []
  | i, write :: roles =>
    (roleMode w i write).bind fun m => (roleModes w (i + 1) roles).bind fun ms => .ok (m :: ms)

theorem roleModes_cons_ok_iff :
    roleModes w i (write :: roles) = .ok ms ↔
      ∃ m ms', ms = m :: ms' ∧ roleMode w i write = .ok m ∧ roleModes w (i + 1) roles = .ok ms' := by
  rw [roleModes]
  cases roleMode w i write <;> cases roleModes w (i + 1) roles <;> simp [Except.bind, eq_comm]

theorem roleModes_cons_error_iff :
    roleModes w i (write :: roles) = .error e ↔
      roleMode w i write = .error e ∨
        digitLegal write (modeDigit w i) ∧ roleModes w (i + 1) roles = .error e := by
  rw [digitLegal_iff, roleModes]
  cases roleMode w i write <;> cases roleModes w (i + 1) roles <;> simp [Except.bind]

/-- `j` is the first of these parameters whose digit is refused, and `e` says why. -/
def FirstRefused (w i : Nat) (roles : List Bool) (j : Nat) (e : DecodeError) : Prop :=
  (∃ write, roles[j]? = some write ∧ roleMode w (i + j) write = .error e) ∧
    ∀ l write, l < j → roles[l]? = some write → digitLegal write (modeDigit w (i + l))

theorem firstRefused_zero : FirstRefused w i (write :: roles) 0 e ↔ roleMode w i write = .error e := by
  simp [FirstRefused]

theorem firstRefused_succ {j : Nat} :
    FirstRefused w i (write :: roles) (j + 1) e ↔
      digitLegal write (modeDigit w i) ∧ FirstRefused w (i + 1) roles j e := by
  unfold FirstRefused
  rw [← Nat.and_forall_add_one]
  simp only [List.getElem?_cons_zero, List.getElem?_cons_succ, Nat.add_lt_add_iff_right, Nat.add_zero,
    Nat.zero_lt_succ, forall_const, Option.some.injEq, forall_eq', ← Nat.add_assoc, Nat.add_right_comm _ _ 1]
  tauto

theorem roleModes_error_iff : roleModes w i roles = .error e ↔ ∃ j, FirstRefused w i roles j e := by
  induction roles generalizing i with
  | nil => simp [roleModes, FirstRefused]
  | cons write roles ih =>
    rw [roleModes_cons_error_iff, ← Nat.or_exists_add_one, firstRefused_zero, ih]
    simp [firstRefused_succ]

/-- The modes are as the roles ask: a write parameter's is never Immediate (R77). -/
def Admitted (roles : List Bool) (ms : List Mode) : Prop :=
  List.Forall₂ (fun write m => write = true → m.writable = true) roles ms

theorem digit_lt_ten (m : Mode) : m.digit < 10 := by cases m <;> decide

theorem encodeModes_lt (ms : List Mode) : encodeModes ms < 10 ^ ms.length := by
  induction ms with
  | nil => decide
  | cons m ms ih =>
    have := digit_lt_ten m
    rw [encodeModes, List.length_cons, pow_succ']
    omega

/-- A number's last digits are `d` and those of `r` above it, digit by digit. -/
theorem mod_ten_pow_succ_eq_iff {x n d r : Nat} (hd : d < 10) :
    x % 10 ^ (n + 1) = d + 10 * r ↔ x % 10 = d ∧ x / 10 % 10 ^ n = r := by
  rw [pow_succ', Nat.mod_mul]
  omega

/-- The loop answers modes exactly when they are admitted and their digits stand in the word from place
`i + 2` on. -/
theorem roleModes_ok_iff :
    roleModes w i roles = .ok ms ↔
      Admitted roles ms ∧ w / 10 ^ (i + 2) % 10 ^ ms.length = encodeModes ms := by
  induction roles generalizing i ms with
  | nil => cases ms <;> simp [roleModes, Admitted, encodeModes, Nat.mod_one]
  | cons write roles ih =>
    rw [roleModes_cons_ok_iff]
    cases ms with
    | nil => simp [Admitted]
    | cons m ms =>
      have hdiv : w / 10 ^ (i + 1 + 2) = w / 10 ^ (i + 2) / 10 := by
        rw [Nat.div_div_eq_div_mul, ← pow_succ, Nat.add_right_comm]
      rw [List.length_cons, encodeModes, mod_ten_pow_succ_eq_iff (digit_lt_ten m), ← hdiv]
      simp only [List.cons.injEq, ih, roleMode_ok_iff, Admitted, List.forall₂_cons, modeDigit]
      constructor
      · rintro ⟨_, _, ⟨rfl, rfl⟩, ⟨hm, hd⟩, hms, hds⟩
        exact ⟨⟨hm, hms⟩, hd, hds⟩
      · rintro ⟨⟨hm, hms⟩, hd, hds⟩
        exact ⟨m, ms, ⟨rfl, rfl⟩, ⟨hm, hd⟩, hms, hds⟩

/-! ## The opcodes (R80) -/

/-- The opcodes of R80's table. -/
abbrev KnownOpcode (op : Nat) : Prop := (1 ≤ op ∧ op ≤ 9) ∨ op = 99

/-- The instruction of a known opcode with these modes. -/
def assemble : Nat → List Mode → Instr
  | 1, [a, b, dest] => .add a b dest
  | 2, [a, b, dest] => .multiply a b dest
  | 3, [dest] => .input dest
  | 4, [a] => .output a
  | 5, [cond, target] => .jumpIfTrue cond target
  | 6, [cond, target] => .jumpIfFalse cond target
  | 7, [a, b, dest] => .lessThan a b dest
  | 8, [a, b, dest] => .equals a b dest
  | 9, [a] => .adjustRelativeBase a
  | _, _ => .halt

/-- The known opcodes by format: `F3`, `F2R`, `F1W`, `F1R` and `F0` (R78). -/
theorem KnownOpcode.cases {op : Nat} (h : KnownOpcode op) :
    (op = 1 ∨ op = 2 ∨ op = 7 ∨ op = 8) ∨ (op = 5 ∨ op = 6) ∨ op = 3 ∨ (op = 4 ∨ op = 9) ∨ op = 99 := by
  omega

theorem knownOpcode_opcode (ins : Instr) : KnownOpcode ins.opcode := by
  cases ins <;> simp [KnownOpcode, Instr.opcode]

theorem assemble_opcode_modes (ins : Instr) : assemble ins.opcode ins.modes = ins := by
  cases ins <;> rfl

/-- Opcode and modes can be read back from the instruction: admitted modes are as many as it has parameters. -/
theorem opcode_modes_assemble {op : Nat} (hop : KnownOpcode op) (h : Admitted (paramRoles op) ms) :
    (assemble op ms).opcode = op ∧ (assemble op ms).modes = ms := by
  have hlen : ms.length = (paramRoles op).length := h.length_eq.symm
  rcases hop.cases with (rfl | rfl | rfl | rfl) | (rfl | rfl) | rfl | (rfl | rfl) | rfl
  all_goals rcases ms with _ | ⟨a, _ | ⟨b, _ | ⟨d, _ | ⟨d, ms⟩⟩⟩⟩ <;> cases hlen
  all_goals exact ⟨rfl, rfl⟩

theorem wellFormed_iff_admitted : ins.wellFormed = true ↔ Admitted (paramRoles ins.opcode) ins.modes := by
  cases ins <;> simp [Instr.wellFormed, Admitted, Instr.opcode, Instr.modes, paramRoles]

/-! ## The decoder is R83's loop -/

section
variable {f : List Mode → Instr}

theorem decodeF1R_eq {mk : Mode → Instr} (hf : ∀ a, f [a] = mk a) :
    decodeF1R mk w = (roleModes w 0 [false]).map f := by
  simp only [decodeF1R, roleModes, roleMode]
  cases readMode w 0 <;> simp [Except.bind, Except.map, hf]

theorem decodeF1W_eq {mk : Mode → Instr} (hf : ∀ d, f [d] = mk d) :
    decodeF1W mk w = (roleModes w 0 [true]).map f := by
  simp only [decodeF1W, roleModes, roleMode]
  cases writeMode w 0 <;> simp [Except.bind, Except.map, hf]

theorem decodeF2R_eq {mk : Mode → Mode → Instr} (hf : ∀ a b, f [a, b] = mk a b) :
    decodeF2R mk w = (roleModes w 0 [false, false]).map f := by
  simp only [decodeF2R, roleModes, roleMode]
  cases readMode w 0 <;> cases readMode w 1 <;> simp [Except.bind, Except.map, hf]

theorem decodeF3_eq {mk : Mode → Mode → Mode → Instr} (hf : ∀ a b d, f [a, b, d] = mk a b d) :
    decodeF3 mk w = (roleModes w 0 [false, false, true]).map f := by
  simp only [decodeF3, roleModes, roleMode]
  cases readMode w 0 <;> cases readMode w 1 <;> cases writeMode w 2 <;>
    simp [Except.bind, Except.map, hf]

end

theorem decodeNat_of_known (h : KnownOpcode (w % 100)) :
    decodeNat w = (roleModes w 0 (paramRoles (w % 100))).map (assemble (w % 100)) := by
  unfold decodeNat
  rcases h.cases with (h | h | h | h) | (h | h) | h | (h | h) | h <;> rw [h]
  · exact decodeF3_eq fun _ _ _ => rfl
  · exact decodeF3_eq fun _ _ _ => rfl
  · exact decodeF3_eq fun _ _ _ => rfl
  · exact decodeF3_eq fun _ _ _ => rfl
  · exact decodeF2R_eq fun _ _ => rfl
  · exact decodeF2R_eq fun _ _ => rfl
  · exact decodeF1W_eq fun _ => rfl
  · exact decodeF1R_eq fun _ => rfl
  · exact decodeF1R_eq fun _ => rfl
  · rfl

theorem decodeNat_of_unknown (h : ¬ KnownOpcode (w % 100)) :
    decodeNat w = .error (.unknownOpcode w) := by
  unfold decodeNat
  split
  case h_11 => rfl
  all_goals exact absurd (by omega) h

/-- A word decodes to an instruction when it has its opcode and the loop answers its modes. -/
theorem decodeNat_ok_iff :
    decodeNat w = .ok ins ↔
      w % 100 = ins.opcode ∧ roleModes w 0 (paramRoles ins.opcode) = .ok ins.modes := by
  constructor
  · intro h
    have hop : KnownOpcode (w % 100) := by
      by_contra hop
      rw [decodeNat_of_unknown hop] at h
      cases h
    rw [decodeNat_of_known hop] at h
    cases hms : roleModes w 0 (paramRoles (w % 100)) with
    | error e => rw [hms] at h; cases h
    | ok ms =>
      rw [hms] at h
      cases h
      obtain ⟨hopcode, hmodes⟩ := opcode_modes_assemble hop (roleModes_ok_iff.mp hms).1
      rw [hopcode, hmodes]
      exact ⟨rfl, hms⟩
  · rintro ⟨hop, hms⟩
    rw [decodeNat_of_known (hop ▸ knownOpcode_opcode ins), hop, hms]
    exact congrArg Except.ok (assemble_opcode_modes ins)

theorem paramRoles_of_unknown {op : Nat} (h : ¬ KnownOpcode op) : paramRoles op = [] := by
  unfold paramRoles
  split
  case h_10 => rfl
  all_goals exact absurd (by decide) h

/-- The two ways a word fails to decode: its opcode, or its first refused parameter (R83). -/
theorem decodeNat_error_iff :
    decodeNat w = .error e ↔
      (¬ KnownOpcode (w % 100) ∧ e = .unknownOpcode w) ∨
        ∃ j, FirstRefused w 0 (paramRoles (w % 100)) j e := by
  rw [← roleModes_error_iff]
  by_cases hop : KnownOpcode (w % 100)
  · rw [decodeNat_of_known hop]
    cases roleModes w 0 (paramRoles (w % 100)) <;> simp [Except.map, hop]
  · rw [decodeNat_of_unknown hop, paramRoles_of_unknown hop]
    simp [roleModes, hop, eq_comm]

theorem decodeWord_natCast (w : Nat) : decodeWord w = decodeNat w := by
  simp [decodeWord, show ¬ ((w : Int) < 0) by omega]

theorem decodeWord_of_neg (h : v < 0) : decodeWord v = .error (.unknownOpcode v) := if_pos h

/-! ## Decoding and encoding -/

theorem encode_eq (ins : Instr) : encode ins = (ins.opcode + 100 * encodeModes ins.modes : Nat) := rfl

theorem ten_pow_width (ins : Instr) : 10 ^ (ins.width + 1) = 100 * 10 ^ ins.modes.length :=
  pow_add 10 ins.modes.length 2 |>.trans (Nat.mul_comm _ _)

theorem canonicalWord_lt (ins : Instr) :
    ins.opcode + 100 * encodeModes ins.modes < 10 ^ (ins.width + 1) := by
  have hop := knownOpcode_opcode ins
  have hmodes := encodeModes_lt ins.modes
  rw [ten_pow_width]
  omega

/-- The opcode and the consumed mode digits together are the word's last `width + 1` digits. -/
theorem decodeNat_ok_iff_mod :
    decodeNat w = .ok ins ↔
      ins.wellFormed = true ∧
        w % 10 ^ (ins.width + 1) = ins.opcode + 100 * encodeModes ins.modes := by
  have hop := knownOpcode_opcode ins
  have hplace : w / 10 ^ (0 + 2) = w / 100 := rfl
  rw [decodeNat_ok_iff, roleModes_ok_iff, ← wellFormed_iff_admitted, and_left_comm, hplace,
    ten_pow_width, Nat.mod_mul]
  refine and_congr_right fun _ => ?_
  generalize w / 100 % 10 ^ ins.modes.length = r
  omega

theorem mod_eq_iff_exists {x n r : Nat} (h : r < n) : x % n = r ↔ ∃ k, x = r + k * n := by
  simp [Nat.mod_eq_iff, h, Nat.ne_zero_of_lt h, Nat.mul_comm, Nat.add_comm]

/-- Settles O1: a natural word's last `width + 1` digits are the canonical word, the rest is free; no encoding
is negative. -/
theorem decodeAcceptsExactlyTheEncodings : Obligations.DecodeAcceptsExactlyTheEncodings := by
  intro v ins
  rw [encode_eq]
  cases v with
  | ofNat w =>
    rw [Int.ofNat_eq_natCast, decodeWord_natCast, decodeNat_ok_iff_mod,
      mod_eq_iff_exists (canonicalWord_lt ins)]
    simp only [← Nat.cast_add, Nat.cast_inj]
  | negSucc w =>
    rw [decodeWord_of_neg (Int.negSucc_lt_zero w)]
    exact iff_of_false nofun fun ⟨_, _, h⟩ => nomatch h

/-- Decoding a canonical word gives its instruction back (R86). -/
theorem decodeWord_of_encode (hw : encode ins = v) (h : ins.wellFormed = true) : decodeWord v = .ok ins :=
  (decodeAcceptsExactlyTheEncodings _ _).mpr ⟨h, 0, by simp [hw]⟩

/-- Settles O2: each word is the canonical word of its instruction. -/
theorem sourceWordsDecode : Obligations.SourceWordsDecode := by
  refine ⟨?_, ?_, ?_, ?_, ?_, ?_, ?_, ?_, ?_, ?_, ?_, ?_, ?_⟩ <;> exact decodeWord_of_encode rfl rfl

/-! ## Refused words -/

theorem not_firstRefused_unknownOpcode {j : Nat} : ¬ FirstRefused w i roles j (.unknownOpcode v) := by
  simp [FirstRefused, roleMode_error_iff]

theorem decodeWord_unknownOpcode_iff {u : Int} :
    decodeWord v = .error (.unknownOpcode u) ↔ (v < 0 ∨ ¬ KnownOpcode (v.toNat % 100)) ∧ u = v := by
  cases v with
  | ofNat w =>
    rw [Int.ofNat_eq_natCast, decodeWord_natCast, decodeNat_error_iff]
    simp [not_firstRefused_unknownOpcode]
  | negSucc w =>
    rw [decodeWord_of_neg (Int.negSucc_lt_zero w)]
    simp [eq_comm]

/-- Settles O3: the mode digits never give this error, so the sign and the opcode decide. -/
theorem unknownOpcodesExactly : Obligations.UnknownOpcodesExactly := by
  intro v
  simp only [decodeWord_unknownOpcode_iff, exists_eq_right]
  exact ⟨by omega, fun _ h => h.2⟩

/-- Settles O4: the error names the first refused parameter, and its digit says which error it is. -/
theorem badModeDigitsLowestIndexFirst : Obligations.BadModeDigitsLowestIndexFirst := by
  intro w i
  rw [decodeWord_natCast, decodeNat_error_iff, decodeNat_error_iff]
  simp [FirstRefused, roleMode_error_iff, and_assoc]

/-- Settles O5: opcode 99 has no parameter, so the loop looks at no digit. -/
theorem haltIgnoresModeDigits : Obligations.HaltIgnoresModeDigits := by
  intro v h0 h99
  obtain ⟨w, rfl⟩ := Int.eq_ofNat_of_zero_le h0
  have hop : w % 100 = 99 := by omega
  rw [decodeWord_natCast, decodeNat_of_known (.inr hop), hop]
  rfl

/-! ## The step of a machine whose word does not decode -/

theorem step_inst {s : State} {rest : List Agent} (hc : s.choose = some (.inst k, rest)) :
    step s = stepInst ((s.advance (.inst k) rest).focus k) := by
  simp [step, hc, runAgent]

theorem State.setInst_setInst (s : State) (x y : Inst) : (s.setInst x).setInst y = s.setInst y := by
  simp [State.setInst]

theorem State.fetch_release {s : State} (h : s.cur < s.instances.length) :
    s.fetch.release = s.release.fetch := by
  rw [State.release, State.fetch_inst h]
  rfl

theorem State.fetch_inst_raised {s : State} {r : Raise} {m : Memory} (h : s.cur < s.instances.length) :
    s.fetch.inst.raised r m = s.inst.raised r m := by
  rw [State.fetch_inst h]
  simp [Inst.raised]

/-- The fetch leaves no trace in a fault but the memory handed to it. -/
theorem State.fetch_raise {s : State} {r : Raise} {m : Memory} (h : s.cur < s.instances.length) :
    s.fetch.raise r m = s.raise r m :=
  calc s.fetch.raise r m
    _ = s.fetch.release.setInst (s.fetch.inst.raised r m) := rfl
    _ = s.release.fetch.setInst (s.inst.raised r m) := by
      rw [State.fetch_release h, State.fetch_inst_raised h]
    _ = s.raise r m := State.setInst_setInst _ _ _

/-- A word that does not decode faults the machine with the decoder's cause (60_exceptions.md R230, R231). -/
theorem stepInst_undecodable {s : State} (h : s.Wired) (he : decodeWord s.fetchedWord = .error e) :
    ∃ t, stepInst s = .next t ∧ FaultedWith s t (decodeRaise e).cause (decodeRaise e).info := by
  refine ⟨s.raise (decodeRaise e) s.fetch.inst.mem, ?_, State.raise_faultedWith h ?_⟩
  · rw [stepInst, he, ← State.fetch_raise h.1]
  · rw [State.fetch_inst h.1]
    exact .touch _ _ _

/-- Settles O8: the decoder refuses the word by its sign alone. -/
theorem negativeWordFaults : Obligations.NegativeWordFaults := by
  rintro s u k rest hc rfl hw hneg
  rw [step_inst hc]
  exact stepInst_undecodable hw (decodeWord_of_neg hneg)

end Sys2Proof.Machine

/-! SUPPORT. The statements about the resolution of parameters (40_operand_resolution.md): what the step runs,
the faults that end it before any effect, and that modes matter only through values and addresses. -/

namespace Sys2Proof.Machine

variable {s : State} {x : Inst} {T n : Nat} {i i' : Instr} {r : Raise} {a a' b b' d d' : Mode}

/-! ## The instruction a step runs (R100) -/

theorem stepInst_of_decodes (h : decodeWord s.fetchedWord = .ok i) : stepInst s = exec i s.fetch := by
  rw [stepInst, h]

/-- Settles O6: the chosen machine is made the current one and its word is fetched. -/
theorem stepRunsDecodedInstruction : Obligations.StepRunsDecodedInstruction := by
  intro s k rest i hc hd
  refine ⟨((s.advance (.inst k) rest).focus k).fetch, ?_, rfl, rfl, rfl, rfl, rfl, rfl, rfl, rfl, rfl, rfl⟩
  rw [step_inst hc]
  exact stepInst_of_decodes hd

/-! ## Effective addresses (R104) -/

theorem not_inVal_iff {v : Int} : ¬ InVal v ↔ v < minV ∨ maxV < v := by
  rw [not_and_or, Int.not_le, Int.not_le]

theorem checked_eq (v : Int) :
    checked v =
      if v < minV ∨ maxV < v then .error { cause := .arithmeticOverflow, info := v } else .ok v := by
  simp only [checked, ← not_inVal_iff, ite_not]

/-- Settles O14: a Relative sum is checked for its range and then, as a Position parameter is, for its sign. -/
theorem effectiveAddresses : Obligations.EffectiveAddresses := by
  rintro x i _ rfl
  refine ⟨rfl, ?_⟩
  rw [Inst.effAddr, Inst.raw_eq, checked_eq]
  split <;> rfl

/-! ## Faults of the resolution (R101, R103) -/

/-- A phase ends by `raise r`, memory only read. -/
def Res.Raises {α : Type} (T : Nat) (m : Memory) (r : Raise) (p : Res α) : Prop :=
  ∃ m', p = .raise r m' ∧ ReadsOnly T m m'

/-- The resolution of the instruction's parameters, by its format, ends by `raise r`. -/
def Inst.ResolutionRaises (T : Nat) (x : Inst) (r : Raise) : Instr → Prop
  | .add a b d | .multiply a b d | .lessThan a b d | .equals a b d =>
    (x.resolveF3 T a b d).Raises T x.mem r
  | .jumpIfTrue a b | .jumpIfFalse a b => (x.resolveF2R T a b).Raises T x.mem r
  | .input d => (x.resolveF1W T d).Raises T x.mem r
  | .output a | .adjustRelativeBase a => (x.resolveF1R T a).Raises T x.mem r
  | .halt => False

theorem State.finish_bind_of_raises {α : Type} {p : Res α} {f : α → Memory → Res Effect} (hw : s.Wired)
    (h : p.Raises s.threshold s.inst.mem r) :
    ∃ t, s.finish (p.bind f) = .next t ∧ FaultedWith s t r.cause r.info := by
  obtain ⟨m, rfl, hm⟩ := h
  exact ⟨_, rfl, State.raise_faultedWith hw hm⟩

/-- The resolution comes before any effect, so its fault is all the instruction does. -/
theorem exec_of_resolutionRaises (hw : s.Wired) (h : s.inst.ResolutionRaises s.threshold r i) :
    ∃ t, exec i s = .next t ∧ FaultedWith s t r.cause r.info := by
  cases i with
  | halt => exact h.elim
  | add | multiply | lessThan | equals | jumpIfTrue | jumpIfFalse | input | output | adjustRelativeBase =>
    exact State.finish_bind_of_raises hw h

theorem Inst.fetchParams_bind_raises {α : Type} {f : Unit → Memory → Res α} (h : ¬ x.Fits n) :
    ((x.fetchParams T n).bind f).Raises T x.mem { cause := .pcOverflow, info := x.pc } :=
  ⟨x.mem, by rw [Inst.fetchParams_of_not h, Res.bind_raise], .refl T x.mem⟩

theorem Inst.resolutionRaises_of_overflow (hi : i ≠ .halt) (h : maxAddr < x.pc + i.width) :
    x.ResolutionRaises T { cause := .pcOverflow, info := x.pc } i := by
  cases i with
  | halt => exact absurd rfl hi
  | add | multiply | lessThan | equals | jumpIfTrue | jumpIfFalse | input | output | adjustRelativeBase =>
    exact Inst.fetchParams_bind_raises (Nat.not_le.mpr h)

theorem Inst.resolutionRaises_of_firstFault {c : Cause} {info : Int} (hf : x.pc + i.width ≤ maxAddr)
    (h : x.firstFault i = some (c, info)) : x.ResolutionRaises T { cause := c, info := info } i := by
  cases i with
  | add | multiply | lessThan | equals => exact Inst.resolveF3_of_fault hf h
  | jumpIfTrue | jumpIfFalse => exact Inst.resolveF2R_of_fault hf h
  | input => exact Inst.resolveF1W_of_fault hf h
  | output | adjustRelativeBase => exact Inst.resolveF1R_of_fault hf h
  | halt => cases h

/-- Settles O15: every format begins with the test of R101. -/
theorem pcOverflowFaults : Obligations.PcOverflowFaults := fun _ _ hw hi h =>
  exec_of_resolutionRaises hw (Inst.resolutionRaises_of_overflow hi h)

/-- Settles O16: every format resolves its parameters in index order and stops at the first fault. -/
theorem firstUnresolvedParameterFaults : Obligations.FirstUnresolvedParameterFaults :=
  fun _ _ _ _ hw hf h => exec_of_resolutionRaises hw (Inst.resolutionRaises_of_firstFault hf h)

/-! ## Modes matter through values and addresses only (R108) -/

/-- Both modes resolve read parameter `k`, and to the same value. -/
def Inst.SameOperand (x : Inst) (k : Nat) (a a' : Mode) : Prop :=
  x.ReadOk k a ∧ x.ReadOk k a' ∧ x.operand k a = x.operand k a'

/-- Both modes resolve write parameter `k`, and to the same address. -/
def Inst.SameDest (x : Inst) (k : Nat) (d d' : Mode) : Prop :=
  x.DestOk k d ∧ x.DestOk k d' ∧ x.dest k d = x.dest k d'

theorem ReadsOnly.visible {m m' : Memory} (h : ReadsOnly T m m') : m'.visible = m.visible :=
  Memory.visible_eq_iff.mpr h.1

/-- Two resolutions that answer the same value where their `n` parameters fit look alike everywhere: where these
do not fit, both raise `PcOverflow`. -/
theorem Inst.fetchParams_bind_visible_congr {α : Type} {f g : Unit → Memory → Res α} {v : α}
    (hf : x.Fits n → ∃ m, (x.fetchParams T n).bind f = .ok v m ∧ ReadsOnly T x.mem m)
    (hg : x.Fits n → ∃ m, (x.fetchParams T n).bind g = .ok v m ∧ ReadsOnly T x.mem m) :
    ((x.fetchParams T n).bind f).visible = ((x.fetchParams T n).bind g).visible := by
  by_cases h : x.Fits n
  · obtain ⟨m, hm, hmr⟩ := hf h
    obtain ⟨m', hm', hmr'⟩ := hg h
    rw [hm, hm', Res.visible_ok, Res.visible_ok, hmr.visible, hmr'.visible]
  · rw [Inst.fetchParams_of_not h, Res.bind_raise, Res.bind_raise]

/-! In the visible part of a state reads leave no trace, so both choices of modes resolve to one answer. -/

theorem State.visible_resolveF1R_congr (ha : s.inst.SameOperand 0 a a') :
    s.visible.inst.resolveF1R 0 a = s.visible.inst.resolveF1R 0 a' := by
  obtain ⟨hok, hok', heq⟩ := ha
  rw [State.visible_inst, ← Inst.resolveF1R_visible 0, ← Inst.resolveF1R_visible 0]
  exact Inst.fetchParams_bind_visible_congr (fun hf => Inst.resolveF1R_of_ok hf hok)
    (fun hf => heq ▸ Inst.resolveF1R_of_ok hf hok')

theorem State.visible_resolveF1W_congr (hd : s.inst.SameDest 0 d d') :
    s.visible.inst.resolveF1W 0 d = s.visible.inst.resolveF1W 0 d' := by
  obtain ⟨hok, hok', heq⟩ := hd
  rw [State.visible_inst, ← Inst.resolveF1W_visible 0, ← Inst.resolveF1W_visible 0]
  exact Inst.fetchParams_bind_visible_congr (fun hf => Inst.resolveF1W_of_ok hf hok)
    (fun hf => heq ▸ Inst.resolveF1W_of_ok hf hok')

theorem State.visible_resolveF2R_congr (ha : s.inst.SameOperand 0 a a') (hb : s.inst.SameOperand 1 b b') :
    s.visible.inst.resolveF2R 0 a b = s.visible.inst.resolveF2R 0 a' b' := by
  obtain ⟨ha, ha', ea⟩ := ha
  obtain ⟨hb, hb', eb⟩ := hb
  rw [State.visible_inst, ← Inst.resolveF2R_visible 0, ← Inst.resolveF2R_visible 0]
  exact Inst.fetchParams_bind_visible_congr (fun hf => Inst.resolveF2R_of_ok hf ha hb)
    (fun hf => ea ▸ eb ▸ Inst.resolveF2R_of_ok hf ha' hb')

theorem State.visible_resolveF3_congr (ha : s.inst.SameOperand 0 a a') (hb : s.inst.SameOperand 1 b b')
    (hd : s.inst.SameDest 2 d d') :
    s.visible.inst.resolveF3 0 a b d = s.visible.inst.resolveF3 0 a' b' d' := by
  obtain ⟨ha, ha', ea⟩ := ha
  obtain ⟨hb, hb', eb⟩ := hb
  obtain ⟨hd, hd', ed⟩ := hd
  rw [State.visible_inst, ← Inst.resolveF3_visible 0, ← Inst.resolveF3_visible 0]
  exact Inst.fetchParams_bind_visible_congr (fun hf => Inst.resolveF3_of_ok hf ha hb hd)
    (fun hf => ea ▸ eb ▸ ed ▸ Inst.resolveF3_of_ok hf ha' hb' hd')

/-- Two instructions look alike where, in the visible part of the state, they go on in one way from resolutions
that answer the same. -/
theorem visibleOutcome_exec_congr {α : Type} {p p' : Res α} {f : α → Memory → Res Effect} (h : p = p')
    (hi : exec i s.visible = s.visible.finish (p.bind f))
    (hi' : exec i' s.visible = s.visible.finish (p'.bind f)) :
    visibleOutcome (exec i s) = visibleOutcome (exec i' s) := by
  rw [exec_visible i, exec_visible i', hi, hi', h]

/-- Settles O17: format by format, both choices of modes resolve to the same answer. -/
theorem addressingModesDoNotMatter : Obligations.AddressingModesDoNotMatter := by
  intro s a a' b b' d d'
  refine ⟨fun hd hd' ed => ?_, fun ha ha' ea => ?_⟩
  · exact visibleOutcome_exec_congr (State.visible_resolveF1W_congr ⟨hd, hd', ed⟩) rfl rfl
  have h1 := State.visible_resolveF1R_congr ⟨ha, ha', ea⟩
  refine ⟨visibleOutcome_exec_congr h1 rfl rfl, visibleOutcome_exec_congr h1 rfl rfl, fun hb hb' eb => ?_⟩
  have h2 := State.visible_resolveF2R_congr ⟨ha, ha', ea⟩ ⟨hb, hb', eb⟩
  refine ⟨visibleOutcome_exec_congr h2 rfl rfl, visibleOutcome_exec_congr h2 rfl rfl, fun hd hd' ed => ?_⟩
  have h3 := State.visible_resolveF3_congr ⟨ha, ha', ea⟩ ⟨hb, hb', eb⟩ ⟨hd, hd', ed⟩
  exact ⟨visibleOutcome_exec_congr h3 rfl rfl, visibleOutcome_exec_congr h3 rfl rfl,
    visibleOutcome_exec_congr h3 rfl rfl, visibleOutcome_exec_congr h3 rfl rfl⟩

end Sys2Proof.Machine

/-! SUPPORT. The statements about the arithmetic instructions (41_arithmetic.md): the commit of one store, and
the two ends of an instruction of format `F3` whose parameters resolve. -/

namespace Sys2Proof.Machine

variable {s : State} {e : Effect} {m : Memory} {r : Raise} {compute : Int → Int → Except Raise Int}
  {a b dest : Mode} {d : Nat} {v : Int}

/-! ## What a commit shows (R110) -/

theorem State.commit_movesTo (hc : s.cur < s.instances.length) (he : e.rb = none) :
    MovesTo s (s.commit e m) e.nextPc := by
  unfold MovesTo
  rw [State.commit_inst hc, Inst.commit, he, Option.getD_none]

/-- Reads before the store leave every cell as it was, so the store is all that shows. -/
theorem State.commit_storesOnly (hc : s.cur < s.instances.length)
    (hm : ReadsOnly s.threshold s.inst.mem m) (he : e.store = some (d, v)) :
    StoresOnly s (s.commit e m) d v := by
  intro k
  rw [State.commit_inst hc, Inst.commit, he, Memory.store_some, Memory.write_view, hm.view]

/-! ## Format `F3` with resolved parameters (R100, R103) -/

/-- The three parameters of an `F3` instruction and its successor are addressable, and each parameter
resolves. -/
structure Inst.ResolvesF3 (x : Inst) (a b dest : Mode) : Prop where
  fits : x.Fits 3
  left : x.ReadOk 0 a
  right : x.ReadOk 1 b
  dest : x.DestOk 2 dest

/-- Once its parameters are resolved, an `F3` instruction depends on its operands' values only. -/
theorem State.runF3_of_resolves (hr : s.inst.ResolvesF3 a b dest) :
    ∃ m, ReadsOnly s.threshold s.inst.mem m ∧
      s.runF3 compute a b dest =
        s.finish ((Res.ofExcept (compute (s.inst.operand 0 a) (s.inst.operand 1 b)) m).bind fun v m =>
          .ok { nextPc := s.inst.pc + 4, store := some (s.inst.dest 2 dest, v) } m) := by
  obtain ⟨m, hok, hm⟩ := Inst.resolveF3_of_ok (T := s.threshold) hr.fits hr.left hr.right hr.dest
  exact ⟨m, hm, by rw [State.runF3, hok, Res.bind_ok]⟩

/-- An `F3` instruction with a result stores it, moves on by 4 and changes nothing else. -/
theorem State.runF3_storesResult (hc : s.cur < s.instances.length) (hr : s.inst.ResolvesF3 a b dest)
    (hv : compute (s.inst.operand 0 a) (s.inst.operand 1 b) = .ok v) :
    ∃ t, s.runF3 compute a b dest = .next t ∧ MovesTo s t (s.inst.pc + 4) ∧
      StoresOnly s t (s.inst.dest 2 dest) v ∧ t.channels = s.channels ∧ SameElse s t := by
  obtain ⟨m, hm, hrun⟩ := State.runF3_of_resolves (compute := compute) hr
  rw [hrun, hv, Res.ofExcept_ok, Res.bind_ok, State.finish_ok]
  exact ⟨_, rfl, State.commit_movesTo hc rfl, State.commit_storesOnly hc hm rfl, rfl,
    State.commit_sameElse⟩

/-- An `F3` instruction whose result is refused faults with that refusal, and nothing else. -/
theorem State.runF3_faultedWith (hw : s.Wired) (hr : s.inst.ResolvesF3 a b dest)
    (he : compute (s.inst.operand 0 a) (s.inst.operand 1 b) = .error r) :
    ∃ t, s.runF3 compute a b dest = .next t ∧ FaultedWith s t r.cause r.info := by
  obtain ⟨m, hm, hrun⟩ := State.runF3_of_resolves (compute := compute) hr
  rw [hrun, he, Res.ofExcept_error, Res.bind_raise, State.finish_raise]
  exact ⟨_, rfl, State.raise_faultedWith hw hm⟩

/-! ## `adjust-relative-base` with a sum outside `Val` (R160) -/

theorem execAdjustRelativeBase_faultedWith (hw : s.Wired) (hf : s.inst.Fits 1) (ha : s.inst.ReadOk 0 a)
    (hn : ¬ InVal (s.inst.rb + s.inst.operand 0 a)) :
    ∃ t, execAdjustRelativeBase a s = .next t ∧
      FaultedWith s t .arithmeticOverflow (s.inst.rb + s.inst.operand 0 a) := by
  obtain ⟨m, hok, hm⟩ := Inst.resolveF1R_of_ok (T := s.threshold) hf ha
  rw [execAdjustRelativeBase, hok, Res.bind_ok, checked_of_not hn, Res.ofExcept_error, Res.bind_raise,
    State.finish_raise]
  exact ⟨_, rfl, State.raise_faultedWith hw hm⟩

/-! ## The statements -/

/-- Settles O18: a sum in `Val` passes the range check. -/
theorem addStoresSum : Obligations.AddStoresSum := fun _ _ _ _ hc hf ha hb hd hv =>
  State.runF3_storesResult (compute := fun x y => checked (x + y)) hc ⟨hf, ha, hb, hd⟩
    (checked_of_inVal hv)

/-- Settles O19: a product in `Val` passes the range check. -/
theorem multiplyStoresProduct : Obligations.MultiplyStoresProduct := fun _ _ _ _ hc hf ha hb hd hv =>
  State.runF3_storesResult (compute := fun x y => checked (x * y)) hc ⟨hf, ha, hb, hd⟩
    (checked_of_inVal hv)

/-- Settles O30: the range check comes after the resolution and before any effect. -/
theorem resultsOutsideValFault : Obligations.ResultsOutsideValFault := by
  refine fun s a b dest hw ha => ⟨fun hf hb hd => ?_, fun hf hn => ?_⟩
  · have hr : s.inst.ResolvesF3 a b dest := ⟨hf, ha, hb, hd⟩
    refine ⟨fun hn => ?_, fun hn => ?_⟩
    · exact State.runF3_faultedWith (compute := fun x y => checked (x + y)) hw hr (checked_of_not hn)
    · exact State.runF3_faultedWith (compute := fun x y => checked (x * y)) hw hr (checked_of_not hn)
  · exact execAdjustRelativeBase_faultedWith hw hf ha hn

end Sys2Proof.Machine

/-! SUPPORT. The statements about `input` and `output` (42_input_output.md): a commit that touches one channel,
the ends of `input` by its channel's answer, and what `output` sends. -/

namespace Sys2Proof.Machine

variable {s : State} {e : Effect} {m : Memory} {i : Nat} {f : Channel → Channel} {a dest : Mode}

/-- A commit whose effect on the channels is one operation on channel `i` leaves the others alone. -/
theorem State.commit_onlyChannel (he : s.commitChannels e = s.onChan i f) :
    OnlyChannel s (s.commit e m) i := by
  unfold OnlyChannel
  rw [State.commit_channels, he]
  exact ⟨State.onChan_length s i f, fun j hj => State.onChan_get_ne s i j f hj⟩

theorem State.commit_chan (he : s.commitChannels e = s.onChan i f) (hi : i < s.channels.length) :
    (s.commit e m).chan i = f (s.chan i) := by
  rw [State.commit, State.setInst_chan, he, State.onChan_chan s i f hi]

/-- Nothing is stored, so the reads before the commit are all that happens to memory. -/
theorem State.commit_sameMemory (hc : s.cur < s.instances.length)
    (hm : ReadsOnly s.threshold s.inst.mem m) (he : e.store = none) : SameMemory s (s.commit e m) := by
  intro k
  rw [State.commit_inst hc, Inst.commit, he, Memory.store_none, hm.view]

/-! ## A receive from a queue that is not empty (47_channel_interface.md R176) -/

theorem Channel.recv_of_cons {c : Channel} {v : Int} {rest : List Int} (h : c.queue = v :: rest) :
    c.recv = .value v := Channel.recv_value.mpr (by rw [h, List.head?_cons])

theorem Channel.consume_of_cons {c : Channel} {v : Int} {rest : List Int} (h : c.queue = v :: rest) :
    c.consume = { c with queue := rest } := by rw [Channel.consume, h, List.tail_cons]

/-! ## The two instructions with resolved parameters (R130, R132) -/

/-- Once its destination is resolved, `input` ends as its channel answers: a value is stored and consumed, the
end of the stream faults, and an empty channel holds. -/
theorem execInput_cases (hf : s.inst.Fits 1) (hd : s.inst.DestOk 0 dest) :
    ∃ m, ReadsOnly s.threshold s.inst.mem m ∧
      (∀ v, (s.chan s.inst.inp).recv = .value v →
        execInput dest s = .next (s.commit
          { nextPc := s.inst.pc + 2, store := some (s.inst.dest 0 dest, v), consume := true } m)) ∧
      ((s.chan s.inst.inp).recv = .eos →
        execInput dest s = .next (s.raise { cause := .inputAfterEndOfStream, info := 0 } m)) ∧
      ((s.chan s.inst.inp).recv = .empty → execInput dest s = .next s) := by
  obtain ⟨m, hok, hm⟩ := Inst.resolveF1W_of_ok (T := s.threshold) hf hd
  refine ⟨m, hm, ?_⟩
  rw [execInput, State.inputPhases, hok, Res.bind_ok]
  exact ⟨fun v h => by rw [h]; rfl, fun h => by rw [h]; rfl, fun h => by rw [h]; rfl⟩

/-- Once its parameter is resolved, `output` commits its operand as the value sent. -/
theorem execOutput_of_resolves (hf : s.inst.Fits 1) (ha : s.inst.ReadOk 0 a) :
    ∃ m, ReadsOnly s.threshold s.inst.mem m ∧
      execOutput a s =
        .next (s.commit { nextPc := s.inst.pc + 2, send := some (s.inst.operand 0 a) } m) := by
  obtain ⟨m, hok, hm⟩ := Inst.resolveF1R_of_ok (T := s.threshold) hf ha
  exact ⟨m, hm, by rw [execOutput, hok, Res.bind_ok, State.finish_ok]⟩

/-! ## The statements -/

/-- Settles O22: the channel answers its oldest value, which the commit stores and takes from the queue. -/
theorem inputStoresOldestValue : Obligations.InputStoresOldestValue := by
  rintro s dest v rest ⟨hc, hi, -, -⟩ hf hd hq
  obtain ⟨m, hm, hvalue, -, -⟩ := execInput_cases hf hd
  refine ⟨_, hvalue v (Channel.recv_of_cons hq), State.commit_movesTo hc rfl,
    State.commit_storesOnly hc hm rfl, ?_,
    State.commit_onlyChannel (f := Channel.consume) rfl, State.commit_sameElse⟩
  rw [State.commit_chan (f := Channel.consume) rfl hi, Channel.consume_of_cons hq]

/-- Settles O23: an empty channel answers "empty" while it is open and "end of stream" once it is closed. -/
theorem inputHoldsOrFaultsOnEmptyChannel : Obligations.InputHoldsOrFaultsOnEmptyChannel := by
  intro s dest hw hf hd hq
  obtain ⟨m, hm, -, heos, hempty⟩ := execInput_cases hf hd
  refine ⟨fun hopen => hempty (Channel.recv_empty.mpr ⟨hq, hopen⟩), fun hclosed => ?_⟩
  exact ⟨_, heos (Channel.recv_eos.mpr ⟨hq, hclosed⟩), State.raise_faultedWith hw hm⟩

/-- Settles O24: the commit sends the operand, and a channel whose consumer has dropped discards it. -/
theorem outputSendsOperand : Obligations.OutputSendsOperand := by
  rintro s a ⟨hc, -, ho, -⟩ hf ha
  obtain ⟨m, hm, hrun⟩ := execOutput_of_resolves hf ha
  exact ⟨_, hrun, State.commit_movesTo hc rfl, State.commit_sameMemory hc hm rfl,
    State.commit_chan (f := (Channel.send · (s.inst.operand 0 a))) rfl ho,
    State.commit_onlyChannel (f := (Channel.send · (s.inst.operand 0 a))) rfl, State.commit_sameElse⟩

end Sys2Proof.Machine

/-! SUPPORT. The statements about the jumps (43_jumps.md): the three ends of a conditional jump whose parameters
resolve, for any test of the condition, and the zero test of each of the two instructions. -/

namespace Sys2Proof.Machine

variable {s : State} {taken : Int → Bool} {cond target : Mode} {v : Int}

theorem condTrue_iff : condTrue v = true ↔ v ≠ 0 := decide_eq_true_iff

theorem condFalse_iff : condFalse v = true ↔ v = 0 := decide_eq_true_iff

theorem exec_jumpIfTrue : exec (.jumpIfTrue cond target) s = s.runJump condTrue cond target := rfl

theorem exec_jumpIfFalse : exec (.jumpIfFalse cond target) s = s.runJump condFalse cond target := rfl

/-! ## A conditional jump with resolved parameters (R103, R141) -/

/-- The two parameters of a conditional jump and its successor are addressable, and each parameter resolves. -/
structure Inst.ResolvesJump (x : Inst) (cond target : Mode) : Prop where
  fits : x.Fits 2
  cond : x.ReadOk 0 cond
  target : x.ReadOk 1 target

/-- Once its parameters are resolved, a jump ends in one of three ways: it is not taken and moves on by 3, it is
taken to an address, or it is taken to a negative target and faults. -/
theorem State.runJump_cases (hr : s.inst.ResolvesJump cond target) :
    ∃ m, ReadsOnly s.threshold s.inst.mem m ∧
      (¬ taken (s.inst.operand 0 cond) →
        s.runJump taken cond target = .next (s.commit { nextPc := s.inst.pc + 3 } m)) ∧
      (taken (s.inst.operand 0 cond) → 0 ≤ s.inst.operand 1 target →
        s.runJump taken cond target =
          .next (s.commit { nextPc := (s.inst.operand 1 target).toNat } m)) ∧
      (taken (s.inst.operand 0 cond) → s.inst.operand 1 target < 0 →
        s.runJump taken cond target =
          .next (s.raise { cause := .negativeAddress, info := s.inst.operand 1 target } m)) := by
  obtain ⟨m, hok, hm⟩ := Inst.resolveF2R_of_ok (T := s.threshold) hr.fits hr.cond hr.target
  refine ⟨m, hm, ?_⟩
  rw [State.runJump, hok, Res.bind_ok]
  refine ⟨fun h => ?_, fun h h0 => ?_, fun h hn => ?_⟩
  · rw [if_neg h, State.finish_ok]
  · rw [if_pos h, toAddress_of_nonneg h0, Res.ofExcept_ok, Res.bind_ok, State.finish_ok]
  · rw [if_pos h, toAddress_of_neg hn, Res.ofExcept_error, Res.bind_raise, State.finish_raise]

/-- A jump that does not fault writes `pc` and nothing else. -/
theorem State.runJump_movesTo (hc : s.cur < s.instances.length) (hr : s.inst.ResolvesJump cond target)
    (h0 : taken (s.inst.operand 0 cond) → 0 ≤ s.inst.operand 1 target) :
    ∃ t, s.runJump taken cond target = .next t ∧
      MovesTo s t
        (if taken (s.inst.operand 0 cond) then (s.inst.operand 1 target).toNat else s.inst.pc + 3) ∧
      SameMemory s t ∧ t.channels = s.channels ∧ SameElse s t := by
  obtain ⟨m, hm, huntaken, htaken, -⟩ := State.runJump_cases (taken := taken) hr
  split
  next h =>
    exact ⟨_, htaken h (h0 h), State.commit_movesTo hc rfl, State.commit_sameMemory hc hm rfl, rfl,
      State.commit_sameElse⟩
  next h =>
    exact ⟨_, huntaken h, State.commit_movesTo hc rfl, State.commit_sameMemory hc hm rfl, rfl,
      State.commit_sameElse⟩

/-- A jump that is not taken moves on by 3, whatever its target is. -/
theorem State.runJump_untaken (hc : s.cur < s.instances.length) (hr : s.inst.ResolvesJump cond target)
    (h : ¬ taken (s.inst.operand 0 cond)) :
    ∃ t, s.runJump taken cond target = .next t ∧ MovesTo s t (s.inst.pc + 3) := by
  obtain ⟨t, hrun, hpc, -⟩ := State.runJump_movesTo hc hr fun h' => absurd h' h
  rw [if_neg h] at hpc
  exact ⟨t, hrun, hpc⟩

/-- A jump taken to a negative target faults with that target. -/
theorem State.runJump_faultedWith (hw : s.Wired) (hr : s.inst.ResolvesJump cond target)
    (h : taken (s.inst.operand 0 cond)) (hn : s.inst.operand 1 target < 0) :
    ∃ t, s.runJump taken cond target = .next t ∧
      FaultedWith s t .negativeAddress (s.inst.operand 1 target) := by
  obtain ⟨m, hm, -, -, hfault⟩ := State.runJump_cases (taken := taken) hr
  exact ⟨_, hfault h hn, State.raise_faultedWith hw hm⟩

/-! ## The statements -/

/-- Settles O25: `jump-if-true` is the conditional jump whose test is "not 0". -/
theorem jumpIfTrueSetsPc : Obligations.JumpIfTrueSetsPc := by
  intro s cond target hc hf ha hb h0
  have := State.runJump_movesTo (taken := condTrue) hc ⟨hf, ha, hb⟩ fun h => h0 (condTrue_iff.mp h)
  simpa only [exec_jumpIfTrue, condTrue_iff] using this

/-- Settles O26: `jump-if-false` is the conditional jump whose test is "0". -/
theorem jumpIfFalseSetsPc : Obligations.JumpIfFalseSetsPc := by
  intro s cond target hc hf ha hb h0
  have := State.runJump_movesTo (taken := condFalse) hc ⟨hf, ha, hb⟩ fun h => h0 (condFalse_iff.mp h)
  simpa only [exec_jumpIfFalse, condFalse_iff] using this

/-- Settles O27: the sign of the target is looked at only when the test takes the jump, and of the two tests
each value passes one. -/
theorem takenJumpToNegativeTargetFaults : Obligations.TakenJumpToNegativeTargetFaults := by
  intro s cond target hw hf ha hb hn
  have hr : s.inst.ResolvesJump cond target := ⟨hf, ha, hb⟩
  rw [exec_jumpIfTrue, exec_jumpIfFalse]
  refine ⟨fun h => ⟨?_, ?_⟩, fun h => ⟨?_, ?_⟩⟩
  · exact State.runJump_faultedWith hw hr (condTrue_iff.mpr h) hn
  · exact State.runJump_untaken hw.1 hr (mt condFalse_iff.mp h)
  · exact State.runJump_faultedWith hw hr (condFalse_iff.mpr h) hn
  · exact State.runJump_untaken hw.1 hr fun h' => condTrue_iff.mp h' h

end Sys2Proof.Machine

/-! SUPPORT. The statements about the comparisons (44_compare.md): a comparison refuses no operands, as no range
check guards its result, so it ends as every `F3` instruction with a result does. -/

namespace Sys2Proof.Machine

theorem compareResult_decide (p : Prop) [Decidable p] : compareResult (decide p) = if p then 1 else 0 := by
  rw [compareResult]
  simp only [decide_eq_true_eq]

/-! ## The statements -/

/-- Settles O20: the result of the signed comparison is never refused. -/
theorem lessThanStoresComparison : Obligations.LessThanStoresComparison := by
  intro s a b dest hc hf ha hb hd
  rw [← compareResult_decide]
  exact State.runF3_storesResult (compute := fun x y => .ok (lessThanResult x y)) hc ⟨hf, ha, hb, hd⟩ rfl

/-- Settles O21: the result of the test for equality is never refused. -/
theorem equalsStoresComparison : Obligations.EqualsStoresComparison := by
  intro s a b dest hc hf ha hb hd
  rw [← compareResult_decide]
  exact State.runF3_storesResult (compute := fun x y => .ok (equalsResult x y)) hc ⟨hf, ha, hb, hd⟩ rfl

end Sys2Proof.Machine

/-! SUPPORT. The statements about `adjust-relative-base` and `halt` (45_relative_base_and_halt.md): the commit of
a new base, the release at a halt, and what an instruction without a Relative parameter does under another base. -/

namespace Sys2Proof.Machine

variable {s t : State} {x : Inst} {T i : Nat} {rb : Int} {e : Effect} {m : Memory} {r : Raise}
  {mode a b cond target dest : Mode} {compute : Int → Int → Except Raise Int} {taken : Int → Bool}

/-! ## `adjust-relative-base` with a sum in `Val` (R160) -/

/-- Once its parameter is resolved and the sum is in `Val`, `adjust-relative-base` commits the sum as the base. -/
theorem execAdjustRelativeBase_of_resolves (hf : s.inst.Fits 1) (ha : s.inst.ReadOk 0 a)
    (hv : InVal (s.inst.rb + s.inst.operand 0 a)) :
    ∃ m, ReadsOnly s.threshold s.inst.mem m ∧
      execAdjustRelativeBase a s =
        .next (s.commit
          { nextPc := s.inst.pc + 2, rb := some (s.inst.rb + s.inst.operand 0 a) } m) := by
  obtain ⟨m, hok, hm⟩ := Inst.resolveF1R_of_ok (T := s.threshold) hf ha
  refine ⟨m, hm, ?_⟩
  rw [execAdjustRelativeBase, hok, Res.bind_ok, checked_of_inVal hv, Res.ofExcept_ok, Res.bind_ok,
    State.finish_ok]

/-- Settles O28: the sum passes the range check, and the commit names it as the new base and stores nothing. -/
theorem adjustRelativeBaseAddsOperand : Obligations.AdjustRelativeBaseAddsOperand := by
  intro s a hc hf ha hv
  obtain ⟨m, hm, hrun⟩ := execAdjustRelativeBase_of_resolves hf ha hv
  refine ⟨_, hrun, ?_, State.commit_sameMemory hc hm rfl, rfl, State.commit_sameElse⟩
  rw [State.commit_inst hc]
  rfl

/-! ## `halt` (R163) -/

/-- Settles O29: `halt` has no phase that could fail, and its release reaches both endpoints. -/
theorem haltReleasesChannels : Obligations.HaltReleasesChannels := fun s hw =>
  ⟨s.haltInst, rfl, State.haltInst_inst hw.1, State.release_released hw, State.haltInst_sameElse⟩

/-! ## The same state with another base (R162) -/

/-- The machine with another relative base. -/
def Inst.withBase (x : Inst) (rb : Int) : Inst := { x with rb := rb }

/-- The state whose current machine has another relative base. -/
def State.withBase (s : State) (rb : Int) : State := s.setInst (s.inst.withBase rb)

theorem State.withBase_inst (hc : s.cur < s.instances.length) :
    (s.withBase rb).inst = s.inst.withBase rb := State.setInst_inst _ _ hc

/-- Setting the base of a machine just put in place is putting it there with that base. -/
theorem State.setInst_withBase (hc : s.cur < s.instances.length) :
    (s.setInst x).withBase rb = s.setInst (x.withBase rb) := by
  rw [State.withBase, State.setInst_inst s x hc, State.setInst_setInst]

/-- A machine put in place replaces the old one with its base. -/
theorem State.withBase_setInst : (s.withBase rb).setInst x = s.setInst x := State.setInst_setInst _ _ _

/-! ## Resolution without a Relative parameter (R104 to R106) -/

theorem Inst.withBase_fetchParams (n : Nat) : (x.withBase rb).fetchParams T n = x.fetchParams T n := rfl

/-- Only the effective address of a Relative parameter names `rb`. -/
theorem Inst.withBase_effAddr (h : .relative ≠ mode) :
    (x.withBase rb).effAddr i mode = x.effAddr i mode := by
  cases mode with
  | position => rfl
  | immediate => rfl
  | relative => exact absurd rfl h

theorem Inst.withBase_readOperand (h : .relative ≠ mode) :
    (x.withBase rb).readOperand T i mode m = x.readOperand T i mode m := by
  cases mode with
  | position => rfl
  | immediate => rfl
  | relative => exact absurd rfl h

theorem Inst.withBase_writeAddress (h : .relative ≠ mode) :
    (x.withBase rb).writeAddress i mode m = x.writeAddress i mode m := by
  rw [Inst.writeAddress, Inst.withBase_effAddr h, Inst.writeAddress]

theorem Inst.withBase_resolveF1R (h : .relative ∉ [a]) :
    (x.withBase rb).resolveF1R T a = x.resolveF1R T a := by
  have ha := List.ne_of_not_mem_cons h
  simp only [Inst.resolveF1R, Inst.withBase_fetchParams, Inst.withBase_readOperand ha]

theorem Inst.withBase_resolveF1W (h : .relative ∉ [dest]) :
    (x.withBase rb).resolveF1W T dest = x.resolveF1W T dest := by
  have hd := List.ne_of_not_mem_cons h
  simp only [Inst.resolveF1W, Inst.withBase_fetchParams, Inst.withBase_writeAddress hd]

theorem Inst.withBase_resolveF2R (h : .relative ∉ [a, b]) :
    (x.withBase rb).resolveF2R T a b = x.resolveF2R T a b := by
  obtain ⟨ha, h⟩ := List.ne_and_not_mem_of_not_mem_cons h
  have hb := List.ne_of_not_mem_cons h
  simp only [Inst.resolveF2R, Inst.withBase_fetchParams, Inst.withBase_readOperand ha,
    Inst.withBase_readOperand hb]

theorem Inst.withBase_resolveF3 (h : .relative ∉ [a, b, dest]) :
    (x.withBase rb).resolveF3 T a b dest = x.resolveF3 T a b dest := by
  obtain ⟨ha, h⟩ := List.ne_and_not_mem_of_not_mem_cons h
  obtain ⟨hb, h⟩ := List.ne_and_not_mem_of_not_mem_cons h
  have hd := List.ne_of_not_mem_cons h
  simp only [Inst.resolveF3, Inst.withBase_fetchParams, Inst.withBase_readOperand ha,
    Inst.withBase_readOperand hb, Inst.withBase_writeAddress hd]

/-! ## The ends of a step under another base (R110, R163, R231) -/

theorem State.withBase_release (hc : s.cur < s.instances.length) :
    (s.withBase rb).release = s.release.withBase rb := by
  rw [State.release, State.withBase_inst hc]
  rfl

theorem State.withBase_haltInst (hc : s.cur < s.instances.length) :
    (s.withBase rb).haltInst = s.haltInst.withBase rb := by
  rw [State.haltInst, State.haltInst, State.withBase_release hc, State.withBase_inst hc,
    State.withBase_setInst, State.setInst_withBase (s := s.release) hc]
  rfl

theorem State.withBase_raise (hc : s.cur < s.instances.length) :
    (s.withBase rb).raise r m = (s.raise r m).withBase rb := by
  rw [State.raise, State.raise, State.withBase_release hc, State.withBase_inst hc,
    State.withBase_setInst, State.setInst_withBase (s := s.release) hc]
  rfl

theorem State.withBase_commitChannels (hc : s.cur < s.instances.length) :
    (s.withBase rb).commitChannels e = (s.commitChannels e).withBase rb := by
  simp only [State.commitChannels, State.withBase_inst hc]
  split
  · split <;> rfl
  · split
    · rw [State.onChan_inst, State.withBase_inst hc]; rfl
    · rw [State.withBase_inst hc]; rfl

/-- An effect that names no base of its own keeps the one the machine has. -/
theorem Inst.withBase_commit (he : e.rb = none) :
    (x.withBase rb).commit T e m = (x.commit T e m).withBase rb := by
  simp only [Inst.commit, Inst.withBase, he, Option.getD_none]

theorem State.withBase_commit (hc : s.cur < s.instances.length) (he : e.rb = none) :
    (s.withBase rb).commit e m = (s.commit e m).withBase rb := by
  have hcc : (s.commitChannels e).cur < (s.commitChannels e).instances.length := by
    rwa [State.commitChannels_cur, State.commitChannels_instances]
  rw [State.commit, State.commit, State.withBase_commitChannels hc, State.withBase_inst hc,
    State.withBase_setInst, State.setInst_withBase hcc]
  exact congrArg _ (Inst.withBase_commit he)

/-- Phases that do not look at the base and name none end the step alike for every base. -/
theorem State.withBase_finish {p : Res Effect} (hc : s.cur < s.instances.length)
    (hp : p.Answers fun e => e.rb = none) (ht : s.finish p = .next t) :
    (s.withBase rb).finish p = .next (t.withBase rb) := by
  cases p with
  | ok e m => cases ht; exact congrArg Host.Outcome.next (State.withBase_commit hc hp)
  | raise r m => cases ht; exact congrArg Host.Outcome.next (State.withBase_raise hc)
  | hold => cases ht; rfl

/-! ## The instructions under another base -/

theorem runF3_withBase (hc : s.cur < s.instances.length) (h : .relative ∉ [a, b, dest])
    (ht : s.runF3 compute a b dest = .next t) :
    (s.withBase rb).runF3 compute a b dest = .next (t.withBase rb) := by
  rw [State.runF3, State.withBase_inst hc, Inst.withBase_resolveF3 h]
  exact State.withBase_finish hc (.bind fun _ _ => .bind fun _ _ => rfl) ht

theorem runJump_withBase (hc : s.cur < s.instances.length) (h : .relative ∉ [cond, target])
    (ht : s.runJump taken cond target = .next t) :
    (s.withBase rb).runJump taken cond target = .next (t.withBase rb) := by
  rw [State.runJump, State.withBase_inst hc, Inst.withBase_resolveF2R h]
  refine State.withBase_finish hc (.bind fun _ _ => ?_) ht
  split
  · exact .bind fun _ _ => rfl
  · rfl

theorem execOutput_withBase (hc : s.cur < s.instances.length) (h : .relative ∉ [a])
    (ht : execOutput a s = .next t) :
    execOutput a (s.withBase rb) = .next (t.withBase rb) := by
  rw [execOutput, State.withBase_inst hc, Inst.withBase_resolveF1R h]
  exact State.withBase_finish hc (.bind fun _ _ => rfl) ht

theorem execInput_withBase (hc : s.cur < s.instances.length) (h : .relative ∉ [dest])
    (ht : execInput dest s = .next t) :
    execInput dest (s.withBase rb) = .next (t.withBase rb) := by
  rw [execInput, State.inputPhases, State.withBase_inst hc, Inst.withBase_resolveF1W h]
  refine State.withBase_finish hc (.bind fun _ _ => ?_) ht
  split
  · rfl
  · trivial
  · trivial

/-- Settles O33: without a Relative parameter the resolution does not look at `rb`, and every other end of a step
but that of `adjust-relative-base` keeps it. -/
theorem relativeBaseReadOnlyByRelativeMode : Obligations.RelativeBaseReadOnlyByRelativeMode := by
  intro i s t rb hc h hne ht
  cases i with
  | add a b d => exact runF3_withBase (compute := fun x y => checked (x + y)) hc h ht
  | multiply a b d => exact runF3_withBase (compute := fun x y => checked (x * y)) hc h ht
  | input d => exact execInput_withBase hc h ht
  | output a => exact execOutput_withBase hc h ht
  | jumpIfTrue c d => exact runJump_withBase hc h ht
  | jumpIfFalse c d => exact runJump_withBase hc h ht
  | lessThan a b d => exact runF3_withBase (compute := fun x y => .ok (lessThanResult x y)) hc h ht
  | equals a b d => exact runF3_withBase (compute := fun x y => .ok (equalsResult x y)) hc h ht
  | adjustRelativeBase a => exact absurd rfl (hne a)
  | halt => cases ht; exact congrArg Host.Outcome.next (State.withBase_haltInst hc)

end Sys2Proof.Machine

/-! SUPPORT. The four channel operations over many operations and over a step (47_channel_interface.md R173 to
R185): what waits is received in order, and what has ended stays ended. -/

namespace Sys2Proof.Machine

variable {s t : State} {i : Nat} {f : Channel → Channel} {c d : Channel} {v : Int}

/-! ## Sends, then receives (R174, R176, R180) -/

/-- Sends to a consumer that listens append, in their order. -/
theorem Channel.foldl_send (h : c.dropped = false) (sent : List Int) :
    sent.foldl Channel.send c = { c with queue := c.queue ++ sent } := by
  induction sent generalizing c with
  | nil => simp
  | cons v sent ih =>
    rw [List.foldl_cons, ih (Channel.send_dropped.trans h), Channel.send_of_listening h]
    simp

/-- `n` receives take the `n` oldest values, or all there are. -/
theorem Channel.iterate_consume (c : Channel) (n : Nat) :
    Channel.consume^[n] c = { c with queue := c.queue.drop n } := by
  induction n with
  | zero => rfl
  | succ n ih =>
    rw [Function.iterate_succ_apply', ih, Channel.consume]
    simp

/-- The answer of a receive, from what waits first. -/
theorem Channel.recv_eq_head? (c : Channel) :
    c.recv = c.queue.head?.elim (if c.closed = true then .eos else .empty) .value := by
  unfold Channel.recv
  cases c.queue <;> rfl

/-- Settles O41, from the definitions of the four operations. -/
theorem sendAndRecv : Obligations.SendAndRecv := by
  refine fun c v => ⟨rfl, fun w rest h => ⟨Channel.recv_of_cons h, Channel.consume_of_cons h⟩, fun h => ?_⟩
  rw [Channel.recv_eq_head?, h, List.head?_nil, Option.elim_none]

/-- Settles O42: the sends append, `n` receives drop the `n` oldest, and the next answers what is then first. -/
theorem channelDeliversInOrder : Obligations.ChannelDeliversInOrder := by
  intro c sent n h
  rw [Channel.foldl_send h, Channel.iterate_consume, Channel.recv_eq_head?, List.head?_drop]
  cases (c.queue ++ sent)[n]? <;> rfl

/-! ## `closed` and `dropped` are final (R185) -/

/-- From `c` to `d` neither end of the channel is taken back. -/
def Channel.EndsKept (c d : Channel) : Prop :=
  (c.closed = true → d.closed = true) ∧ (c.dropped = true → d.dropped = true)

theorem Channel.EndsKept.refl (c : Channel) : c.EndsKept c := ⟨id, id⟩

theorem Channel.EndsKept.trans {c' : Channel} (h : c.EndsKept d) (h' : d.EndsKept c') : c.EndsKept c' :=
  ⟨h'.1 ∘ h.1, h'.2 ∘ h.2⟩

theorem Channel.endsKept_send : c.EndsKept (c.send v) :=
  ⟨Channel.send_closed.trans, Channel.send_dropped.trans⟩

theorem Channel.endsKept_consume : c.EndsKept c.consume := ⟨id, id⟩

theorem Channel.endsKept_closeOut : c.EndsKept c.closeOut := ⟨fun _ => rfl, id⟩

theorem Channel.endsKept_dropIn : c.EndsKept c.dropIn := ⟨id, fun _ => rfl⟩

/-- From `s` to `t` no channel's end is taken back. -/
def State.EndsKept (s t : State) : Prop := ∀ i, (s.chan i).EndsKept (t.chan i)

theorem State.EndsKept.refl (s : State) : s.EndsKept s := fun _ => .refl _

/-- A further channel operation that takes back neither end. -/
theorem State.EndsKept.onChan (h : s.EndsKept t) (hf : ∀ c : Channel, c.EndsKept (f c)) :
    s.EndsKept (t.onChan i f) :=
  fun j => (h j).trans (State.onChan_rel Channel.EndsKept.refl (hf _) j)

theorem State.release_endsKept (s : State) : s.EndsKept s.release :=
  ((State.EndsKept.refl s).onChan fun _ => Channel.endsKept_closeOut).onChan fun _ => Channel.endsKept_dropIn

theorem State.commitChannels_endsKept (s : State) (e : Effect) : s.EndsKept (s.commitChannels e) := by
  obtain ⟨u, hu, hsend⟩ := s.commitChannels_cases e
  have hkept : s.EndsKept u := by
    rcases hu with rfl | rfl
    · exact .refl _
    · exact (State.EndsKept.refl s).onChan fun _ => Channel.endsKept_consume
  rcases hsend with hsend | ⟨v, hsend⟩
  · rwa [hsend]
  · rw [hsend]
    exact hkept.onChan fun _ => Channel.endsKept_send

theorem GrownEnd.endsKept (h : GrownEnd s t) : s.EndsKept t := by
  cases h with
  | held => exact .refl s
  | raised => exact s.release_endsKept
  | committed e => exact s.commitChannels_endsKept e
  | halted => exact s.release_endsKept

/-- A machine's whole step ends as one of its instructions does, whatever the state. -/
theorem stepInst_grownEnd (ht : stepInst s = .next t) : GrownEnd s.fetch t := by
  rcases stepInst_cases (s := s) with ⟨err, -, hstep⟩ | ⟨i, -, hstep⟩
  · cases hstep.symm.trans ht
    exact .raised _ _ (.refl _)
  · exact exec_grownEnd (hstep.symm.trans ht)

theorem State.relayStep_endsKept (s : State) : s.EndsKept s.relayStep := by
  unfold State.relayStep
  split
  · exact ((State.EndsKept.refl s).onChan fun _ => Channel.endsKept_consume).onChan
      fun _ => Channel.endsKept_send
  · exact (State.EndsKept.refl s).onChan fun _ => Channel.endsKept_closeOut
  · exact .refl s

theorem State.orchestratorStep_endsKept (s : State) : s.EndsKept s.orchestratorStep := by
  unfold State.EndsKept State.chan
  rw [State.orchestratorStep_frame.2]
  exact fun _ => .refl _

/-- Settles O44: none of the four channel operations takes an end back, and no step of the run does anything
else to a channel. -/
theorem channelEndsAreFinal : Obligations.ChannelEndsAreFinal := by
  intro s t i hr ht
  obtain ⟨ag, rest, -, hrun, hne⟩ := runStep_next hr ht
  cases ag with
  | inst k => exact (stepInst_grownEnd hrun).endsKept i
  | relay => cases hrun; exact (s.advance .relay rest).relayStep_endsKept i
  | orchestrator => cases hrun; exact (s.advance .orchestrator rest).orchestratorStep_endsKept i
  | host => exact absurd rfl hne

end Sys2Proof.Machine

/-! SUPPORT. Two machines with one channel between them (47_channel_interface.md R181, R182). A machine's step is a
move: a new machine, an operation of the consumer on its input channel and one of the producer on its output
channel. The move depends on the machine, on `T` and on the answer of its input channel alone, another machine's
move changes none of these, and the consumer's and the producer's operations on one channel commute. -/

namespace Sys2Proof.Machine

variable {s t : State} {x : Inst} {i j k : Nat} {f g : Channel → Channel} {c : Channel} {e : Effect}

/-! ## The two users of a channel -/

/-- What one step of its consumer does to the channel `c`: nothing, taking a value that waits, or dropping. -/
inductive Channel.ConsumerOp (c : Channel) : (Channel → Channel) → Prop where
  | none : Channel.ConsumerOp c id
  | consume : c.queue ≠ [] → Channel.ConsumerOp c Channel.consume
  | drop : Channel.ConsumerOp c Channel.dropIn

/-- What one step of its producer does to a channel: nothing, one send, or closing. -/
inductive Channel.ProducerOp : (Channel → Channel) → Prop where
  | none : Channel.ProducerOp id
  | send (v : Int) : Channel.ProducerOp (Channel.send · v)
  | close : Channel.ProducerOp Channel.closeOut

/-- A value taken at the head and one appended at the tail of a queue that is not empty (R181). -/
theorem Channel.consume_send (h : c.queue ≠ []) (v : Int) : (c.send v).consume = c.consume.send v := by
  unfold Channel.send Channel.consume
  split
  · rfl
  · simp [List.tail_append_of_ne_nil h]

/-- A value sent before the consumer drops or discarded after it, nobody can tell (R174, R177, U18). -/
theorem Channel.dropIn_send (c : Channel) (v : Int) :
    (c.send v).dropIn.observable = (c.dropIn.send v).observable := by
  rw [Channel.send_of_dropped Channel.dropIn_dropped]
  unfold Channel.send Channel.observable Channel.dropIn
  split <;> rfl

theorem Channel.ConsumerOp.comm (hf : c.ConsumerOp f) (hg : Channel.ProducerOp g) :
    (f (g c)).observable = (g (f c)).observable := by
  cases hf with
  | none => rfl
  | consume hq =>
    cases hg with
    | none => rfl
    | send v => exact congrArg Channel.observable (Channel.consume_send hq v)
    | close => rfl
  | drop =>
    cases hg with
    | none => rfl
    | send v => exact c.dropIn_send v
    | close => rfl

/-- A producer that has not closed its channel changes only the answer "nothing yet" (R174, R175, R176). -/
theorem Channel.ProducerOp.recv (hg : Channel.ProducerOp g) (ho : c.closed = false) (hr : c.recv ≠ .empty) :
    (g c).recv = c.recv := by
  have hq : c.queue ≠ [] := fun h => hr (Channel.recv_empty.mpr ⟨h, ho⟩)
  obtain ⟨v, rest, hv⟩ := List.exists_cons_of_ne_nil hq
  rw [Channel.recv_of_cons hv]
  cases hg with
  | none => exact Channel.recv_of_cons hv
  | send w =>
    show (c.send w).recv = .value v
    unfold Channel.send
    split
    · exact Channel.recv_of_cons hv
    · exact Channel.recv_of_cons (rest := rest ++ [w]) (by simp [hv])
  | close => exact Channel.recv_of_cons hv

/-! ## Moves -/

/-- A step of one machine, as far as it changes the state. -/
structure Move where
  inst  : Inst
  onInp : Channel → Channel
  onOut : Channel → Channel

/-- The move of machine `k`, whose channels are `k` and `k + 1` (48_pipeline_orchestrator.md R193). -/
def State.move (s : State) (k : Nat) (mv : Move) : State :=
  { s with
    instances := s.instances.set k mv.inst
    channels := (s.channels.modify k mv.onInp).modify (k + 1) mv.onOut
    cur := k }

/-- The move uses its input channel, now `c`, as a consumer and its output channel as a producer. -/
def Move.Ok (mv : Move) (c : Channel) : Prop := c.ConsumerOp mv.onInp ∧ Channel.ProducerOp mv.onOut

/-- What the move of machine `k` does to channel `i`. -/
def Move.onChannel (mv : Move) (k i : Nat) : Channel → Channel :=
  if i = k then mv.onInp else if i = k + 1 then mv.onOut else id

theorem State.move_channels_get (s : State) (k i : Nat) (mv : Move) :
    (s.move k mv).channels[i]? = s.channels[i]?.map (mv.onChannel k i) := by
  rw [State.move, List.getElem?_modify, List.getElem?_modify, Move.onChannel]
  cases s.channels[i]? with
  | none => rfl
  | some c =>
    rcases eq_or_ne i k with rfl | hinp
    · simp
    rcases eq_or_ne i (k + 1) with rfl | hout
    · simp
    · simp [hinp, hinp.symm, hout, hout.symm]

theorem Move.onChannel_self (mv : Move) (k : Nat) : mv.onChannel k k = mv.onInp := if_pos rfl

theorem Move.onChannel_other (mv : Move) (h : i ≠ k) (h' : i ≠ k + 1) : mv.onChannel k i = id := by
  rw [Move.onChannel, if_neg h, if_neg h']

/-- On every channel but its input a move acts as a producer, if at all. -/
theorem Move.onChannel_producer {mv : Move} (hg : Channel.ProducerOp mv.onOut) (h : i ≠ k) :
    Channel.ProducerOp (mv.onChannel k i) := by
  rw [Move.onChannel, if_neg h]
  split
  · exact hg
  · exact .none

/-- Two machines share a channel only as its consumer and its producer (R181). -/
theorem Move.onChannel_comm {mj mk : Move} (hjk : j ≠ k) (hj : i = j → mj.Ok c) (hk : i = k → mk.Ok c)
    (hgj : Channel.ProducerOp mj.onOut) (hgk : Channel.ProducerOp mk.onOut) :
    (mk.onChannel k i (mj.onChannel j i c)).observable =
      (mj.onChannel j i (mk.onChannel k i c)).observable := by
  by_cases hij : i = j
  · subst hij
    rw [Move.onChannel_self]
    exact ((hj rfl).1.comm (Move.onChannel_producer hgk hjk)).symm
  by_cases hik : i = k
  · subst hik
    rw [Move.onChannel_self]
    exact (hk rfl).1.comm (Move.onChannel_producer hgj hij)
  by_cases hout : i = j + 1
  · rw [mk.onChannel_other hik (by omega)]; rfl
  · rw [mj.onChannel_other hij hout]; rfl

theorem State.chan_eq_of_get (h : s.channels[i]? = some c) : s.chan i = c := by
  rw [State.chan, List.getD_eq_getElem?_getD, h, Option.getD_some]

/-- The moves of two machines commute but for the queues of dropped channels (R181, U18). -/
theorem State.move_comm {mj mk : Move} (hjk : j ≠ k) (hj : mj.Ok (s.chan j)) (hk : mk.Ok (s.chan k)) :
    ((s.move j mj).move k mk).observable = ((s.move k mk).move j mj).observable := by
  have hinsts : ((s.move j mj).move k mk).instances = ((s.move k mk).move j mj).instances :=
    List.set_comm _ _ hjk
  have hchans : ((s.move j mj).move k mk).channels.map Channel.observable =
      ((s.move k mk).move j mj).channels.map Channel.observable := by
    refine List.ext_getElem? fun i => ?_
    simp only [List.getElem?_map, State.move_channels_get, Option.map_map]
    cases hc : s.channels[i]? with
    | none => rfl
    | some c =>
      have hci := State.chan_eq_of_get hc
      exact congrArg some (Move.onChannel_comm hjk (fun hi => hci ▸ hi ▸ hj) (fun hi => hci ▸ hi ▸ hk)
        hj.2 hk.2)
  unfold State.observable
  rw [hinsts, hchans]
  rfl

/-! ## The ends of a step are moves (40_operand_resolution.md R110, 45_relative_base_and_halt.md R163,
60_exceptions.md R231) -/

/-- The effect's operation on the input channel. -/
def Effect.onInp (e : Effect) : Channel → Channel := if e.consume then Channel.consume else id

/-- The effect's operation on the output channel. -/
def Effect.onOut (e : Effect) : Channel → Channel := e.send.elim id fun v c => c.send v

/-- A machine that has ended as `x` releases both its channels. -/
def Move.ending (x : Inst) : Move := { inst := x, onInp := Channel.dropIn, onOut := Channel.closeOut }

/-- The move of machine `x` whose phases end in this way. -/
def Res.move (T : Nat) (x : Inst) : Res Effect → Move
  | .ok e m => { inst := x.commit T e m, onInp := e.onInp, onOut := e.onOut }
  | .raise r m => .ending (x.raised r m)
  | .hold => { inst := x, onInp := id, onOut := id }

theorem State.onChan_id (s : State) (i : Nat) : s.onChan i id = s := by rw [State.onChan, List.modify_id]

theorem State.onChan_comm (s : State) (h : i ≠ j) : (s.onChan i f).onChan j g = (s.onChan j g).onChan i f := by
  simp only [State.onChan, List.modify_modify_ne f g s.channels h]

theorem State.commitChannels_eq (s : State) (e : Effect) :
    s.commitChannels e = (s.onChan s.inst.inp e.onInp).onChan s.inst.out e.onOut := by
  unfold State.commitChannels Effect.onInp Effect.onOut
  cases e.send with
  | none => split <;> simp only [Option.elim_none, State.onChan_id]
  | some v => split <;> simp only [Option.elim_some, State.onChan_id, State.onChan_inst]

theorem State.setInst_self (h : s.cur < s.instances.length) : s.setInst s.inst = s := by
  have hset : s.instances.set s.cur s.inst = s.instances := by
    rw [State.inst, State.instAt, List.getD_eq_getElem _ _ h, List.set_getElem_self]
  rw [State.setInst, hset]

/-- The current machine's move as operations on its two channels and its replacement. -/
theorem State.Inv.move_eq (h : s.Inv) (mv : Move) :
    s.move s.cur mv = ((s.onChan s.inst.inp mv.onInp).onChan s.inst.out mv.onOut).setInst mv.inst := by
  obtain ⟨hinp, hout⟩ := h.endpoints
  rw [hinp, hout]
  rfl

theorem State.Inv.release_setInst_eq (h : s.Inv) : s.release.setInst x = s.move s.cur (.ending x) := by
  obtain ⟨-, -, -, hne⟩ := h.wired
  rw [h.move_eq, State.onChan_comm s hne]
  rfl

theorem State.Inv.finish_eq (h : s.Inv) (p : Res Effect) :
    s.finish p = .next (s.move s.cur (p.move s.threshold s.inst)) := by
  cases p with
  | ok e m => rw [State.finish_ok, State.commit, State.commitChannels_eq, h.move_eq]; rfl
  | raise r m => exact congrArg Host.Outcome.next h.release_setInst_eq
  | hold =>
    rw [State.finish_hold, h.move_eq]
    simp only [Res.move, State.onChan_id, State.setInst_self h.wired.1]

/-! ## What a machine's step depends on (R182) -/

/-- The current machine cannot tell `t` from `s`: it is the same machine under the same `T`, and its input
channel, unless it has nothing yet, answers the same. -/
structure SeesAlike (s t : State) : Prop where
  cur : t.cur = s.cur
  inst : t.inst = s.inst
  threshold : t.threshold = s.threshold
  recv : (s.chan s.inst.inp).recv ≠ .empty → (t.chan s.inst.inp).recv = (s.chan s.inst.inp).recv

theorem SeesAlike.refl (s : State) : SeesAlike s s := ⟨rfl, rfl, rfl, fun _ => rfl⟩

theorem SeesAlike.fetch (h : SeesAlike s t) (hs : s.Inv) (ht : t.Inv) : SeesAlike s.fetch t.fetch := by
  have hinst : t.fetch.inst = s.fetch.inst := by
    rw [State.fetch_inst ht.wired.1, State.fetch_inst hs.wired.1, h.inst, h.threshold]
  refine ⟨h.cur, hinst, h.threshold, ?_⟩
  rw [State.fetch_inst hs.wired.1]
  exact h.recv

theorem SeesAlike.fetchedWord (h : SeesAlike s t) : t.fetchedWord = s.fetchedWord := by
  rw [State.fetchedWord, State.fetchedWord, h.inst]

/-- An `input` that does not hold resolves alike: either its destination faults or the channel has answered. -/
theorem SeesAlike.inputPhases {d : Mode} (h : SeesAlike s t) (hh : s.inputPhases d ≠ .hold) :
    t.inputPhases d = s.inputPhases d := by
  unfold State.inputPhases at hh ⊢
  rw [h.inst, h.threshold]
  cases hr : s.inst.resolveF1W s.threshold d with
  | ok a m =>
    rw [hr, Res.bind_ok] at hh
    have hne : (s.chan s.inst.inp).recv ≠ .empty := fun he => hh (by rw [he])
    rw [Res.bind_ok, Res.bind_ok, h.recv hne]
  | raise r m => rfl
  | hold => rfl

/-- The current machine is held exactly when its `input` ends in a hold. -/
theorem State.held_cur_iff (s : State) :
    s.held s.cur = true ↔ ∃ d, decodeWord s.fetchedWord = .ok (.input d) ∧ s.inputPhases d = .hold := by
  unfold State.held
  rw [show s.focus s.cur = s from rfl]
  split
  next d hd => cases hp : s.inputPhases d <;> simp [hd, hp]
  next hd => simpa using fun d h => absurd h (hd d)

theorem SeesAlike.held (h : SeesAlike s t) (hh : s.held s.cur = false) : t.held t.cur = false := by
  rw [← Bool.not_eq_true, State.held_cur_iff] at hh ⊢
  rintro ⟨d, hd, hp⟩
  rw [h.fetchedWord] at hd
  have hne : s.inputPhases d ≠ .hold := fun he => hh ⟨d, hd, he⟩
  exact hne ((h.inputPhases hne).symm.trans hp)

/-- The fetch changes nothing but the hidden tiers. -/
theorem State.visible_fetch (h : s.cur < s.instances.length) : s.fetch.visible = s.visible := by
  have hinst : ({ s.inst with mem := s.inst.mem.touch s.threshold s.inst.pc } : Inst).visible =
      s.visible.inst := by simp [Inst.visible]
  have hcur : s.visible.cur < s.visible.instances.length := by simpa [State.visible] using h
  rw [State.fetch, State.setInst_visible, hinst, State.setInst_self hcur]

/-- `run` ends a step of the current machine with the same phases in every state that machine cannot tell
from `s`, and consumes only a value that waits. -/
def EndsAlike (s : State) (run : State → Host.Outcome State Fault Refusal) : Prop :=
  ∃ p : Res Effect, p.Answers (fun e => e.consume = true → (s.chan s.inst.inp).queue ≠ []) ∧
    ∀ t, SeesAlike s t → run t = t.finish p

theorem runF3_endsAlike (s : State) (compute : Int → Int → Except Raise Int) (a b d : Mode) :
    EndsAlike s (State.runF3 · compute a b d) := by
  refine ⟨_, ?_, fun t h => by beta_reduce; rw [State.runF3, h.inst, h.threshold]⟩
  exact .bind fun _ _ => .bind fun _ _ => fun h => nomatch h

theorem runJump_endsAlike (s : State) (taken : Int → Bool) (c d : Mode) :
    EndsAlike s (State.runJump · taken c d) := by
  refine ⟨_, ?_, fun t h => by beta_reduce; rw [State.runJump, h.inst, h.threshold]⟩
  refine .bind fun q _ => ?_
  split
  · exact .bind fun _ _ => fun h => nomatch h
  · exact fun h => nomatch h

theorem execOutput_endsAlike (s : State) (a : Mode) : EndsAlike s (execOutput a) := by
  refine ⟨_, ?_, fun t h => by rw [execOutput, h.inst, h.threshold]⟩
  exact .bind fun _ _ => fun h => nomatch h

theorem execAdjustRelativeBase_endsAlike (s : State) (a : Mode) :
    EndsAlike s (execAdjustRelativeBase a) := by
  refine ⟨_, ?_, fun t h => by rw [execAdjustRelativeBase, h.inst, h.threshold]⟩
  exact .bind fun _ _ => .bind fun _ _ => fun h => nomatch h

theorem execInput_endsAlike {d : Mode} (hh : s.inputPhases d ≠ .hold) : EndsAlike s (execInput d) := by
  refine ⟨s.inputPhases d, .bind fun _ _ => ?_, fun t h => by rw [execInput, h.inputPhases hh]⟩
  split
  next v hv => exact fun _ hq => by simp [Channel.recv_value, hq] at hv
  next => trivial
  next => trivial

/-- `run` is the same move in every state the current machine cannot tell from `s`. -/
def MovesAlike (s : State) (run : State → Host.Outcome State Fault Refusal) : Prop :=
  ∃ mv : Move, mv.Ok (s.chan s.cur) ∧ ∀ t, t.Inv → SeesAlike s t → run t = .next (t.move t.cur mv)

theorem Effect.onOut_producer (e : Effect) : Channel.ProducerOp e.onOut := by
  unfold Effect.onOut
  cases e.send with
  | none => exact .none
  | some v => exact .send v

theorem Effect.onInp_consumer (h : e.consume = true → c.queue ≠ []) : c.ConsumerOp e.onInp := by
  unfold Effect.onInp
  split
  next hc => exact .consume (h hc)
  next => exact .none

theorem Res.move_ok {p : Res Effect} (T : Nat) (x : Inst)
    (h : p.Answers fun e => e.consume = true → c.queue ≠ []) : (p.move T x).Ok c := by
  cases p with
  | ok e m => exact ⟨e.onInp_consumer h, e.onOut_producer⟩
  | raise r m => exact ⟨.drop, .close⟩
  | hold => exact ⟨.none, .none⟩

theorem EndsAlike.movesAlike {run : State → Host.Outcome State Fault Refusal} (h : EndsAlike s run)
    (hs : s.Inv) : MovesAlike s run := by
  obtain ⟨p, hp, hrun⟩ := h
  rw [hs.endpoints.1] at hp
  refine ⟨p.move s.threshold s.inst, Res.move_ok _ _ hp, fun t ht hst => ?_⟩
  rw [hrun t hst, ht.finish_eq, hst.threshold, hst.inst]

theorem execHalt_movesAlike (s : State) : MovesAlike s execHalt := by
  refine ⟨.ending { s.inst with status := .halted }, ⟨.drop, .close⟩, fun t ht hst => ?_⟩
  rw [execHalt, State.haltInst, ht.release_setInst_eq, hst.inst]

theorem exec_movesAlike (hs : s.Inv) (i : Instr) (hh : ∀ d, i = .input d → s.inputPhases d ≠ .hold) :
    MovesAlike s (exec i) := by
  cases i with
  | add a b d => exact (runF3_endsAlike s (fun x y => checked (x + y)) a b d).movesAlike hs
  | multiply a b d => exact (runF3_endsAlike s (fun x y => checked (x * y)) a b d).movesAlike hs
  | input d => exact (execInput_endsAlike (hh d rfl)).movesAlike hs
  | output a => exact (execOutput_endsAlike s a).movesAlike hs
  | jumpIfTrue c d => exact (runJump_endsAlike s condTrue c d).movesAlike hs
  | jumpIfFalse c d => exact (runJump_endsAlike s condFalse c d).movesAlike hs
  | lessThan a b d => exact (runF3_endsAlike s (fun x y => .ok (lessThanResult x y)) a b d).movesAlike hs
  | equals a b d => exact (runF3_endsAlike s (fun x y => .ok (equalsResult x y)) a b d).movesAlike hs
  | adjustRelativeBase a => exact (execAdjustRelativeBase_endsAlike s a).movesAlike hs
  | halt => exact execHalt_movesAlike s

theorem State.fetch_move (s : State) (mv : Move) : s.fetch.move s.cur mv = s.move s.cur mv := by
  simp only [State.move, State.fetch, State.setInst, List.set_set]

/-- A move after the fetch is a move of the whole step. -/
theorem MovesAlike.of_fetch {run : State → Host.Outcome State Fault Refusal} (h : MovesAlike s.fetch run)
    (hs : s.Inv) (hrun : ∀ t, t.Inv → SeesAlike s t → stepInst t = run t.fetch) :
    MovesAlike s stepInst := by
  obtain ⟨mv, hmv, hmove⟩ := h
  refine ⟨mv, hmv, fun t ht hst => ?_⟩
  rw [hrun t ht hst, hmove t.fetch ht.fetch (hst.fetch hs ht)]
  exact congrArg Host.Outcome.next (t.fetch_move mv)

/-- The fetch does not end a hold. -/
theorem State.fetch_held (h : s.cur < s.instances.length) : s.fetch.held s.cur = s.held s.cur := by
  rw [← State.held_visible s.fetch, State.visible_fetch h, State.held_visible]

theorem State.fetch_fetchedWord (h : s.cur < s.instances.length) : s.fetch.fetchedWord = s.fetchedWord := by
  rw [← State.fetchedWord_visible s.fetch, State.visible_fetch h, State.fetchedWord_visible]

/-- A machine that is not held takes the same move in every state it cannot tell from `s`. -/
theorem stepInst_movesAlike (hs : s.Inv) (hh : s.held s.cur = false) : MovesAlike s stepInst := by
  have hcur := hs.wired.1
  cases hd : decodeWord s.fetchedWord with
  | error err =>
    have hraise : EndsAlike s.fetch fun u => u.finish (.raise (decodeRaise err) s.fetch.inst.mem) :=
      ⟨.raise _ _, trivial, fun _ _ => rfl⟩
    refine (hraise.movesAlike hs.fetch).of_fetch hs fun t ht hst => ?_
    rw [stepInst, hst.fetchedWord, hd, (hst.fetch hs ht).inst]
    rfl
  | ok i =>
    refine (exec_movesAlike hs.fetch i ?_).of_fetch hs fun t _ hst => ?_
    · rintro d rfl hp
      have hheld : s.fetch.held s.cur = true :=
        (State.held_cur_iff s.fetch).mpr ⟨d, (State.fetch_fetchedWord hcur).symm ▸ hd, hp⟩
      rw [State.fetch_held hcur, hh] at hheld
      cases hheld
    · rw [stepInst, hst.fetchedWord, hd]

/-! ## One machine's move after another's -/

theorem State.ready_inst_iff_held (s : State) (k : Nat) :
    s.ready (.inst k) = true ↔
      s.orch.done = false ∧ k < s.instances.length ∧ (s.instAt k).status = .running ∧
        s.held k = false := by
  rw [State.ready_inst_iff, ← State.held_iff, Bool.not_eq_true]

/-- A machine with a step takes a move, the same in every state it cannot tell from this one. -/
theorem State.Inv.machine_move (h : s.Inv) (hk : s.ready (.inst k) = true) :
    ∃ mv : Move, mv.Ok (s.chan k) ∧ ∀ t, (t.focus k).Inv → SeesAlike (s.focus k) (t.focus k) →
      runAgent (.inst k) t = .next (t.move k mv) := by
  obtain ⟨-, hlt, -, hheld⟩ := (s.ready_inst_iff_held k).mp hk
  obtain ⟨mv, hmv, hmove⟩ := stepInst_movesAlike (h.focus hlt) hheld
  exact ⟨mv, hmv, fun t ht hst => hmove (t.focus k) ht hst⟩

/-- The next state of a machine with a step meets the invariant. -/
theorem State.Inv.runAgent_inst (h : s.Inv) (hk : s.ready (.inst k) = true)
    (ht : runAgent (.inst k) s = .next t) : t.Inv := by
  obtain ⟨-, hlt, hs, -⟩ := (s.ready_inst_iff k).mp hk
  have hf := h.focus hlt
  exact (hf.stepInst_ended ht).inv hf.fetch ((congrArg Inst.status (State.fetch_inst hf.wired.1)).trans hs)

theorem State.move_instAt_ne (s : State) (mv : Move) (h : k ≠ j) : (s.move j mv).instAt k = s.instAt k := by
  rw [State.instAt, State.instAt, List.getD_eq_getElem?_getD, List.getD_eq_getElem?_getD, State.move,
    List.getElem?_set_ne (Ne.symm h)]

theorem State.move_chan (mv : Move) (h : i < s.channels.length) :
    (s.move j mv).chan i = mv.onChannel j i (s.chan i) := by
  simp [State.chan, List.getD_eq_getElem?_getD, State.move_channels_get, h]

/-- Another machine's move leaves a machine and the answer of its input channel as they are: it only produces
into that channel, which it has not closed. -/
theorem State.Inv.seesAlike_move {mv : Move} (h : s.Inv) (hjk : j ≠ k) (hj : s.ready (.inst j) = true)
    (hk : k < s.instances.length) (hmv : mv.Ok (s.chan j)) :
    SeesAlike (s.focus k) ((s.move j mv).focus k) := by
  refine ⟨rfl, s.move_instAt_ne mv hjk.symm, rfl, fun hr => ?_⟩
  obtain ⟨-, hjlt, hrunning, -⟩ := (s.ready_inst_iff j).mp hj
  obtain ⟨-, ⟨hinsts, hchans, -⟩, -, -, hends, -⟩ := id h
  have hinp : (s.focus k).inst.inp = k := (h.focus hk).endpoints.1
  have hklt : k < s.channels.length := by omega
  rw [hinp, State.focus_chan] at hr
  rw [hinp, State.focus_chan, State.focus_chan, State.move_chan mv hklt]
  by_cases hout : k = j + 1
  · have hopen : (s.chan k).closed = false := hout ▸ (hends j hjlt).1.mp hrunning
    exact (Move.onChannel_producer hmv.2 hjk.symm).recv hopen hr
  · rw [mv.onChannel_other hjk.symm hout]
    rfl

/-- After another machine's move a machine still has its step, and it is the same move. -/
theorem State.Inv.move_after {mj mk : Move} (h : s.Inv) (hjk : j ≠ k) (hj : s.ready (.inst j) = true)
    (hk : s.ready (.inst k) = true) (hmj : mj.Ok (s.chan j)) (ht : (s.move j mj).Inv)
    (hmove : ∀ t, (t.focus k).Inv → SeesAlike (s.focus k) (t.focus k) →
      runAgent (.inst k) t = .next (t.move k mk)) :
    (s.move j mj).ready (.inst k) = true ∧
      runAgent (.inst k) (s.move j mj) = .next ((s.move j mj).move k mk) := by
  obtain ⟨hdone, hlt, hrunning, hheld⟩ := (s.ready_inst_iff_held k).mp hk
  have hsees := h.seesAlike_move hjk hj hlt hmj
  have hlt' : k < (s.move j mj).instances.length := by simpa [State.move] using hlt
  refine ⟨(State.ready_inst_iff_held _ k).mpr ⟨hdone, hlt', ?_, hsees.held hheld⟩,
    hmove _ (ht.focus hlt') hsees⟩
  rw [s.move_instAt_ne mj hjk.symm]
  exact hrunning

/-- Settles O60: each machine's step is a move that the other's does not change, and the two moves commute. -/
theorem machineStepsCommute : Obligations.MachineStepsCommute := by
  intro s s1 s2 j k h hjk hj hk h1 h2
  obtain ⟨-, hjlt, -⟩ := (s.ready_inst_iff j).mp hj
  obtain ⟨-, hklt, -⟩ := (s.ready_inst_iff k).mp hk
  obtain ⟨mj, hmj, hmovej⟩ := h.machine_move hj
  obtain ⟨mk, hmk, hmovek⟩ := h.machine_move hk
  have hs1 : s1 = s.move j mj := Host.Outcome.next.inj (h1.symm.trans (hmovej s (h.focus hjlt) (.refl _)))
  have hs2 : s2 = s.move k mk := Host.Outcome.next.inj (h2.symm.trans (hmovek s (h.focus hklt) (.refl _)))
  have hinv1 := h.runAgent_inst hj h1
  have hinv2 := h.runAgent_inst hk h2
  subst hs1 hs2
  obtain ⟨hready1, hrun1⟩ := h.move_after hjk hj hk hmj hinv1 hmovek
  obtain ⟨hready2, hrun2⟩ := h.move_after hjk.symm hk hj hmk hinv2 hmovej
  exact ⟨hready1, hready2, _, _, hrun1, hrun2, State.move_comm hjk hmj hmk⟩

end Sys2Proof.Machine

/-! SUPPORT. The statements about the block's own steps: when it stops, the relay and the end of a run
(48_pipeline_orchestrator.md R205 to R211), the seeds of the channels (R196, R202), a word that does not decode
(60_exceptions.md R230), and the round robin's bound (70_reset_and_hazards.md R263). -/

namespace Sys2Proof.Machine

variable {s t : State} {ag : Agent} {rest : List Agent} {v : Int} {p : Params}

/-! ## Who steps, and when nobody does (R208, R211) -/

/-- Settles O46: of the agents that can have a step after `done` the host is the only one. -/
theorem nobodyStepsAfterDone : Obligations.NobodyStepsAfterDone := by
  intro s ag rest hdone hc
  have hready := (chosenAgentHasStep s ag rest hc).1
  cases ag with
  | host => rfl
  | inst k => simp [State.ready, hdone] at hready
  | relay => simp [State.ready, hdone] at hready
  | orchestrator => simp [State.ready, hdone] at hready

/-- Under the invariant an agent with a step is one of the round robin's. -/
theorem State.Inv.mem_agents (h : s.Inv) (hr : s.ready ag = true) : ag ∈ s.agents := by
  cases ag with
  | inst k =>
    obtain ⟨-, hk, -⟩ := (s.ready_inst_iff k).mp hr
    have hsize : k < s.size := h.2.1.1 ▸ hk
    simpa [State.agents] using hsize
  | relay => simp [State.agents]
  | orchestrator => simp [State.agents]
  | host => simp [State.agents]

theorem State.Inv.choose_none_iff (h : s.Inv) : s.choose = none ↔ ∀ ag, s.ready ag = false := by
  rw [State.choose_none]
  refine ⟨fun ⟨_, hn⟩ ag => Bool.eq_false_iff.mpr fun hr => ?_, fun hn => ⟨fun a _ => hn a, fun a _ => hn a⟩⟩
  exact Bool.eq_false_iff.mp (hn ag (h.mem_agents hr)) hr

/-- A transaction of the host is performed or refused. -/
theorem HostTx.perform_ne_fault (x : HostTx) (s : State) (f : Fault) : x.perform s ≠ .fault f := by
  cases x with
  | load p => rw [HostTx.perform, State.hostLoad]; split <;> nofun
  | send v => rw [HostTx.perform, State.hostSend]; split_ifs <;> nofun
  | closeIn => rw [HostTx.perform, State.hostClose]; split <;> nofun
  | recvOut =>
    rw [HostTx.perform, State.hostRecv]
    split_ifs
    · nofun
    · nofun
    · split <;> nofun
  | dropOut => rw [HostTx.perform, State.hostDrop]; split <;> nofun

/-- A machine's step is a next state, a fault of the machine included (60_exceptions.md R230). -/
theorem stepInst_next (s : State) : ∃ t, stepInst s = .next t := by
  rcases stepInst_cases (s := s) with ⟨_, -, hstep⟩ | ⟨i, -, hstep⟩
  · exact ⟨_, hstep⟩
  · rw [hstep]
    exact exec_next i _

theorem runAgent_ne_fault (s : State) (ag : Agent) (rest : List Agent) (f : Fault) :
    runAgent ag (s.advance ag rest) ≠ .fault f := by
  cases ag with
  | inst k =>
    obtain ⟨t, ht⟩ := stepInst_next ((s.advance (.inst k) rest).focus k)
    rw [runAgent, ht]
    nofun
  | relay => nofun
  | orchestrator => nofun
  | host =>
    rw [runAgent]
    cases hx : s.hostTx with
    | nil => rw [hostStep_nil (s := s.advance .host rest) hx]; nofun
    | cons x tx => rw [hostStep_eq hx]; exact x.perform_ne_fault _ f

/-- `step` stops only for want of an agent with a step. -/
theorem step_fault_iff {f : Fault} :
    step s = .fault f ↔ s.choose = none ∧ f = if s.orch.done = true then .runOver else .stuck := by
  rcases step_cases (s := s) with ⟨ag, rest, hc, hstep⟩ | ⟨hc, hstep⟩
  · simp [hc, hstep, runAgent_ne_fault]
  · rw [hstep, Host.Outcome.fault.injEq, eq_comm]
    exact (and_iff_right hc).symm

/-- Settles O11: a chosen agent's step is never a fault, and somebody is chosen as soon as an agent has a
step. -/
theorem stepStopsExactlyWhenNobodyCanStep : Obligations.StepStopsExactlyWhenNobodyCanStep := by
  intro s h
  simp only [step_fault_iff, exists_and_left, exists_eq, and_true]
  exact ⟨h.choose_none_iff, fun _ hf => hf.2⟩

/-! ## The relay (R205, R206) -/

theorem step_relay (hc : s.choose = some (.relay, rest)) :
    step s = .next (s.advance .relay rest).relayStep := by
  simp [step, hc, runAgent]

theorem State.relayStep_value (hv : s.finalChan.recv = .value v) :
    s.relayStep =
      { (s.onChan s.size Channel.consume).onChan 0 (Channel.send · v) with
        relay := { s.relay with last := some v, count := s.relay.count + 1 } } := by
  rw [State.relayStep, hv]

theorem State.relayStep_eos (hv : s.finalChan.recv = .eos) :
    s.relayStep = { s.onChan 0 Channel.closeOut with relay := { s.relay with done := true } } := by
  rw [State.relayStep, hv]

/-- The channels after two operations on two of them. -/
theorem State.onChan_onChan_chan {i j : Nat} {f g : Channel → Channel} (hij : i ≠ j)
    (hi : i < s.channels.length) (hj : j < s.channels.length) :
    ((s.onChan i f).onChan j g).chan i = f (s.chan i) ∧ ((s.onChan i f).onChan j g).chan j = g (s.chan j) ∧
      ∀ n, n ≠ j → n ≠ i → ((s.onChan i f).onChan j g).chan n = s.chan n := by
  refine ⟨?_, ?_, fun n hn hn' => ?_⟩
  · rw [State.onChan_chan_ne _ _ _ _ hij, State.onChan_chan _ _ _ hi]
  · rw [State.onChan_chan _ _ _ (by simpa using hj), State.onChan_chan_ne _ _ _ _ hij.symm]
  · rw [State.onChan_chan_ne _ _ _ _ hn, State.onChan_chan_ne _ _ _ _ hn']

/-- Settles O47: the tap and `c_0` are two channels, as a run has a machine (R9). -/
theorem relayRemembersAndForwards : Obligations.RelayRemembersAndForwards := by
  intro s rest v h hc hv
  obtain ⟨-, -, hdone, -⟩ := (s.ready_relay_iff).mp (chosenAgentHasStep s .relay rest hc).1
  have hsize : 1 ≤ s.size := (Params.ok_iff.mp h.1).1
  have hlen : s.channels.length = s.size + 1 := h.2.1.2.1
  obtain ⟨htap, hfirst, hothers⟩ := State.onChan_onChan_chan (s := s) (i := s.size) (j := 0)
    (f := Channel.consume) (g := (Channel.send · v)) (by omega) (by omega) (by omega)
  exact ⟨_, (step_relay hc).trans (congrArg _ (State.relayStep_value hv)), by simp [hdone], htap, hfirst,
    hothers, rfl, rfl⟩

/-- Settles O48: `relay_done` is what the relay's own readiness asks for. -/
theorem relayClosesFirstChannelAtTheEnd : Obligations.RelayClosesFirstChannelAtTheEnd := by
  intro s rest h hc hv
  have hlen : s.channels.length = s.size + 1 := h.2.1.2.1
  exact ⟨_, (step_relay hc).trans (congrArg _ (State.relayStep_eos hv)), rfl,
    s.onChan_chan 0 Channel.closeOut (by omega), fun j hj => s.onChan_chan_ne 0 j Channel.closeOut hj, rfl, rfl,
    by simp [State.ready, State.relayReady]⟩

/-! ## The end of a run (R197, R207 to R210) -/

theorem step_orchestrator (hc : s.choose = some (.orchestrator, rest)) :
    step s = .next (s.advance .orchestrator rest).orchestratorStep := by
  simp [step, hc, runAgent]

theorem State.orchestratorStep_of_faulted (h : ∃ x ∈ s.instances, x.status = .faulted) :
    s.orchestratorStep = s.abortStep := if_pos (s.anyFaulted_iff.mpr h)

theorem State.orchestratorStep_of_not_faulted (h : ∀ x ∈ s.instances, x.status ≠ .faulted) :
    s.orchestratorStep = s.completeStep :=
  if_neg fun hf =>
    have ⟨x, hx, hs⟩ := s.anyFaulted_iff.mp hf
    h x hx hs

theorem State.runResult_linear (h : s.params.topology = .linear) :
    s.runResult = (s.hostOut ++ (s.chan s.size).queue).getLast? := by
  rw [State.runResult, h]
  rfl

theorem State.runResult_feedback (h : s.params.topology = .feedback) : s.runResult = s.relay.last := by
  rw [State.runResult, h]

theorem State.completeStep_some (h : s.runResult = some v) :
    s.completeStep = { s with orch := { s.orch with result := some v, done := true } } := by
  rw [State.completeStep, h]

theorem State.completeStep_none (h : s.runResult = none) :
    s.completeStep =
      { s with
        orch :=
          { done := true
            aborted := true
            result := none
            fault := some { cause := .missingOutput, name := (s.instAt (s.size - 1)).name } } } := by
  rw [State.completeStep, h]

/-- Settles O50: the abort comes first of the orchestrator's two steps. -/
theorem faultAbortsTheRun : Obligations.FaultAbortsTheRun := by
  intro s rest hc hf
  exact ⟨_, (step_orchestrator hc).trans (congrArg _ (State.orchestratorStep_of_faulted hf)), rfl, rfl, rfl, rfl⟩

/-- Settles O51: without a fault the step is the completion, by its two cases. -/
theorem completionReportsLastValue : Obligations.CompletionReportsLastValue := by
  intro s rest _ hc hf
  let u := s.advance .orchestrator rest
  have hstep : u.orchestratorStep = u.completeStep := State.orchestratorStep_of_not_faulted hf
  obtain ⟨hinsts, hchans⟩ := State.orchestratorStep_frame (s := u)
  refine ⟨_, step_orchestrator hc, hinsts, hchans, fun value hvalue => ?_⟩
  have hresult : u.runResult = value := by
    rw [hvalue]
    cases htop : s.params.topology with
    | linear => exact State.runResult_linear (s := u) htop
    | feedback => exact State.runResult_feedback (s := u) htop
  refine ⟨fun v hv => ?_, fun hv => ?_⟩
  · rw [hstep, State.completeStep_some (hresult.trans hv)]
    rfl
  · rw [hstep, State.completeStep_none (hresult.trans hv)]
    rfl

/-! ## The seeds (R196, R202) -/

theorem Params.channels_seeded {ph : Int} {others : List Int} (hf : p.feed = .seeded)
    (hp : p.phase = ph :: others) :
    p.channels =
      { queue := [ph, p.seed], closed := decide (p.topology = .linear), dropped := false } ::
        (others.map fun v => { queue := [v], closed := false, dropped := false }) ++ [Channel.fresh] := by
  simp only [Params.channels, hf, hp]

/-- In both topologies each channel holds the phase of its machine, `c_0` the seed as well and the last one
nothing; `c_0` alone may start closed. -/
theorem State.load_seeds (s : State) (h : p.ok = true) (hf : p.feed = .seeded) :
    (s.load p).channels.length = p.phase.length + 1 ∧
      (s.load p).chan 0 =
        { queue := [p.phase.getD 0 0, p.seed], closed := decide (p.topology = .linear), dropped := false } ∧
      (∀ k, 1 ≤ k → k < p.phase.length →
        (s.load p).chan k = { queue := [p.phase.getD k 0], closed := false, dropped := false }) ∧
      (s.load p).chan p.phase.length = Channel.fresh := by
  have hsize : 1 ≤ p.phase.length := (Params.ok_iff.mp h).1
  obtain ⟨ph, others, hp⟩ := List.exists_cons_of_length_pos hsize
  have hchans : (s.load p).channels = p.channels := rfl
  rw [State.chan, State.chan, hchans, Params.channels_seeded hf hp, hp]
  refine ⟨by simp, rfl, fun k hk hlt => ?_, by simp⟩
  obtain ⟨j, rfl⟩ := Nat.exists_eq_add_of_le' hk
  have hj : j < others.length := by simpa using hlt
  rw [State.chan, hchans, Params.channels_seeded hf hp]
  simp [List.getD_eq_getElem?_getD, List.getElem?_append_left, hj]

/-- Settles O54: in the Linear topology `c_0` starts closed. -/
theorem linearSeeds : Obligations.LinearSeeds := by
  intro s p h hf htop
  simpa [htop, Channel.fresh] using s.load_seeds h hf

/-- Settles O55: in the Feedback topology `c_0` starts open. -/
theorem feedbackSeeds : Obligations.FeedbackSeeds := by
  intro s p h hf htop
  simpa [htop, Channel.fresh] using s.load_seeds h hf

/-! ## A word that does not decode (60_exceptions.md R221, R222, R225) -/

/-- Settles O7: one fault entry for the decoder's three errors. -/
theorem stepFaultsOnUndecodableWord : Obligations.StepFaultsOnUndecodableWord := by
  rintro s u k rest hc rfl hw
  rw [step_inst hc]
  exact ⟨fun _ => stepInst_undecodable hw, fun _ => stepInst_undecodable hw, fun _ => stepInst_undecodable hw⟩

/-! ## The round robin (70_reset_and_hazards.md R263, 92_eei_decisions.md D30) -/

theorem State.agents_length (s : State) : s.agents.length = s.size + 3 := by simp [State.agents]

theorem State.rotation_length {before after : List Agent}
    (h : s.rotation = before ++ ag :: after) :
    before.length + (after.length + 1) = s.size + 3 := by
  have hlen := congrArg List.length h
  rw [State.rotation, List.length_append, List.length_drop, List.length_take, s.agents_length] at hlen
  rw [← List.length_cons, ← List.length_append, ← hlen]
  omega

theorem State.rotation_eq_rotate (h : s.turn ≤ s.size + 2) : s.rotation = s.agents.rotate s.turn :=
  (List.rotate_eq_drop_append_take (by rw [s.agents_length]; omega)).symm

/-- The place after an agent's is the next one, and after the last one the first. -/
theorem State.turnAfter_eq {i : Nat} (h : s.agents[i]? = some ag) :
    s.turnAfter ag = (i + 1) % (s.size + 3) := by
  have hi : i < s.size + 3 := s.agents_length ▸ (List.getElem?_eq_some_iff.mp h).1
  rw [State.agents] at h
  by_cases hlt : i < s.size
  · rw [List.getElem?_append_left (by simpa using hlt)] at h
    obtain rfl : .inst i = ag := by simpa [hlt] using h
    exact (Nat.mod_eq_of_lt (show i + 1 < s.size + 3 by omega)).symm
  · obtain ⟨j, rfl⟩ := Nat.exists_eq_add_of_le (Nat.le_of_not_lt hlt)
    have hj : [Agent.relay, .orchestrator, .host][j]? = some ag := by
      simpa [List.getElem?_append_right] using h
    match j, hj with
    | 0, rfl => exact (Nat.mod_eq_of_lt (show s.size + 1 < s.size + 3 by omega)).symm
    | 1, rfl => exact (Nat.mod_eq_of_lt (show s.size + 2 < s.size + 3 by omega)).symm
    | 2, rfl => exact (Nat.mod_self (s.size + 3)).symm

/-- Once the turn stands after an agent, the rotation goes on after it. -/
theorem State.rotation_after {before after : List Agent} (hturn : s.turn ≤ s.size + 2)
    (hrot : s.rotation = before ++ ag :: after) (hsize : t.size = s.size) (ht : t.turn = s.turnAfter ag) :
    t.turn ≤ t.size + 2 ∧ t.rotation = after ++ (before ++ [ag]) := by
  have hagents : t.agents = s.agents := by rw [State.agents, State.agents, hsize]
  have hrot' : s.agents.rotate s.turn = before ++ ag :: after := (State.rotation_eq_rotate hturn).symm.trans hrot
  have hlen := State.rotation_length hrot
  have hag : s.agents[(before.length + s.turn) % (s.size + 3)]? = some ag := by
    rw [← s.agents_length, ← List.getElem?_rotate (by rw [s.agents_length]; omega), hrot']
    simp
  have hnext : t.turn = (before.length + 1 + s.turn) % (s.size + 3) := by
    rw [ht, State.turnAfter_eq hag, Nat.mod_add_mod, Nat.add_right_comm]
  have hle : t.turn ≤ t.size + 2 := by
    have := Nat.mod_lt (before.length + 1 + s.turn) (show 0 < s.size + 3 by omega)
    omega
  refine ⟨hle, ?_⟩
  calc t.rotation
    _ = s.agents.rotate t.turn := by rw [State.rotation_eq_rotate hle, hagents]
    _ = (s.agents.rotate s.turn).rotate (before.length + 1) := by
      rw [hnext, ← s.agents_length, List.rotate_mod, List.rotate_rotate, Nat.add_comm]
    _ = ((before ++ [ag]) ++ after).rotate (before ++ [ag]).length := by simp [hrot']
    _ = after ++ (before ++ [ag]) := List.rotate_append_length_eq _ _

/-- A step of the run leaves the parameters, the host's list, the schedule and the turn as they are. -/
theorem runAgent_frame (hne : ag ≠ .host) (ht : runAgent ag s = .next t) :
    t.params = s.params ∧ t.hostTx = s.hostTx ∧ t.schedule = s.schedule ∧ t.turn = s.turn := by
  cases ag with
  | inst k =>
    obtain ⟨hparams, -, -, htx, -, hschedule, hturn, -⟩ := (stepInst_grownEnd ht).sameElse
    exact ⟨hparams, htx, hschedule, hturn⟩
  | relay =>
    cases ht
    unfold State.relayStep
    split <;> exact ⟨rfl, rfl, rfl, rfl⟩
  | orchestrator =>
    cases ht
    unfold State.orchestratorStep State.abortStep State.completeStep
    split
    · exact ⟨rfl, rfl, rfl, rfl⟩
    · split <;> exact ⟨rfl, rfl, rfl, rfl⟩
  | host => exact absurd rfl hne

theorem State.choose_iff_of_schedule_nil (h : s.schedule = []) :
    s.choose = some (ag, []) ↔ s.rotation.find? s.ready = some ag := by
  rw [State.choose_some, h]
  simp [State.pickScheduled]

/-- A ready agent is chosen once none before it in the rotation is ready. -/
theorem State.choose_of_none_before {before after : List Agent} (h : s.schedule = [])
    (hrot : s.rotation = before ++ ag :: after) (hnone : before.find? s.ready = none)
    (hready : s.ready ag = true) : s.choose = some (ag, []) := by
  rw [State.choose_iff_of_schedule_nil h, hrot, List.find?_append, hnone]
  exact List.find?_cons_of_pos hready

/-- The schedule is used up and the host has nothing to do: the round robin chooses every step. -/
structure State.RoundRobin (s : State) : Prop where
  schedule : s.schedule = []
  hostTx : s.hostTx = []
  turn : s.turn ≤ s.size + 2

/-- One step of the round robin: the first agent with a step takes it, and the rotation goes on after it. -/
theorem State.RoundRobin.step_next {before after : List Agent} (h : s.RoundRobin) (ht : step s = .next t)
    (hfind : s.rotation.find? s.ready = some ag) (hrot : s.rotation = before ++ ag :: after) :
    t.RoundRobin ∧ t.rotation = after ++ (before ++ [ag]) := by
  have hc := (State.choose_iff_of_schedule_nil h.schedule).mpr hfind
  have hready : s.ready ag = true := List.find?_some hfind
  have hne : ag ≠ .host := by
    rintro rfl
    obtain ⟨_, _, hx, -⟩ := (s.ready_host_iff).mp hready
    simp [h.hostTx] at hx
  have hrun : runAgent ag (s.advance ag []) = .next t := by simpa [step, hc] using ht
  obtain ⟨hparams, htx, hschedule, hturn⟩ := runAgent_frame hne hrun
  obtain ⟨hle, hrot'⟩ := State.rotation_after h.turn hrot (congrArg Params.size hparams) hturn
  exact ⟨⟨hschedule, htx.trans h.hostTx, hle⟩, hrot'⟩

/-- The number of agents before a ready one in the rotation bounds how long it waits: each step that is not its
own is that of an agent before it, and takes that agent and those before it away. -/
theorem State.RoundRobin.reaches (n : Nat) {tr : Nat → State} {before after : List Agent}
    (h : (tr 0).RoundRobin) (hrot : (tr 0).rotation = before ++ ag :: after) (hn : before.length ≤ n)
    (hstep : ∀ j ≤ n, step (tr j) = .next (tr (j + 1))) (hready : ∀ j ≤ n, (tr j).ready ag = true) :
    ∃ j ≤ n, (tr j).choose = some (ag, []) := by
  induction n generalizing tr before after with
  | zero =>
    obtain rfl := List.eq_nil_of_length_eq_zero (Nat.le_zero.mp hn)
    exact ⟨0, Nat.le_refl _, State.choose_of_none_before h.schedule hrot rfl (hready 0 (Nat.le_refl _))⟩
  | succ n ih =>
    cases hfind : before.find? (tr 0).ready with
    | none =>
      exact ⟨0, Nat.zero_le _, State.choose_of_none_before h.schedule hrot hfind (hready 0 (Nat.zero_le _))⟩
    | some b =>
      obtain ⟨-, skipped, later, rfl, -⟩ := List.find?_eq_some_iff_append.mp hfind
      have hfirst : (tr 0).rotation.find? (tr 0).ready = some b := by rw [hrot, List.find?_append, hfind]; rfl
      obtain ⟨hnext, hrot'⟩ := h.step_next (hstep 0 (Nat.zero_le _)) hfirst
        (before := skipped) (after := later ++ ag :: after) (by simpa using hrot)
      have hlater : later.length ≤ n := by
        rw [List.length_append, List.length_cons] at hn
        omega
      obtain ⟨j, hj, hc⟩ := ih (tr := fun j => tr (j + 1)) hnext (before := later) (by simpa using hrot')
        hlater (fun j hj => hstep _ (by omega)) (fun j hj => hready _ (by omega))
      exact ⟨j + 1, by omega, hc⟩

/-- Settles O12: of the `N + 3` agents at most `N + 2` come before the ready one. -/
theorem roundRobinReachesEveryReadyAgent : Obligations.RoundRobinReachesEveryReadyAgent := by
  intro tr ag hinv hschedule htx hturn hstep hready
  obtain ⟨before, after, hrot⟩ :=
    List.append_of_mem (State.mem_rotation.mpr (hinv.mem_agents (hready 0 (by omega))))
  have hlen := State.rotation_length hrot
  obtain ⟨j, hj, hc⟩ := State.RoundRobin.reaches ((tr 0).size + 2) ⟨hschedule, htx, hturn⟩ hrot (by omega)
    (fun j hj => hstep j (by omega)) (fun j hj => hready j (by omega))
  exact ⟨j, by omega, hc⟩

/-! ## The first step after LOAD (70_reset_and_hazards.md R257) -/

/-- After LOAD machine 0 comes first in the round robin. -/
theorem State.load_rotation (h : p.ok = true) : ∃ others, (s.load p).rotation = .inst 0 :: others := by
  obtain ⟨n, hn⟩ := Nat.exists_eq_add_of_le' (Params.ok_iff.mp h).1
  have hsize : (s.load p).size = n + 1 := hn
  rw [State.rotation_eq_rotate (Nat.zero_le _), State.agents, hsize, List.range_succ_eq_map]
  exact ⟨_, List.rotate_zero _⟩

/-- The first step after LOAD is machine 0's, unless its first instruction may wait for a value. -/
theorem State.load_choose (h : p.ok = true) (hs : s.schedule = [])
    (hd : ∀ d, decodeWord (p.image.getD 0 0) ≠ .ok (.input d)) :
    (s.load p).choose = some (.inst 0, []) := by
  have hsize : 0 < p.size := (Params.ok_iff.mp h).1
  have hready : (s.load p).ready (.inst 0) = true := by
    refine ((s.load p).ready_inst_iff 0).mpr ⟨rfl, by rwa [State.load_length], ?_, fun ⟨d, hin, _⟩ => hd d ?_⟩
    · rw [State.load_instAt hsize]
      rfl
    · rw [State.load_instAt hsize] at hin
      exact Memory.load_view p.image 0 ▸ hin
  obtain ⟨others, hrot⟩ := State.load_rotation (s := s) h
  exact State.choose_of_none_before (before := []) (s := s.load p) hs hrot rfl hready

/-- The state in which machine 0 takes the first step after LOAD. -/
def State.loaded (s : State) (p : Params) : State := ((s.load p).advance (.inst 0) []).focus 0

theorem State.loaded_inst (h : p.ok = true) : (s.loaded p).inst = p.buildInst 0 :=
  State.load_instAt (s := s) (Params.ok_iff.mp h).1

theorem State.loaded_inv (h : p.ok = true) : (s.loaded p).Inv :=
  (State.load_inv h).advance.focus (State.load_length (s := s) ▸ (Params.ok_iff.mp h).1 :)

theorem State.loaded_fetchedWord (h : p.ok = true) : (s.loaded p).fetchedWord = p.image.getD 0 0 := by
  rw [State.fetchedWord, State.loaded_inst h]
  exact Memory.load_view _ _

theorem step_load (h : p.ok = true) (hs : s.schedule = [])
    (hd : ∀ d, decodeWord (p.image.getD 0 0) ≠ .ok (.input d)) :
    step (s.load p) = stepInst (s.loaded p) := step_inst (State.load_choose h hs hd)

/-- The machine that was current is so after its step. -/
theorem SameElse.instAt_cur (h : SameElse s t) : t.instAt s.cur = t.inst := by
  obtain ⟨-, -, -, -, -, -, -, hcur, -⟩ := h
  rw [State.inst, hcur]

/-- Settles O9: machine 0's first word is 0, which is no opcode, or 99, `halt`. -/
theorem shortestImages : Obligations.ShortestImages := by
  intro s p h hs
  have hu := State.loaded_inv (s := s) h
  refine ⟨fun himage => ?_, fun himage => ?_⟩
  · have hd : decodeWord (p.image.getD 0 0) = .error (.unknownOpcode 0) := by rw [himage]; rfl
    have hword := State.loaded_fetchedWord (s := s) h
    obtain ⟨t, ht, hinst, -, -, hsame⟩ := stepInst_undecodable hu.wired (hword ▸ hd)
    have hx := hsame.instAt_cur.trans hinst
    refine ⟨t, (step_load h hs (by rw [hd]; nofun)).trans ht, congrArg Inst.status hx,
      (congrArg Inst.fault hx).trans ?_⟩
    rw [← State.fetchedWord, hword, State.loaded_inst h, himage]
    rfl
  · have hd : decodeWord (p.image.getD 0 0) = .ok .halt := by rw [himage]; rfl
    have hrun : stepInst (s.loaded p) = .next (s.loaded p).fetch.haltInst :=
      stepInst_of_decodes (State.loaded_fetchedWord (s := s) h ▸ hd)
    have hx := (State.haltInst_sameElse (s := (s.loaded p).fetch)).instAt_cur.trans
      (State.haltInst_inst hu.fetch.wired.1)
    refine ⟨_, (step_load h hs (by rw [hd]; nofun)).trans hrun, congrArg Inst.status hx,
      (congrArg Inst.fault hx).trans ?_⟩
    rw [State.fetch_inst hu.wired.1, State.loaded_inst h]
    rfl

end Sys2Proof.Machine
